-- ==== Sys2Proof/Word.lean ====
section
/-! DEFINITION. The words of the block: 32-bit registers, bytes, bus addresses, grid rows. -/

namespace Sys2Proof

/-- A register or a bus datum: "Every register is 32 bits wide" (R8). -/
abbrev Word := BitVec 32

/-- A byte of DATA, CW, GEN or RSOUT, and an element of GF(2^8) (R40 to R43, R120). -/
abbrev Byte := BitVec 8

/-- The part of a bus address the block decodes, `addr[14:0]` (R60). -/
abbrev Addr := BitVec 15

/-- One row of a grid plane: cell `(x, y)` is bit `x` of row `y` (R44, R64). -/
abbrev Row := BitVec 177

/-- The bit field `v[hi:lo]` with `len = hi - lo + 1`, as an unsigned integer (R8). -/
def field {w : Nat} (v : BitVec w) (lo len : Nat) : Nat := (v.toNat >>> lo) % 2 ^ len

/-- `zext_32`, for a value already known as an integer below `2^32` (R8). -/
def word (n : Nat) : Word := BitVec.ofNat 32 n

end Sys2Proof
end

