-- ==== Sys2Proof/Syntax.lean ====
section
/-! DEFINITION. The sixteen commands of QCE-1, one constructor per row of spec/opcode_table.json. -/

namespace Sys2Proof

/-- A command. An operand is the command field F1 as an unsigned integer (R80, R81). -/
inductive Instr where
  /-- NOP (R200) -/
  | nop
  /-- BP_CLEAR (R101) -/
  | bpClear
  /-- BP_APPEND n (R102) -/
  | bpAppend (n : Nat)
  /-- BP_FINALIZE (R103) -/
  | bpFinalize
  /-- GF_MUL (R124) -/
  | gfMul
  /-- GF_EXP (R125) -/
  | gfExp
  /-- RS_GENPOLY deg (R127) -/
  | rsGenpoly (deg : Nat)
  /-- RS_ENCODE deg (R129) -/
  | rsEncode (deg : Nat)
  /-- RS_SYNDROME nsyn (R131) -/
  | rsSyndrome (nsyn : Nat)
  /-- INTERLEAVE (R152) -/
  | interleave
  /-- GRID_CLEAR (R154) -/
  | gridClear
  /-- PLACE (R156) -/
  | place
  /-- MASK_APPLY m (R177) -/
  | maskApply (m : Nat)
  /-- FORMAT_WRITE m (R182) -/
  | formatWrite (m : Nat)
  /-- SCORE (R192) -/
  | score
  /-- MASK_SELECT (R195) -/
  | maskSelect
deriving DecidableEq, Repr

end Sys2Proof
end

