-- ==== Sys2Proof/WellFormed.lean ====
section
/-! DEFINITION. A command is well formed when its operand fits its field of the command word. -/

namespace Sys2Proof

/-- The operand fits its field: 8 bits of F1, or F1[2:0] for a mask index (R80, R81). An operand that
fits may still be out of its legal range (R81): the command then completes with ILLEGAL_PARAM. -/
def Instr.wf : Instr → Bool
  | .nop => true
  | .bpClear => true
  | .bpAppend n => decide (n < 256)
  | .bpFinalize => true
  | .gfMul => true
  | .gfExp => true
  | .rsGenpoly deg => decide (deg < 256)
  | .rsEncode deg => decide (deg < 256)
  | .rsSyndrome nsyn => decide (nsyn < 256)
  | .interleave => true
  | .gridClear => true
  | .place => true
  | .maskApply m => decide (m < 8)
  | .formatWrite m => decide (m < 8)
  | .score => true
  | .maskSelect => true

end Sys2Proof
end

