-- ==== Sys2Proof/Decode.lean ====
section
/-! DEFINITION. Decoding a command word (R80 to R86), total on every word and rejecting by name, and
the encoder written from the same encoding tables. -/

namespace Sys2Proof

/-- Why a word is no command: the three causes of ILLEGAL_OPCODE, in the order R84 tests them. -/
inductive DecodeError where
  /-- OPC is not in the opcode map (R83, R85). -/
  | undefinedOpcode
  /-- RSV, bits [31:16], is not 0. -/
  | reservedBits
  /-- A reserved bit of F1 is not 0. -/
  | reservedField
deriving DecidableEq, Repr

/-- What F1 means for an opcode (R81). -/
inductive F1Use where
  /-- F1 is reserved and must be 0. -/
  | reserved (i : Instr)
  /-- F1[7:0] is the operand. -/
  | byte (mk : Nat → Instr)
  /-- F1[2:0] is the mask index and F1[7:3] must be 0. -/
  | mask (mk : Nat → Instr)

/-- The opcode map (R83). -/
def opcodeMap (opc : Nat) : Option F1Use :=
  match opc with
  | 0x00 => some (.reserved .nop)
  | 0x01 => some (.reserved .bpClear)
  | 0x02 => some (.byte .bpAppend)
  | 0x03 => some (.reserved .bpFinalize)
  | 0x10 => some (.reserved .gfMul)
  | 0x11 => some (.reserved .gfExp)
  | 0x12 => some (.byte .rsGenpoly)
  | 0x13 => some (.byte .rsEncode)
  | 0x14 => some (.byte .rsSyndrome)
  | 0x20 => some (.reserved .interleave)
  | 0x21 => some (.reserved .gridClear)
  | 0x22 => some (.reserved .place)
  | 0x30 => some (.mask .maskApply)
  | 0x31 => some (.mask .formatWrite)
  | 0x32 => some (.reserved .score)
  | 0x33 => some (.reserved .maskSelect)
  | _ => none

/-- `decode(c)` of R84. -/
def decode (c : Word) : Except DecodeError Instr :=
  let opc := field c 0 8
  let f1 := field c 8 8
  let rsv := field c 16 16
  match opcodeMap opc with
  | none => .error .undefinedOpcode
  | some use =>
    if rsv ≠ 0 then .error .reservedBits
    else match use with
      | .reserved i => if f1 ≠ 0 then .error .reservedField else .ok i
      | .byte mk => .ok (mk f1)
      | .mask mk => if f1 / 8 ≠ 0 then .error .reservedField else .ok (mk f1)

/-- The OPC byte of a command (R83). -/
def Instr.opc : Instr → Nat
  | .nop => 0x00
  | .bpClear => 0x01
  | .bpAppend _ => 0x02
  | .bpFinalize => 0x03
  | .gfMul => 0x10
  | .gfExp => 0x11
  | .rsGenpoly _ => 0x12
  | .rsEncode _ => 0x13
  | .rsSyndrome _ => 0x14
  | .interleave => 0x20
  | .gridClear => 0x21
  | .place => 0x22
  | .maskApply _ => 0x30
  | .formatWrite _ => 0x31
  | .score => 0x32
  | .maskSelect => 0x33

/-- The F1 byte of a command, 0 where it is reserved (R81). -/
def Instr.f1 : Instr → Nat
  | .nop => 0
  | .bpClear => 0
  | .bpAppend n => n
  | .bpFinalize => 0
  | .gfMul => 0
  | .gfExp => 0
  | .rsGenpoly deg => deg
  | .rsEncode deg => deg
  | .rsSyndrome nsyn => nsyn
  | .interleave => 0
  | .gridClear => 0
  | .place => 0
  | .maskApply m => m
  | .formatWrite m => m
  | .score => 0
  | .maskSelect => 0

/-- The word of a command: RSV = 0, F1, OPC, from the top bit down (R80). -/
def encode (i : Instr) : Word := BitVec.ofNat 32 (i.f1 * 2 ^ 8 + i.opc)

/-- The instruction the decoder reads from a table word. A command is one 32-bit word (R86), so the
table's bit numbering is the word's own and every bit above `nbits` is 0. -/
def decodeTableWord (nbits w : Nat) : Option Instr :=
  match decode (BitVec.ofNat 32 (w % 2 ^ nbits)) with
  | .ok i => some i
  | .error _ => none

end Sys2Proof
end

