-- ==== Sys2Proof/Config.lean ====
section
/-! DEFINITION. What an implementation fixes: the parameters of R5, and the FREE VALUES, opaque
constants without a body that stand for whatever the spec leaves unspecified (93, U1 to U6). -/

namespace Sys2Proof

/-- The four internal memories whose contents no reset defines (R48). -/
inductive MemId where
  | data | cw | mod | func
deriving DecidableEq, Repr

/-- `(NB, EL)` of one cell of P_BLOCK_TABLE: number of blocks, ECC codewords per block (R30). -/
structure BlockShape where
  nb : Nat
  el : Nat
deriving DecidableEq, Repr, Inhabited

/-- One version of P_BLOCK_TABLE. TOT stands once: a well-formed table's TOT does not depend on the
error-correction level (R30). -/
structure VersionRow where
  tot : Nat
  l : BlockShape
  m : BlockShape
  q : BlockShape
  h : BlockShape
deriving DecidableEq, Repr, Inhabited

/-- P_N4_ROUNDING (R5, R190). -/
inductive N4Rounding where
  | floor | ceilMinusOne
deriving DecidableEq, Repr

/-- The OPEN parameters of R5 that have a default. "A model takes each as an argument": the model's
argument is this record, carried by the state and changed by no step (assumption 2). -/
structure Params where
  blockTable : List VersionRow
  n3BorderLight : Bool
  n3Scaled : Bool
  n4Rounding : N4Rounding
deriving DecidableEq, Repr

namespace Config

/-- P_MAX_BITS (R5): capacity of the bit buffer in bits. -/
def maxBits : Nat := 32768
/-- P_DATA_BYTES (R5). -/
def dataBytes : Nat := 4096
/-- P_CW_BYTES (R5). -/
def cwBytes : Nat := 4096
/-- P_GRID (R5): side of the stored planes. -/
def grid : Nat := 177
/-- P_MAX_DEG (R5). -/
def maxDeg : Nat := 30
/-- The last legal version, P_VERSIONS = 1..40 (R5). -/
def maxVersion : Nat := 40
/-- P_ID (R5, R21). -/
def pId : Word := 0x51434501#32

/-- FREE VALUE (U1, U2; R76, R243, R241): what the location `addr` of a memory reads as when nothing
has written it since its contents were last lost. `epoch` counts those losses. -/
opaque unspecified (id : MemId) (epoch addr w : Nat) : BitVec w

/-- FREE VALUE (U3; R70): the `draw`-th read of a result register or a window while BUSY = 1. -/
opaque busyRead (draw : Nat) : Word

/-- FREE VALUE (U6; R5, R260): P_LATENCY less one. -/
opaque latencyBoundLessOne : Nat

/-- P_LATENCY: finite and at least 1, no value given (R5, R260). -/
def pLatency : Nat := latencyBoundLessOne + 1

/-- FREE VALUE (U6; R260): picks the latency of the command accepted at the `draw`-th draw. -/
opaque latencyDraw (draw : Nat) : Nat

/-- The latency of that command, in host transfers: at least 1 and at most P_LATENCY (R260). -/
def latency (draw : Nat) : Nat := latencyDraw draw % pLatency + 1

end Config
end Sys2Proof
end

