-- ==== Sys2Proof/Machine/Geometry.lean ====
section
/-! DEFINITION. The geometry of a symbol: P_BLOCK_TABLE, its default (93, GK1), `geometry` (R30). -/

namespace Sys2Proof

/-- Versions 1 to 10 of GK1's table. -/
def blockTable0 : List VersionRow :=
  [⟨26, ⟨1, 7⟩, ⟨1, 10⟩, ⟨1, 13⟩, ⟨1, 17⟩⟩,
   ⟨44, ⟨1, 10⟩, ⟨1, 16⟩, ⟨1, 22⟩, ⟨1, 28⟩⟩,
   ⟨70, ⟨1, 15⟩, ⟨1, 26⟩, ⟨2, 18⟩, ⟨2, 22⟩⟩,
   ⟨100, ⟨1, 20⟩, ⟨2, 18⟩, ⟨2, 26⟩, ⟨4, 16⟩⟩,
   ⟨134, ⟨1, 26⟩, ⟨2, 24⟩, ⟨4, 18⟩, ⟨4, 22⟩⟩,
   ⟨172, ⟨2, 18⟩, ⟨4, 16⟩, ⟨4, 24⟩, ⟨4, 28⟩⟩,
   ⟨196, ⟨2, 20⟩, ⟨4, 18⟩, ⟨6, 18⟩, ⟨5, 26⟩⟩,
   ⟨242, ⟨2, 24⟩, ⟨4, 22⟩, ⟨6, 22⟩, ⟨6, 26⟩⟩,
   ⟨292, ⟨2, 30⟩, ⟨5, 22⟩, ⟨8, 20⟩, ⟨8, 24⟩⟩,
   ⟨346, ⟨4, 18⟩, ⟨5, 26⟩, ⟨8, 24⟩, ⟨8, 28⟩⟩]

/-- Versions 11 to 20 of GK1's table. -/
def blockTable1 : List VersionRow :=
  [⟨404, ⟨4, 20⟩, ⟨5, 30⟩, ⟨8, 28⟩, ⟨11, 24⟩⟩,
   ⟨466, ⟨4, 24⟩, ⟨8, 22⟩, ⟨10, 26⟩, ⟨11, 28⟩⟩,
   ⟨532, ⟨4, 26⟩, ⟨9, 22⟩, ⟨12, 24⟩, ⟨16, 22⟩⟩,
   ⟨581, ⟨4, 30⟩, ⟨9, 24⟩, ⟨16, 20⟩, ⟨16, 24⟩⟩,
   ⟨655, ⟨6, 22⟩, ⟨10, 24⟩, ⟨12, 30⟩, ⟨18, 24⟩⟩,
   ⟨733, ⟨6, 24⟩, ⟨10, 28⟩, ⟨17, 24⟩, ⟨16, 30⟩⟩,
   ⟨815, ⟨6, 28⟩, ⟨11, 28⟩, ⟨16, 28⟩, ⟨19, 28⟩⟩,
   ⟨901, ⟨6, 30⟩, ⟨13, 26⟩, ⟨18, 28⟩, ⟨21, 28⟩⟩,
   ⟨991, ⟨7, 28⟩, ⟨14, 26⟩, ⟨21, 26⟩, ⟨25, 26⟩⟩,
   ⟨1085, ⟨8, 28⟩, ⟨16, 26⟩, ⟨20, 30⟩, ⟨25, 28⟩⟩]

/-- Versions 21 to 30 of GK1's table. -/
def blockTable2 : List VersionRow :=
  [⟨1156, ⟨8, 28⟩, ⟨17, 26⟩, ⟨23, 28⟩, ⟨25, 30⟩⟩,
   ⟨1258, ⟨9, 28⟩, ⟨17, 28⟩, ⟨23, 30⟩, ⟨34, 24⟩⟩,
   ⟨1364, ⟨9, 30⟩, ⟨18, 28⟩, ⟨25, 30⟩, ⟨30, 30⟩⟩,
   ⟨1474, ⟨10, 30⟩, ⟨20, 28⟩, ⟨27, 30⟩, ⟨32, 30⟩⟩,
   ⟨1588, ⟨12, 26⟩, ⟨21, 28⟩, ⟨29, 30⟩, ⟨35, 30⟩⟩,
   ⟨1706, ⟨12, 28⟩, ⟨23, 28⟩, ⟨34, 28⟩, ⟨37, 30⟩⟩,
   ⟨1828, ⟨12, 30⟩, ⟨25, 28⟩, ⟨34, 30⟩, ⟨40, 30⟩⟩,
   ⟨1921, ⟨13, 30⟩, ⟨26, 28⟩, ⟨35, 30⟩, ⟨42, 30⟩⟩,
   ⟨2051, ⟨14, 30⟩, ⟨28, 28⟩, ⟨38, 30⟩, ⟨45, 30⟩⟩,
   ⟨2185, ⟨15, 30⟩, ⟨29, 28⟩, ⟨40, 30⟩, ⟨48, 30⟩⟩]

/-- Versions 31 to 40 of GK1's table. -/
def blockTable3 : List VersionRow :=
  [⟨2323, ⟨16, 30⟩, ⟨31, 28⟩, ⟨43, 30⟩, ⟨51, 30⟩⟩,
   ⟨2465, ⟨17, 30⟩, ⟨33, 28⟩, ⟨45, 30⟩, ⟨54, 30⟩⟩,
   ⟨2611, ⟨18, 30⟩, ⟨35, 28⟩, ⟨48, 30⟩, ⟨57, 30⟩⟩,
   ⟨2761, ⟨19, 30⟩, ⟨37, 28⟩, ⟨51, 30⟩, ⟨60, 30⟩⟩,
   ⟨2876, ⟨19, 30⟩, ⟨38, 28⟩, ⟨53, 30⟩, ⟨63, 30⟩⟩,
   ⟨3034, ⟨20, 30⟩, ⟨40, 28⟩, ⟨56, 30⟩, ⟨66, 30⟩⟩,
   ⟨3196, ⟨21, 30⟩, ⟨43, 28⟩, ⟨59, 30⟩, ⟨70, 30⟩⟩,
   ⟨3362, ⟨22, 30⟩, ⟨45, 28⟩, ⟨62, 30⟩, ⟨74, 30⟩⟩,
   ⟨3532, ⟨24, 30⟩, ⟨47, 28⟩, ⟨65, 30⟩, ⟨77, 30⟩⟩,
   ⟨3706, ⟨25, 30⟩, ⟨49, 28⟩, ⟨68, 30⟩, ⟨81, 30⟩⟩]

/-- The default P_BLOCK_TABLE: `(TOT, (NB, EL) for L, M, Q, H)`, versions 1 to 40 in order (GK1). -/
def defaultBlockTable : List VersionRow :=
  blockTable0 ++ blockTable1 ++ blockTable2 ++ blockTable3

/-- The default parameters (R5, column "value"). -/
def Params.default : Params :=
  { blockTable := defaultBlockTable, n3BorderLight := true, n3Scaled := false, n4Rounding := .floor }

/-- `(NB, EL)` of a level ordinal: L = 0, M = 1, Q = 2, H = 3 (R24). -/
def VersionRow.shape (r : VersionRow) (e : Nat) : BlockShape :=
  match e with
  | 0 => r.l
  | 1 => r.m
  | 2 => r.q
  | _ => r.h

/-- What `geometry(v, e)` gives (R30). -/
structure Geometry where
  size : Nat
  tot : Nat
  nb : Nat
  el : Nat
  dcw : Nat
  ns : Nat
  sdl : Nat
deriving DecidableEq, Repr

/-- The geometry of one table entry (R30). -/
def VersionRow.geometry (r : VersionRow) (v e : Nat) : Geometry :=
  let b := r.shape e
  { size := 17 + 4 * v
    tot := r.tot
    nb := b.nb
    el := b.el
    dcw := r.tot - b.nb * b.el
    ns := b.nb - r.tot % b.nb
    sdl := r.tot / b.nb - b.el }

/-- `geometry(v, e)` for a legal version `v` and level ordinal `e` (R30). -/
def geometry (p : Params) (v e : Nat) : Geometry :=
  (p.blockTable.getD (v - 1) Inhabited.default).geometry v e

/-- Versions 1..40 are legal (R5, R47). -/
def legalVersion (v : Nat) : Bool := decide (1 ≤ v) && decide (v ≤ Config.maxVersion)

/-- The conditions of R30 on one geometry of a well-formed table. -/
def Geometry.wf (g : Geometry) : Bool :=
  decide (1 ≤ g.nb) && decide (1 ≤ g.el) && decide (g.el ≤ Config.maxDeg) && decide (1 ≤ g.sdl) &&
  decide (g.tot ≤ Config.cwBytes) && decide (g.nb ≤ 255) && decide (g.sdl + 1 ≤ 255)

/-- P_BLOCK_TABLE is well formed (R30): "A model takes a well-formed table as a premise." -/
def Params.wf (p : Params) : Bool :=
  decide (p.blockTable.length = Config.maxVersion) &&
  p.blockTable.all fun r => (List.range 4).all fun e => (r.geometry 1 e).wf

end Sys2Proof
end

