-- ==== Sys2Proof/Machine/State.lean ====
section
/-! DEFINITION. The state of the block and of its host, as plain data, and the state after power-on
reset (R20 to R48, R240). -/

namespace Sys2Proof.Machine

open Sys2Proof

/-- One internal memory whose contents no reset defines. `cells` lists the locations written since the
contents were last lost, keys strictly rising; an unlisted location reads as a free value, which
`epoch` (the number of losses so far) tells from the earlier ones (R76, R241, R243; assumption 1). At
width 8 `cells` is a list of `Host.Cell`. -/
structure Memory (id : MemId) (w : Nat) where
  epoch : Nat
  cells : List (Nat × BitVec w)
deriving DecidableEq, Repr

/-- A memory at power-on: nothing written (R243). -/
def Memory.unwritten (id : MemId) (w : Nat) : Memory id w := { epoch := 0, cells := [] }

/-- A 177 × 177 plane, one entry per row: cell `(x, y)` is bit `x` of row `y` (R44, R64). -/
abbrev Plane (id : MemId) := Memory id 177

/-- STATUS but for BUSY, which `Engine` holds (R23, R39). -/
structure Status where
  done : Bool
  err : Bool
  wbusy : Bool
  errcode : Byte
deriving DecidableEq, Repr

/-- CONFIG's fields (R24). -/
structure ConfigReg where
  version : BitVec 6
  ecl : BitVec 2
  fmask : BitVec 3
  force : Bool
deriving DecidableEq, Repr

/-- BEST's fields (R33). -/
structure Best where
  mask : BitVec 3
  valid : Bool
  penValid : Byte
deriving DecidableEq, Repr

/-- The penalty accumulator (R34). -/
structure ScoreRegs where
  total : Word
  n1 : Word
  n2 : Word
  n3 : Word
  n4 : Word
  dark : Word
deriving DecidableEq, Repr

/-- The engine's control state `eng` (R39): idle, or running the latched command word; `left` is how
many host transfers still take effect before it completes (R260). -/
inductive Engine where
  | idle
  | run (word : Word) (left : Nat)
deriving DecidableEq, Repr

/-- A value a host program writes: a number, or what its `k`-th `RD` bound, counted from 0 (R87). -/
inductive HostValue where
  | lit (v : Word)
  | bound (k : Nat)
deriving DecidableEq, Repr

/-- One line of a host program: "the 'program' is the host's sequence of bus accesses" (R6, R87). -/
inductive HostOp where
  /-- `MemWrite(addr, 4, v)` with its byte strobes (R60, R62) -/
  | write (addr : Addr) (val : HostValue) (strobes : BitVec 4)
  /-- `MemRead(addr, 4)`, binding the result (R62, R87) -/
  | read (addr : Addr)
  /-- `WAIT`: repeat `RD STATUS -> s` until `s[0] = 0` (R87) -/
  | wait
  /-- `CHECK`: `RD STATUS -> s`; the program is at fault if `s[2] = 1` (R88) -/
  | check
deriving DecidableEq, Repr

/-- The state: every register and memory of R20 to R45, and below them the model's own fields. -/
structure State where
  /-- CTRL.IRQ_EN (R22) -/
  irqEn : Bool
  /-- STATUS (R23) -/
  status : Status
  /-- CONFIG (R24) -/
  config : ConfigReg
  /-- CMD's read value: the most recently accepted word (R25) -/
  cmd : Word
  /-- ARG0 (R26) -/
  arg0 : Word
  /-- ARG1 (R27) -/
  arg1 : Word
  /-- RESULT (R28) -/
  result : Word
  /-- BITLEN[15:0] (R29) -/
  bitlen : BitVec 16
  /-- ERRINFO0 (R32) -/
  errinfo0 : Word
  /-- ERRINFO1 (R32) -/
  errinfo1 : Word
  /-- BEST (R33) -/
  best : Best
  /-- SCORE_TOTAL, SCORE_N1 to SCORE_N4, SCORE_DARK (R34) -/
  score : ScoreRegs
  /-- PEN0..PEN7 (R35) -/
  pen : Vector Word 8
  /-- GEN[0..31] (R42) -/
  gen : Vector Byte 32
  /-- RSOUT[0..31] (R43) -/
  rsout : Vector Byte 32
  /-- DATA[0..4095] (R40) -/
  data : Memory .data 8
  /-- CW[0..4095] (R41) -/
  cw : Memory .cw 8
  /-- MOD (R44) -/
  mod : Plane .mod
  /-- FUNC (R44) -/
  func : Plane .func
  /-- `eng` and with it STATUS.BUSY (R39) -/
  eng : Engine
  /-- MODEL'S OWN: the parameters of R5, constant (assumption 2) -/
  params : Params
  /-- MODEL'S OWN: how many free values have been drawn (assumptions 3, 4) -/
  draws : Nat
  /-- MODEL'S OWN: what the host has still to do, the next first (R6, R7; assumption 5) -/
  host : List HostOp
  /-- MODEL'S OWN: the values the host's `RD`s have bound, the oldest first (R87; assumption 5) -/
  readData : List Word
deriving DecidableEq, Repr

/-- Why a run stops. Only the HOST's program can be at fault: no command ever raises one. -/
inductive Fault where
  /-- A transfer got the ERROR response: misaligned, partial strobes, or unmapped (R63, V6). Raised by
  the host's reads and writes. Safe: R63 has a model treat it as a fault of the host program. -/
  | busError (addr : Addr)
  /-- `CHECK` found STATUS.ERR = 1 (R88). Raised by `HostOp.check`. Safe: R88 says so. -/
  | checkFailed
  /-- A host program wrote a name that no `RD` has bound yet. Raised by `HostOp.write`. Safe: such a
  program has no meaning under R87. -/
  | unboundName (k : Nat)
deriving DecidableEq, Repr

/-- Why an instruction has no meaning. -/
inductive Refusal where
  /-- Raised by an arm of `exec` that has no meaning yet; no arm does. Safe. -/
  | notModelled (mnemonic : String)
deriving DecidableEq, Repr

/-- CONFIG after either reset, 0x00000001: version 1, ECL L, FMASK 0, FORCE 0 (R24, R48). -/
def ConfigReg.reset : ConfigReg := { version := 1#6, ecl := 0#2, fmask := 0#3, force := false }

/-- STATUS after either reset (R48, R242). -/
def Status.reset : Status := { done := false, err := false, wbusy := false, errcode := 0#8 }

/-- BEST after either reset (R48). -/
def Best.reset : Best := { mask := 0#3, valid := false, penValid := 0#8 }

/-- The penalty accumulator after either reset (R48). -/
def ScoreRegs.reset : ScoreRegs :=
  { total := 0#32, n1 := 0#32, n2 := 0#32, n3 := 0#32, n4 := 0#32, dark := 0#32 }

/-- Power-on reset (R48, R240, R243). The host has nothing to do yet: a program is loaded from outside
(assumption 5). -/
def State.reset : State :=
  { irqEn := false
    status := Status.reset
    config := ConfigReg.reset
    cmd := 0#32
    arg0 := 0#32
    arg1 := 0#32
    result := 0#32
    bitlen := 0#16
    errinfo0 := 0#32
    errinfo1 := 0#32
    best := Best.reset
    score := ScoreRegs.reset
    pen := Vector.replicate 8 0#32
    gen := Vector.replicate 32 0#8
    rsout := Vector.replicate 32 0#8
    data := Memory.unwritten .data 8
    cw := Memory.unwritten .cw 8
    mod := Memory.unwritten .mod 177
    func := Memory.unwritten .func 177
    eng := .idle
    params := Params.default
    draws := 0
    host := []
    readData := [] }

end Sys2Proof.Machine
end

