-- ==== Sys2Proof/Machine/Memory.lean ====
section
/-! DEFINITION. The operations over one internal memory, all of whose results keep its canonical form,
and the cells of a plane. -/

namespace Sys2Proof.Machine

open Sys2Proof

/-- The entry listed for a key, if one is. -/
def listed {w : Nat} (k : Nat) : List (Nat × BitVec w) → Option (BitVec w)
  | [] => none
  | (j, v) :: rest => if j = k then some v else listed k rest

/-- `cells` with the entry of key `k` set to `v`, in key order. -/
def insertCell {w : Nat} (k : Nat) (v : BitVec w) : List (Nat × BitVec w) → List (Nat × BitVec w)
  | [] => [(k, v)]
  | (j, u) :: rest =>
    if k < j then (k, v) :: (j, u) :: rest
    else if k = j then (k, v) :: rest
    else (j, u) :: insertCell k v rest

/-- Keys strictly rising and at least `lo`. -/
def risingFrom {w : Nat} (lo : Nat) : List (Nat × BitVec w) → Bool
  | [] => true
  | (j, _) :: rest => decide (lo ≤ j) && risingFrom (j + 1) rest

/-- THE CANONICAL FORM: keys strictly rising and below the memory's size. A listed location holds a
written value and an unlisted one holds none, so no entry equals what an unlisted location holds
(assumption 1). -/
def Memory.wf {id : MemId} {w : Nat} (size : Nat) (m : Memory id w) : Bool :=
  risingFrom 0 m.cells && m.cells.all fun c => decide (c.1 < size)

/-- A location's value: what was last written, else a free value (R76, R243). -/
def Memory.read {id : MemId} {w : Nat} (m : Memory id w) (k : Nat) : BitVec w :=
  (listed k m.cells).getD (Config.unspecified id m.epoch k w)

/-- One location written. -/
def Memory.write {id : MemId} {w : Nat} (m : Memory id w) (k : Nat) (v : BitVec w) : Memory id w :=
  { m with cells := insertCell k v m.cells }

/-- Consecutive locations from `k` written with `vs`. -/
def Memory.writeBlock {id : MemId} {w : Nat} (m : Memory id w) (k : Nat) (vs : List (BitVec w)) :
    Memory id w :=
  { m with cells :=
      m.cells.filter (fun c => decide (c.1 < k)) ++
      (vs.zipIdx k).map (fun c => (c.2, c.1)) ++
      m.cells.filter (fun c => decide (k + vs.length ≤ c.1)) }

/-- Locations `k`, …, `k + n - 1`, in order. -/
def Memory.readBlock {id : MemId} {w : Nat} (m : Memory id w) (k n : Nat) : List (BitVec w) :=
  (List.range' k n).map m.read

/-- The whole memory, `size` locations, written with one value. -/
def Memory.fill {id : MemId} {w : Nat} (m : Memory id w) (size : Nat) (v : BitVec w) : Memory id w :=
  { m with cells := (List.range size).map fun k => (k, v) }

/-- The contents lost: every location unspecified again (R241, U2). -/
def Memory.lose {id : MemId} {w : Nat} (m : Memory id w) : Memory id w :=
  { epoch := m.epoch + 1, cells := [] }

/-- `v` with bit `i` set to `b`. -/
def setBit {w : Nat} (v : BitVec w) (i : Nat) (b : Bool) : BitVec w :=
  if b then v ||| BitVec.twoPow w i else v &&& ~~~BitVec.twoPow w i

/-- `MOD[y][x]`, `FUNC[y][x]` (R9, R44). -/
def Memory.cell {id : MemId} (p : Plane id) (x y : Nat) : Bool := (p.read y).getLsbD x

/-- `MOD[y][x] <- b` (R9). -/
def Memory.setCell {id : MemId} (p : Plane id) (x y : Nat) (b : Bool) : Plane id :=
  p.write y (setBit (p.read y) x b)

/-- The integer whose bit `i` is the `i`-th of `bs`. -/
def natOfBits : List Bool → Nat
  | [] => 0
  | b :: bs => b.toNat + 2 * natOfBits bs

/-- A row whose cells `x < n` become `f x` and whose other cells stay. -/
def updateRow (r : Row) (n : Nat) (f : Nat → Bool) : Row :=
  ((r >>> n) <<< n) ||| BitVec.ofNat 177 (natOfBits ((List.range n).map f))

/-- Every cell `(x, y)` with `x, y < n` becomes `f x y`; cells outside that square keep their contents
(R44). -/
def Memory.mapSquare {id : MemId} (p : Plane id) (n : Nat) (f : Nat → Nat → Bool) : Plane id :=
  p.writeBlock 0 ((List.range n).map fun y => updateRow (p.read y) n fun x => f x y)

end Sys2Proof.Machine
end

