-- ==== Sys2Proof/Machine/Operands.lean ====
section
/-! DEFINITION. Operand assembly: what each command reads as its operands (R82), and the legal range of
the F1 operands (R81). -/

namespace Sys2Proof.Machine

open Sys2Proof

/-- CONFIG.VERSION (R82). -/
def State.version (s : State) : Nat := s.config.version.toNat
/-- CONFIG.ECL, the level ordinal `e` (R82). -/
def State.ecl (s : State) : Nat := s.config.ecl.toNat
/-- CONFIG.FMASK (R82). -/
def State.fmask (s : State) : Nat := s.config.fmask.toNat
/-- The low byte of ARG0: `a` of GF_MUL, `k` of GF_EXP (R82). -/
def State.arg0Byte (s : State) : Byte := s.arg0.setWidth 8
/-- The low byte of ARG1: `b` of GF_MUL (R82). -/
def State.arg1Byte (s : State) : Byte := s.arg1.setWidth 8
/-- ARG0 as a whole unsigned integer: `off` (R82). -/
def State.off (s : State) : Nat := s.arg0.toNat
/-- ARG1 as a whole unsigned integer: `len` (R82). -/
def State.len (s : State) : Nat := s.arg1.toNat

/-- The bits BP_APPEND appends: the low `n` bits of ARG0, the most significant first (R82, R102). -/
def State.appendBits (s : State) (n : Nat) : List Bool :=
  (List.range n).map fun k => s.arg0.getLsbD (n - 1 - k)

/-- The mask operand F1[2:0] (R81, R82). -/
def maskOperand (m : Nat) : Nat := m % 8

/-- The legal range of BP_APPEND's `n` (R81). -/
def legalCount (n : Nat) : Bool := decide (n ≤ 32)
/-- The legal range of `deg` and `nsyn` (R81). -/
def legalDegree (d : Nat) : Bool := decide (1 ≤ d) && decide (d ≤ Config.maxDeg)

/-- `geometry(CONFIG.VERSION, CONFIG.ECL)` (R30). -/
def State.geom (s : State) : Geometry := geometry s.params s.version s.ecl

end Sys2Proof.Machine
end

