-- ==== Sys2Proof/Machine/Flags.lean ====
section
/-! DEFINITION. The flags (R46): STATUS, BEST, the interrupt output, and what sets and clears each. -/

namespace Sys2Proof.Machine

open Sys2Proof

/-- STATUS.BUSY: 1 exactly when `eng = RUN(c)` (R39). -/
def State.busy (s : State) : Bool :=
  match s.eng with
  | .idle => false
  | .run _ _ => true

/-- The interrupt output (R220). -/
def State.irq (s : State) : Bool := s.irqEn && (s.status.done || s.status.err)

/-- STATUS as read (R23). -/
def State.statusWord (s : State) : Word :=
  word (s.busy.toNat + 2 * s.status.done.toNat + 4 * s.status.err.toNat + 8 * s.status.wbusy.toNat +
    2 ^ 8 * s.status.errcode.toNat)

/-- A host write of STATUS: write 1 to clear DONE, ERR, WBUSY; writing 0 changes nothing (R23). -/
def Status.writeOneToClear (f : Status) (v : Word) : Status :=
  { f with
    done := f.done && !v.getLsbD 1
    err := f.err && !v.getLsbD 2
    wbusy := f.wbusy && !v.getLsbD 3 }

/-- CTRL as read: SRST and the reserved bits read 0 (R22). -/
def State.ctrlWord (s : State) : Word := word s.irqEn.toNat

/-- CONFIG as read (R24). -/
def ConfigReg.toWord (c : ConfigReg) : Word :=
  word (c.version.toNat + 2 ^ 8 * c.ecl.toNat + 2 ^ 16 * c.fmask.toNat + 2 ^ 19 * c.force.toNat)

/-- CONFIG as written: reserved bits are ignored (R24, R36). -/
def ConfigReg.ofWord (v : Word) : ConfigReg :=
  { version := BitVec.ofNat 6 (field v 0 6)
    ecl := BitVec.ofNat 2 (field v 8 2)
    fmask := BitVec.ofNat 3 (field v 16 3)
    force := v.getLsbD 19 }

/-- BEST as read (R33). -/
def Best.toWord (b : Best) : Word :=
  word (b.mask.toNat + 2 ^ 8 * b.valid.toNat + 2 ^ 16 * b.penValid.toNat)

/-- BEST as MASK_SELECT leaves it: the chosen mask, valid, one PEN_VALID bit per candidate (R33, R195). -/
def Best.of (best : Nat) (cands : List Nat) : Best :=
  { mask := BitVec.ofNat 3 best
    valid := true
    penValid := BitVec.ofNat 8 (natOfBits ((List.range 8).map fun m => cands.contains m)) }

end Sys2Proof.Machine
end

