-- ==== Sys2Proof/Machine/Ops.lean ====
section
/-! DEFINITION. What every command shares: raising an error, completing, accepting a command, and soft
reset (R213, R214, R25, R241). -/

namespace Sys2Proof.Machine

open Sys2Proof

/-- What a command raises, with its two information values (R210, R213). -/
inductive Raise where
  | segTooLong (needed max : Nat)
  | dataOverCapacity (needed available : Nat)
  | illegalOpcode (w : Word)
  | illegalParam
  | placeOverflow (needed available : Nat)
deriving DecidableEq, Repr

/-- `code(E)` (R210). -/
def Raise.code : Raise → Nat
  | .segTooLong _ _ => 1
  | .dataOverCapacity _ _ => 2
  | .illegalOpcode _ => 3
  | .illegalParam => 4
  | .placeOverflow _ _ => 5

/-- ERRINFO0 of an error (R210). -/
def Raise.info0 : Raise → Word
  | .segTooLong needed _ => word needed
  | .dataOverCapacity needed _ => word needed
  | .illegalOpcode w => w
  | .illegalParam => 0#32
  | .placeOverflow needed _ => word needed

/-- ERRINFO1 of an error (R210). -/
def Raise.info1 : Raise → Word
  | .segTooLong _ max => word max
  | .dataOverCapacity _ available => word available
  | .illegalOpcode _ => 0#32
  | .illegalParam => 0#32
  | .placeOverflow _ available => word available

/-- TAKING AN ERROR, `fail(k, i0, i1)` (R213, R214): all the state an error saves (R218). -/
def State.fail (s : State) (e : Raise) : State :=
  { s with
    status := { s.status with err := true, errcode := BitVec.ofNat 8 e.code }
    errinfo0 := e.info0
    errinfo1 := e.info1 }

/-- The end of `complete(c)`: DONE <- 1, BUSY <- 0, eng <- IDLE (R214). -/
def State.complete (s : State) : State :=
  { s with status := { s.status with done := true }, eng := .idle }

/-- A command's body has run: its writes are committed, or its error is taken and none of them happen;
then it completes (R213, R214). -/
def State.finish (s : State) : Except Raise State → State
  | .ok t => t.complete
  | .error e => (s.fail e).complete

/-- The body of a command that needs a version: ILLEGAL_PARAM outside 1..40, else it runs on the
current geometry (R47). -/
def State.withGeometry (s : State) (body : Geometry → Except Raise State) : Except Raise State :=
  if legalVersion s.version then body s.geom else .error .illegalParam

/-- Acceptance of a command word while idle (R25); the latency is drawn (R260). -/
def State.accept (s : State) (c : Word) : State :=
  { s with
    cmd := c
    status := { s.status with done := false }
    eng := .run c (Config.latency s.draws)
    draws := s.draws + 1 }

/-- The memories a command's abort leaves unspecified (R241). -/
def abortLoses (c : Word) : List MemId :=
  match decode c with
  | .error _ => []
  | .ok i =>
    match i with
    | .bpClear => [.data]
    | .bpAppend _ => [.data]
    | .bpFinalize => [.data]
    | .interleave => [.cw]
    | .gridClear => [.mod, .func]
    | .place => [.mod]
    | .maskApply _ => [.mod]
    | .formatWrite _ => [.mod]
    | .maskSelect => [.mod]
    | .nop => []
    | .gfMul => []
    | .gfExp => []
    | .rsGenpoly _ => []
    | .rsEncode _ => []
    | .rsSyndrome _ => []
    | .score => []

/-- The memories a soft reset leaves unspecified: none while idle (R241). -/
def State.lost (s : State) : List MemId :=
  match s.eng with
  | .idle => []
  | .run c _ => abortLoses c

/-- A memory after a soft reset: kept, unless the aborted command writes it (R241). -/
def Memory.afterAbort {id : MemId} {w : Nat} (m : Memory id w) (lost : List MemId) : Memory id w :=
  if lost.contains id then m.lose else m

/-- Soft reset: a host write of CTRL with bit 1 = 1 (R22, R241). -/
def State.softReset (s : State) : State :=
  { s with
    irqEn := false
    status := Status.reset
    config := ConfigReg.reset
    cmd := 0#32
    arg0 := 0#32
    arg1 := 0#32
    result := 0#32
    bitlen := 0#16
    errinfo0 := 0#32
    errinfo1 := 0#32
    best := Best.reset
    score := ScoreRegs.reset
    pen := Vector.replicate 8 0#32
    gen := Vector.replicate 32 0#8
    rsout := Vector.replicate 32 0#8
    data := s.data.afterAbort s.lost
    cw := s.cw.afterAbort s.lost
    mod := s.mod.afterAbort s.lost
    func := s.func.afterAbort s.lost
    eng := .idle }

/-- What a command's meaning answers: it completes in one step, whatever its body did (R70, R214). -/
def completes (s : State) (body : Except Raise State) : Host.Outcome State Fault Refusal :=
  .next (s.finish body)

end Sys2Proof.Machine
end

