-- ==== Sys2Proof/Machine/BitPacker.lean ====
section
/-! DEFINITION. The bit buffer and its commands BP_CLEAR, BP_APPEND, BP_FINALIZE (R100 to R103). -/

namespace Sys2Proof.Machine

open Sys2Proof

/-- Bit `p` of the buffer: bit `7 - (p mod 8)` of `DATA[p div 8]` (R40, R100). -/
def bufferBit (data : Memory .data 8) (p : Nat) : Bool := (data.read (p / 8)).getLsbD (7 - p % 8)

/-- The write of `push(b)` at bit position `p` (R100). -/
def pushAt (data : Memory .data 8) (p : Nat) (b : Bool) : Memory .data 8 :=
  data.write (p / 8) (setBit (data.read (p / 8)) (7 - p % 8) b)

/-- `push` of each bit in turn, from bit position `p` on (R100). -/
def pushBits (data : Memory .data 8) (p : Nat) : List Bool → Memory .data 8
  | [] => data
  | b :: bs => pushBits (pushAt data p b) (p + 1) bs

/-- The buffer with `bs` pushed: DATA, and BITLEN longer by their number (R100). -/
def State.pushAll (s : State) (bs : List Bool) : State :=
  { s with
    data := pushBits s.data s.bitlen.toNat bs
    bitlen := BitVec.ofNat 16 (s.bitlen.toNat + bs.length) }

/-- A byte's bits, the most significant first (R66). -/
def byteBits (b : Byte) : List Bool := (List.range 8).map fun i => b.getLsbD (7 - i)

/-- The pad bytes, 0xEC and 0x11 in turn from 0xEC on (R103). -/
def padByte (k : Nat) : Byte := if k % 2 = 0 then 0xEC#8 else 0x11#8

/-- What BP_FINALIZE pushes on a buffer of `len` bits with capacity `cap` (R103): the terminator, the
pad to a byte boundary, and pad bytes while the buffer is below the capacity. -/
def finalizeBits (len cap : Nat) : List Bool :=
  let t := min 4 (cap - len)
  let a := (8 - (len + t) % 8) % 8
  let n := (cap - (len + t + a) + 7) / 8
  List.replicate t false ++ List.replicate a false ++
    (List.range n).flatMap fun k => byteBits (padByte k)

/-- BP_CLEAR's body (R101). -/
def bodyBpClear (s : State) : Except Raise State :=
  .ok { s with data := s.data.fill Config.dataBytes 0#8, bitlen := 0#16 }

/-- BP_APPEND's body (R102). -/
def bodyBpAppend (n : Nat) (s : State) : Except Raise State :=
  if !legalCount n then .error .illegalParam
  else if s.bitlen.toNat + n > Config.maxBits then
    .error (.segTooLong (s.bitlen.toNat + n) Config.maxBits)
  else .ok (s.pushAll (s.appendBits n))

/-- BP_FINALIZE's body (R103). -/
def bodyBpFinalize (s : State) : Except Raise State :=
  s.withGeometry fun g =>
    let cap := 8 * g.dcw
    if s.bitlen.toNat > cap then .error (.dataOverCapacity s.bitlen.toNat cap)
    else .ok (s.pushAll (finalizeBits s.bitlen.toNat cap))

/-- BP_CLEAR: empty the bit buffer (R101). -/
def execBpClear (s : State) : Host.Outcome State Fault Refusal :=
  completes s (bodyBpClear s)

/-- BP_APPEND n: append the low `n` bits of ARG0, most significant first (R102). -/
def execBpAppend (n : Nat) (s : State) : Host.Outcome State Fault Refusal :=
  completes s (bodyBpAppend n s)

/-- BP_FINALIZE: terminate and pad the buffer to the data capacity (R103). -/
def execBpFinalize (s : State) : Host.Outcome State Fault Refusal :=
  completes s (bodyBpFinalize s)

end Sys2Proof.Machine
end

