-- ==== Sys2Proof/Machine/GaloisField.lean ====
section
/-! DEFINITION. GF(2^8) modulo 0x11D with α = 2, and the Reed–Solomon procedures over it
(R120 to R122, R126, R128, R130). -/

namespace Sys2Proof.Machine

open Sys2Proof

/-- Addition, and subtraction: bitwise exclusive OR (R120). -/
def gfAdd (a b : Byte) : Byte := a ^^^ b

/-- `z` times `x`, reduced: `(z << 1) XOR (z[7] * 0x11D)`, whose bit 8 cancels (R121). -/
def gfTimesX (z : Byte) : Byte := (z <<< 1) ^^^ (if z.getLsbD 7 then 0x1D#8 else 0#8)

/-- `gf_mul(a, b)` over the bits `i - 1, …, 0` of `b`, from the accumulator `z` (R121). -/
def gfMulFrom (a b : Byte) : Nat → Byte → Byte
  | 0, z => z
  | i + 1, z => gfMulFrom a b i (gfTimesX z ^^^ (if b.getLsbD i then a else 0#8))

/-- `gf_mul(a, b)` (R121). -/
def gfMul (a b : Byte) : Byte := gfMulFrom a b 8 0#8

/-- `gf_pow(k)` = α^k (R122). -/
def gfPow : Nat → Byte
  | 0 => 1#8
  | k + 1 => gfMul (gfPow k) 2#8

/-- `g·x + r·g`: one more root `r` (R126). -/
def polyTimesRoot (g : List Byte) (r : Byte) : List Byte :=
  List.zipWith gfAdd (g ++ [0#8]) (0#8 :: g.map fun c => gfMul c r)

/-- `genpoly(deg)`: the coefficients of `∏ (x - α^i)`, `i < deg`, the leading one first (R126). -/
def genpoly : Nat → List Byte
  | 0 => [1#8]
  | deg + 1 => polyTimesRoot (genpoly deg) (gfPow deg)

/-- One step of the division shift register on the data byte `d`; `gs` is `g[1..deg]` (R128). -/
def remainderStep (gs : List Byte) (r : List Byte) (d : Byte) : List Byte :=
  let f := gfAdd d (r.headD 0#8)
  List.zipWith (fun rj gj => gfAdd rj (gfMul gj f)) (r.tail ++ [0#8]) gs

/-- `rs_remainder(d, deg)`: the ECC codewords of `d` (R128). -/
def rsRemainder (d : List Byte) (deg : Nat) : List Byte :=
  d.foldl (remainderStep (genpoly deg).tail) (List.replicate deg 0#8)

/-- Horner's rule at the point `a` (R130). -/
def horner (a : Byte) (c : List Byte) : Byte := c.foldl (fun acc ci => gfAdd (gfMul acc a) ci) 0#8

/-- `syndrome(c, j)` = C(α^j) (R130). -/
def syndrome (c : List Byte) (j : Nat) : Byte := horner (gfPow j) c

end Sys2Proof.Machine
end

