-- ==== Sys2Proof/Machine/Layout.lean ====
section
/-! DEFINITION. The commands INTERLEAVE, GRID_CLEAR, PLACE (R150 to R157). -/

namespace Sys2Proof.Machine

open Sys2Proof

/-- `dlen(b)`: the data codewords of block `b` (R150). -/
def blockLen (g : Geometry) (b : Nat) : Nat := if b < g.ns then g.sdl else g.sdl + 1

/-- `start(b)` (R150). -/
def blockStart (g : Geometry) (b : Nat) : Nat := b * g.sdl + (b - g.ns)

/-- The data codewords of block `b` (R150). -/
def dataBlock (g : Geometry) (data : Memory .data 8) (b : Nat) : List Byte :=
  data.readBlock (blockStart g b) (blockLen g b)

/-- Column-first over `bs`: the `c`-th byte of every block in order, skipping exhausted blocks, for
`c = 0, …, n - 1` (R151). -/
def columns (bs : List (List Byte)) (n : Nat) : List Byte :=
  (List.range n).flatMap fun c => bs.filterMap fun b => b[c]?

/-- `interleave()` (R151). -/
def interleaved (g : Geometry) (data : Memory .data 8) : List Byte :=
  let blocks := (List.range g.nb).map (dataBlock g data)
  columns blocks (g.sdl + 1) ++ columns (blocks.map fun d => rsRemainder d g.el) g.el

/-- INTERLEAVE's body: `CW[i] <- out[i]` for `i < TOT` (R152). -/
def bodyInterleave (s : State) : Except Raise State :=
  s.withGeometry fun g =>
    .ok { s with cw := s.cw.writeBlock 0 ((interleaved g s.data).take g.tot) }

/-- GRID_CLEAR's body (R154). -/
def bodyGridClear (s : State) : Except Raise State :=
  .ok { s with mod := s.mod.fill Config.grid 0#177, func := s.func.fill Config.grid 0#177 }

/-- The right column of each column pair, in the walk's order: from `right` leftward by twos, 6 becoming
5, while at least 1 (R157). The fuel is any bound on their number. -/
def pairColumns : Nat → Nat → List Nat
  | 0, _ => []
  | fuel + 1, right =>
    if right < 1 then []
    else
      let r := if right = 6 then 5 else right
      r :: pairColumns fuel (r - 2)

/-- A pair is walked upward when `((right + 1) AND 2) = 0` (R157). -/
def upward (right : Nat) : Bool := (right + 1) &&& 2 == 0

/-- The cells of one column pair, in the walk's order (R157). -/
def pairCells (n right : Nat) : List (Nat × Nat) :=
  (List.range n).flatMap fun vert =>
    let y := if upward right then n - 1 - vert else vert
    [(right, y), (right - 1, y)]

/-- `walk(S)`, cells as `(x, y)` (R157). -/
def walk (n : Nat) : List (Nat × Nat) := (pairColumns n (n - 1)).flatMap (pairCells n)

/-- Bit `i` of the codeword stream: bit `7 - (i mod 8)` of `CW[i div 8]` (R66). -/
def streamBit (cw : Memory .cw 8) (i : Nat) : Bool := (cw.read (i / 8)).getLsbD (7 - i % 8)

/-- The non-function cells of the symbol outside column 6 (R156). -/
def availCells (n : Nat) (func : Plane .func) : Nat :=
  ((List.range n).map fun y =>
    (List.range n).countP fun x => decide (x ≠ 6) && !func.cell x y).sum

/-- PLACE's loop: at each non-function cell the next stream bit, and 0 past the last of the `n` bits
(R156). -/
def placeFrom (cw : Memory .cw 8) (func : Plane .func) (n : Nat) :
    Nat → Plane .mod → List (Nat × Nat) → Plane .mod
  | _, p, [] => p
  | i, p, (x, y) :: rest =>
    if func.cell x y then placeFrom cw func n i p rest
    else if i < n then placeFrom cw func n (i + 1) (p.setCell x y (streamBit cw i)) rest
    else placeFrom cw func n i (p.setCell x y false) rest

/-- PLACE's body (R156). -/
def bodyPlace (s : State) : Except Raise State :=
  s.withGeometry fun g =>
    let n := 8 * g.tot
    let avail := availCells g.size s.func
    if avail < n then .error (.placeOverflow n avail)
    else .ok { s with mod := placeFrom s.cw s.func n 0 s.mod (walk g.size) }

/-- INTERLEAVE: the ECC of each block, and the interleaved codewords into CW (R152). -/
def execInterleave (s : State) : Host.Outcome State Fault Refusal :=
  completes s (bodyInterleave s)

/-- GRID_CLEAR: every cell of both planes 0 (R154). -/
def execGridClear (s : State) : Host.Outcome State Fault Refusal :=
  completes s (bodyGridClear s)

/-- PLACE: the codeword stream into the non-function cells (R156). -/
def execPlace (s : State) : Host.Outcome State Fault Refusal :=
  completes s (bodyPlace s)

end Sys2Proof.Machine
end

