-- ==== Sys2Proof/Machine/Penalty.lean ====
section
/-! DEFINITION. The penalty rules N1 to N4 on a square grid `g x y` (true is dark), and `score`
(R185 to R191). -/

namespace Sys2Proof.Machine

open Sys2Proof

/-- `runs(line)`: the (colour, length) pairs of the maximal runs, from the line's start (R185, R186). -/
def runs : List Bool → List (Bool × Nat)
  | [] => []
  | c :: rest =>
    match runs rest with
    | [] => [(c, 1)]
    | (d, len) :: more => if c = d then (d, len + 1) :: more else (c, 1) :: (d, len) :: more

/-- Row `y` of the symbol (R185). -/
def rowLine (n : Nat) (g : Nat → Nat → Bool) (y : Nat) : List Bool := (List.range n).map fun x => g x y

/-- Column `x` of the symbol (R185). -/
def colLine (n : Nat) (g : Nat → Nat → Bool) (x : Nat) : List Bool := (List.range n).map fun y => g x y

/-- `lines()`: the `n` rows, then the `n` columns (R185). -/
def gridLines (n : Nat) (g : Nat → Nat → Bool) : List (List Bool) :=
  (List.range n).map (rowLine n g) ++ (List.range n).map (colLine n g)

/-- What N1 adds for a run (R187). -/
def runPenalty (len : Nat) : Nat := if len ≥ 5 then 3 + (len - 5) else 0

/-- N1 on one line (R187). -/
def n1Line (line : List Bool) : Nat := ((runs line).map fun r => runPenalty r.2).sum

/-- N1 (R187). -/
def penaltyN1 (n : Nat) (g : Nat → Nat → Bool) : Nat := ((gridLines n g).map n1Line).sum

/-- The 2 × 2 window at `(x, y)` has one colour (R188). -/
def uniformBlock (g : Nat → Nat → Bool) (x y : Nat) : Bool :=
  g x y == g (x + 1) y && g x y == g x (y + 1) && g x y == g (x + 1) (y + 1)

/-- N2 (R188). -/
def penaltyN2 (n : Nat) (g : Nat → Nat → Bool) : Nat :=
  3 * ((List.range (n - 1)).map fun y => (List.range (n - 1)).countP fun x => uniformBlock g x y).sum

/-- A run length for N3: a cell count, or the unbounded light run outside the symbol (R189). -/
inductive RunLength where
  | cells (n : Nat)
  | unbounded
deriving DecidableEq, Repr

/-- `len >= n` (R189). -/
def RunLength.atLeast : RunLength → Nat → Bool
  | .cells m, n => decide (n ≤ m)
  | .unbounded, _ => true

/-- One light run of unbounded length before the first run, merged with it when it is light (R189). -/
def lightBefore : List (Bool × RunLength) → List (Bool × RunLength)
  | (false, _) :: rest => (false, .unbounded) :: rest
  | rs => (false, .unbounded) :: rs

/-- The runs N3 looks at (R189). -/
def n3Runs (borderLight : Bool) (line : List Bool) : List (Bool × RunLength) :=
  let r := (runs line).map fun (c, len) => (c, RunLength.cells len)
  if borderLight then (lightBefore (lightBefore r).reverse).reverse else r

/-- What N3 counts at a run whose left neighbour is `prev`: a dark core `w, w, 3w, w, w` counts once for
each side that has a light run of at least `4w` with at least `w` on the other side (R189). -/
def n3At (scaled : Bool) (prev : Option RunLength) : List (Bool × RunLength) → Nat
  | (true, .cells w) :: (false, b) :: (true, c) :: (false, d) :: (true, e) :: rest =>
    if !scaled && w != 1 then 0
    else if b = .cells w ∧ c = .cells (3 * w) ∧ d = .cells w ∧ e = .cells w then
      let left := prev.getD (.cells 0)
      let right := (rest.head?.map Prod.snd).getD (.cells 0)
      (left.atLeast (4 * w) && right.atLeast w).toNat +
        (right.atLeast (4 * w) && left.atLeast w).toNat
    else 0
  | _ => 0

/-- The sum of `n3At` over every run in turn (R189). -/
def n3From (scaled : Bool) (prev : Option RunLength) : List (Bool × RunLength) → Nat
  | [] => 0
  | r :: rest => n3At scaled prev (r :: rest) + n3From scaled (some r.2) rest

/-- `n3_count(line)` (R189). -/
def n3Count (p : Params) (line : List Bool) : Nat :=
  n3From p.n3Scaled none (n3Runs p.n3BorderLight line)

/-- N3 (R189). -/
def penaltyN3 (p : Params) (n : Nat) (g : Nat → Nat → Bool) : Nat :=
  40 * ((gridLines n g).map (n3Count p)).sum

/-- The dark cells of the symbol (R190). -/
def darkCells (n : Nat) (g : Nat → Nat → Bool) : Nat :=
  ((List.range n).map fun y => (List.range n).countP fun x => g x y).sum

/-- N4 from the dark and the total cell count (R190, 90 C1). -/
def penaltyN4 (r : N4Rounding) (dark total : Nat) : Nat :=
  let q := (20 * (dark : Int) - 10 * (total : Int)).natAbs
  match r with
  | .floor => 10 * (q / total)
  | .ceilMinusOne => 10 * ((q + total - 1) / total - 1)

/-- The tuple of R191. -/
structure Penalty where
  n1 : Nat
  n2 : Nat
  n3 : Nat
  n4 : Nat
  dark : Nat
deriving DecidableEq, Repr

/-- The total penalty (R191). -/
def Penalty.total (t : Penalty) : Nat := t.n1 + t.n2 + t.n3 + t.n4

/-- `score(grid)` on the symbol of side `n` (R191). -/
def penalty (p : Params) (n : Nat) (g : Nat → Nat → Bool) : Penalty :=
  let dark := darkCells n g
  { n1 := penaltyN1 n g
    n2 := penaltyN2 n g
    n3 := penaltyN3 p n g
    n4 := penaltyN4 p.n4Rounding dark (n * n)
    dark := dark }

end Sys2Proof.Machine
end

