-- ==== Sys2Proof/Machine/MaskPenalty.lean ====
section
/-! DEFINITION. The commands MASK_APPLY, FORMAT_WRITE, SCORE, MASK_SELECT (R170 to R195). -/

namespace Sys2Proof.Machine

open Sys2Proof

/-- `pred(m, x, y)` (R171, R175). -/
def maskPred (m x y : Nat) : Bool :=
  match m with
  | 0 => (x + y) % 2 == 0
  | 1 => y % 2 == 0
  | 2 => x % 3 == 0
  | 3 => (x + y) % 3 == 0
  | 4 => (y / 2 + x / 3) % 2 == 0
  | 5 => x * y % 2 + x * y % 3 == 0
  | 6 => (x * y % 2 + x * y % 3) % 2 == 0
  | _ => ((x + y) % 2 + x * y % 3) % 2 == 0

/-- `mask_apply(m)`: XOR the mask into the non-function cells of the symbol of side `n` (R177). -/
def maskPlane (n m : Nat) (func : Plane .func) (p : Plane .mod) : Plane .mod :=
  p.mapSquare n fun x y => p.cell x y ^^ (!func.cell x y && maskPred m x y)

/-- ECLBITS(e) (R178). -/
def eclBits (e : Nat) : Nat :=
  match e with
  | 0 => 0b01
  | 1 => 0b00
  | 2 => 0b11
  | _ => 0b10

/-- The format data `fdata` (R178). -/
def formatData (e m : Nat) : Nat := (eclBits e <<< 3) ||| m

/-- `k` steps of the BCH division by 0x537 (R179). -/
def bchSteps : Nat → Nat → Nat
  | 0, r => r
  | k + 1, r => bchSteps k ((r <<< 1) ^^^ ((r >>> 9) % 2 * 0x537))

/-- `fmt_bits(e, m)` (R179). -/
def formatBits (e m : Nat) : Nat :=
  let d := formatData e m
  ((d <<< 10) ||| bchSteps 10 d) ^^^ 0x5412

/-- Where bit `i` of the format word stands in the first copy (R180). -/
def formatCell1 (i : Nat) : Nat × Nat :=
  if i ≤ 5 then (8, i)
  else if i = 6 then (8, 7)
  else if i = 7 then (8, 8)
  else if i = 8 then (7, 8)
  else (14 - i, 8)

/-- Where bit `i` of the format word stands in the second copy (R180). -/
def formatCell2 (n i : Nat) : Nat × Nat :=
  if i ≤ 7 then (n - 1 - i, 8) else (8, n - 15 + i)

/-- The cells FORMAT_WRITE writes, in order, with their values: both copies, then the dark module
(R180 to R182). -/
def formatWrites (n e m : Nat) : List ((Nat × Nat) × Bool) :=
  let b := formatBits e m
  (List.range 15).map (fun i => (formatCell1 i, b.testBit i)) ++
  (List.range 15).map (fun i => (formatCell2 n i, b.testBit i)) ++
  [((8, n - 8), true)]

/-- `format_write(e, m)` (R182). -/
def formatPlane (n e m : Nat) (p : Plane .mod) : Plane .mod :=
  (formatWrites n e m).foldl (fun q c => q.setCell c.1.1 c.1.2 c.2) p

/-- SCORE_N1 to SCORE_DARK from a penalty (R192). -/
def Penalty.regs (t : Penalty) : ScoreRegs :=
  { total := word t.total, n1 := word t.n1, n2 := word t.n2, n3 := word t.n3, n4 := word t.n4,
    dark := word t.dark }

/-- `score(MOD)` of the symbol of side `n` (R191). -/
def planePenalty (params : Params) (n : Nat) (p : Plane .mod) : Penalty := penalty params n p.cell

/-- MASK_APPLY's body (R177). -/
def bodyMaskApply (m : Nat) (s : State) : Except Raise State :=
  s.withGeometry fun g => .ok { s with mod := maskPlane g.size (maskOperand m) s.func s.mod }

/-- FORMAT_WRITE's body (R182). -/
def bodyFormatWrite (m : Nat) (s : State) : Except Raise State :=
  s.withGeometry fun g => .ok { s with mod := formatPlane g.size s.ecl (maskOperand m) s.mod }

/-- SCORE's body (R192). -/
def bodyScore (s : State) : Except Raise State :=
  s.withGeometry fun g => .ok { s with score := (planePenalty s.params g.size s.mod).regs }

/-- The candidate masks, in increasing order (R195). -/
def State.candidates (s : State) : List Nat :=
  if s.config.force then [s.fmask] else List.range 8

/-- The candidate grid of mask `m` (R195). -/
def candidatePlane (n e m : Nat) (func : Plane .func) (p : Plane .mod) : Plane .mod :=
  formatPlane n e m (maskPlane n m func p)

/-- MASK_SELECT's loop: each candidate is drawn, scored, and its mask undone; answers the plane as the
loop leaves it and each candidate's total (R195). -/
def evalCandidates (params : Params) (n e : Nat) (func : Plane .func) :
    Plane .mod → List Nat → Plane .mod × List (Nat × Nat)
  | p, [] => (p, [])
  | p, m :: ms =>
    let q := candidatePlane n e m func p
    let r := evalCandidates params n e func (maskPlane n m func q) ms
    (r.1, (m, (planePenalty params n q).total) :: r.2)

/-- The candidate with the least total; among equals the earliest, which is the least mask (R195). -/
def bestOf : List (Nat × Nat) → Nat × Nat
  | [] => (0, 0)
  | [c] => c
  | c :: d :: rest =>
    let b := bestOf (d :: rest)
    if c.2 ≤ b.2 then c else b

/-- PENm: the total of mask `m` if it is a candidate, else 0 (R195). -/
def penOf (pens : List (Nat × Nat)) (m : Nat) : Word :=
  match pens.find? fun c => c.1 == m with
  | some c => word c.2
  | none => 0#32

/-- MASK_SELECT's body (R195). -/
def bodyMaskSelect (s : State) : Except Raise State :=
  s.withGeometry fun g =>
    let r := evalCandidates s.params g.size s.ecl s.func s.mod s.candidates
    let best := (bestOf r.2).1
    let final := candidatePlane g.size s.ecl best s.func r.1
    .ok { s with
      mod := final
      score := (planePenalty s.params g.size final).regs
      pen := Vector.ofFn fun m => penOf r.2 m.val
      best := Best.of best s.candidates }

/-- MASK_APPLY m: XOR the mask into the non-function cells (R177). -/
def execMaskApply (m : Nat) (s : State) : Host.Outcome State Fault Refusal :=
  completes s (bodyMaskApply m s)

/-- FORMAT_WRITE m: draw the format information for (CONFIG.ECL, m) (R182). -/
def execFormatWrite (m : Nat) (s : State) : Host.Outcome State Fault Refusal :=
  completes s (bodyFormatWrite m s)

/-- SCORE: the penalty of the current grid (R192). -/
def execScore (s : State) : Host.Outcome State Fault Refusal :=
  completes s (bodyScore s)

/-- MASK_SELECT: evaluate the candidates, keep the best, draw its format information (R195). -/
def execMaskSelect (s : State) : Host.Outcome State Fault Refusal :=
  completes s (bodyMaskSelect s)

end Sys2Proof.Machine
end

