-- ==== Sys2Proof/Machine/Misc.lean ====
section
/-! DEFINITION. NOP (R200). -/

namespace Sys2Proof.Machine

/-- NOP: only the completion updates happen (R200). -/
def execNop (s : State) : Host.Outcome State Fault Refusal :=
  completes s (.ok s)

end Sys2Proof.Machine
end

