-- ==== Sys2Proof/Machine/ReedSolomon.lean ====
section
/-! DEFINITION. The commands GF_MUL, GF_EXP, RS_GENPOLY, RS_ENCODE, RS_SYNDROME (R124 to R131). -/

namespace Sys2Proof.Machine

open Sys2Proof

/-- A 32-byte file holding `bs`, 0 past its end (R42, R43). -/
def byteFile (bs : List Byte) : Vector Byte 32 := Vector.ofFn fun k => bs.getD k.val 0#8

/-- The byte range `DATA[off .. off+len-1]` (R129, R131). -/
def State.dataRange (s : State) : List Byte := s.data.readBlock s.off s.len

/-- GF_MUL's body (R124). -/
def bodyGfMul (s : State) : Except Raise State :=
  .ok { s with result := (gfMul s.arg0Byte s.arg1Byte).setWidth 32 }

/-- GF_EXP's body (R125). -/
def bodyGfExp (s : State) : Except Raise State :=
  .ok { s with result := (gfPow s.arg0Byte.toNat).setWidth 32 }

/-- RS_GENPOLY's body (R127). -/
def bodyRsGenpoly (deg : Nat) (s : State) : Except Raise State :=
  if !legalDegree deg then .error .illegalParam
  else .ok { s with gen := byteFile (genpoly deg) }

/-- RS_ENCODE's body (R129). The sum `off + len` is exact. -/
def bodyRsEncode (deg : Nat) (s : State) : Except Raise State :=
  if !legalDegree deg then .error .illegalParam
  else if s.off + s.len > Config.dataBytes then .error .illegalParam
  else .ok { s with rsout := byteFile (rsRemainder s.dataRange deg) }

/-- The first `nsyn` syndromes of a word (R131). -/
def syndromes (c : List Byte) (nsyn : Nat) : List Byte := (List.range nsyn).map (syndrome c)

/-- RS_SYNDROME's body (R131). -/
def bodyRsSyndrome (nsyn : Nat) (s : State) : Except Raise State :=
  if !legalDegree nsyn then .error .illegalParam
  else if s.off + s.len > Config.dataBytes then .error .illegalParam
  else
    let syn := syndromes s.dataRange nsyn
    .ok { s with
      rsout := byteFile syn
      result := if syn.all fun b => b == 0#8 then 1#32 else 0#32 }

/-- GF_MUL: field product (R124). -/
def execGfMul (s : State) : Host.Outcome State Fault Refusal :=
  completes s (bodyGfMul s)

/-- GF_EXP: power of α (R125). -/
def execGfExp (s : State) : Host.Outcome State Fault Refusal :=
  completes s (bodyGfExp s)

/-- RS_GENPOLY deg: the generator polynomial into GEN (R127). -/
def execRsGenpoly (deg : Nat) (s : State) : Host.Outcome State Fault Refusal :=
  completes s (bodyRsGenpoly deg s)

/-- RS_ENCODE deg: the ECC codewords of a byte range of DATA into RSOUT (R129). -/
def execRsEncode (deg : Nat) (s : State) : Host.Outcome State Fault Refusal :=
  completes s (bodyRsEncode deg s)

/-- RS_SYNDROME nsyn: the syndromes of a byte range of DATA into RSOUT (R131). -/
def execRsSyndrome (nsyn : Nat) (s : State) : Host.Outcome State Fault Refusal :=
  completes s (bodyRsSyndrome nsyn s)

end Sys2Proof.Machine
end

