-- ==== Sys2Proof/Machine/Dispatch.lean ====
section
/-! DEFINITION. One arm per command. -/

namespace Sys2Proof.Machine

/-- The meaning of each command: the step in which it completes (R214). -/
def exec (i : Instr) (s : State) : Host.Outcome State Fault Refusal :=
  match i with
  | .nop => Sys2Proof.Machine.execNop s
  | .bpClear => Sys2Proof.Machine.execBpClear s
  | .bpAppend n => Sys2Proof.Machine.execBpAppend n s
  | .bpFinalize => Sys2Proof.Machine.execBpFinalize s
  | .gfMul => Sys2Proof.Machine.execGfMul s
  | .gfExp => Sys2Proof.Machine.execGfExp s
  | .rsGenpoly deg => Sys2Proof.Machine.execRsGenpoly deg s
  | .rsEncode deg => Sys2Proof.Machine.execRsEncode deg s
  | .rsSyndrome nsyn => Sys2Proof.Machine.execRsSyndrome nsyn s
  | .interleave => Sys2Proof.Machine.execInterleave s
  | .gridClear => Sys2Proof.Machine.execGridClear s
  | .place => Sys2Proof.Machine.execPlace s
  | .maskApply m => Sys2Proof.Machine.execMaskApply m s
  | .formatWrite m => Sys2Proof.Machine.execFormatWrite m s
  | .score => Sys2Proof.Machine.execScore s
  | .maskSelect => Sys2Proof.Machine.execMaskSelect s

end Sys2Proof.Machine
end

