-- ==== Sys2Proof/Machine/Bus.lean ====
section
/-! DEFINITION. The host bus: the address map, and what a read and a write of each target do
(R20, R37, R60 to R70, R250). -/

namespace Sys2Proof.Machine

open Sys2Proof

/-- What an address of the map selects (R20, R61, R64, R65). Byte windows select a word by its index
`k`, plane windows by row `y` and word `w`. -/
inductive Target where
  | id | ctrl | status | config | cmd | arg0 | arg1 | result | bitlen | geom0 | geom1 | geom2
  | errinfo0 | errinfo1 | best | scoreTotal | scoreN1 | scoreN2 | scoreN3 | scoreN4 | scoreDark
  | pen (m : Fin 8)
  | gen (k : Fin 8)
  | rsout (k : Fin 8)
  | data (k : Nat)
  | cw (k : Nat)
  | mod (y w : Nat)
  | func (y w : Nat)
deriving DecidableEq, Repr

/-- The registers below 0x054, by word offset (R20). -/
def registerAt (k : Nat) : Option Target :=
  match k with
  | 0 => some .id
  | 1 => some .ctrl
  | 2 => some .status
  | 3 => some .config
  | 4 => some .cmd
  | 5 => some .arg0
  | 6 => some .arg1
  | 7 => some .result
  | 8 => some .bitlen
  | 9 => some .geom0
  | 10 => some .geom1
  | 11 => some .geom2
  | 12 => some .errinfo0
  | 13 => some .errinfo1
  | 14 => some .best
  | 15 => some .scoreTotal
  | 16 => some .scoreN1
  | 17 => some .scoreN2
  | 18 => some .scoreN3
  | 19 => some .scoreN4
  | 20 => some .scoreDark
  | _ => none

/-- The address map (R61): what an address selects, none where a transfer gets the ERROR response
because it is misaligned or unmapped (R63). -/
def target (addr : Addr) : Option Target :=
  let a := addr.toNat
  let k := a / 4
  if a % 4 ≠ 0 then none
  else if a < 0x60 then registerAt k
  else if a < 0x80 then some (.pen (Fin.ofNat 8 (k - 24)))
  else if a < 0x100 then none
  else if a < 0x120 then some (.gen (Fin.ofNat 8 (k - 64)))
  else if a < 0x140 then some (.rsout (Fin.ofNat 8 (k - 72)))
  else if a < 0x1000 then none
  else if a < 0x2000 then some (.data (k - 1024))
  else if a < 0x3000 then some (.cw (k - 2048))
  else if a < 0x4000 then none
  else if a < 0x6000 then some (.mod ((a - 0x4000) / 32) (k % 8))
  else some (.func ((a - 0x6000) / 32) (k % 8))

/-- Four bytes as a bus word, the first in bits [7:0] (R65). -/
def wordOfBytes (b0 b1 b2 b3 : Byte) : Word := b3 ++ b2 ++ b1 ++ b0

/-- The four bytes of a bus word, bits [7:0] first (R65). -/
def bytesOfWord (v : Word) : List Byte :=
  [v.extractLsb' 0 8, v.extractLsb' 8 8, v.extractLsb' 16 8, v.extractLsb' 24 8]

/-- Word `k` of a byte window over a memory (R65). -/
def Memory.windowWord {id : MemId} (m : Memory id 8) (k : Nat) : Word :=
  wordOfBytes (m.read (4 * k)) (m.read (4 * k + 1)) (m.read (4 * k + 2)) (m.read (4 * k + 3))

/-- Word `k` of the window over a 32-byte file (R65). -/
def fileWord (f : Vector Byte 32) (k : Fin 8) : Word :=
  wordOfBytes (f[4 * k.val]'(by omega)) (f[4 * k.val + 1]'(by omega)) (f[4 * k.val + 2]'(by omega))
    (f[4 * k.val + 3]'(by omega))

/-- Word `w` of row `y` of a plane window: 0 outside the 177 × 177 storage (R64). -/
def Memory.rowWord {id : MemId} (p : Plane id) (y w : Nat) : Word :=
  if y < Config.grid then ((p.read y) >>> (32 * w)).setWidth 32 else 0#32

/-- A write of that word: bits outside the storage are discarded (R64). -/
def Memory.writeRowWord {id : MemId} (p : Plane id) (y w : Nat) (v : Word) : Plane id :=
  if y < Config.grid then
    let keep : Row := ~~~(((~~~(0#32)).setWidth 177) <<< (32 * w))
    p.write y ((p.read y &&& keep) ||| ((v.setWidth 177) <<< (32 * w)))
  else p

/-- GEOM0: SIZE, NUM_BLOCKS, ECC_LEN, NUM_SHORT, and 0 for an illegal version (R31). -/
def State.geom0 (s : State) : Word :=
  if legalVersion s.version then
    BitVec.ofNat 8 s.geom.ns ++ BitVec.ofNat 8 s.geom.el ++ BitVec.ofNat 8 s.geom.nb ++
      BitVec.ofNat 8 s.geom.size
  else 0#32

/-- GEOM1: TOTAL_CW, DATA_CW (R31). -/
def State.geom1 (s : State) : Word :=
  if legalVersion s.version then
    BitVec.ofNat 4 0 ++ BitVec.ofNat 12 s.geom.dcw ++ BitVec.ofNat 4 0 ++ BitVec.ofNat 12 s.geom.tot
  else 0#32

/-- GEOM2: SHORT_DATA_LEN (R31). -/
def State.geom2 (s : State) : Word :=
  if legalVersion s.version then BitVec.ofNat 24 0 ++ BitVec.ofNat 8 s.geom.sdl else 0#32

/-- The value of a target as the state defines it. -/
def State.view (s : State) : Target → Word
  | .id => Config.pId
  | .ctrl => s.ctrlWord
  | .status => s.statusWord
  | .config => s.config.toWord
  | .cmd => s.cmd
  | .arg0 => s.arg0
  | .arg1 => s.arg1
  | .result => s.result
  | .bitlen => s.bitlen.setWidth 32
  | .geom0 => s.geom0
  | .geom1 => s.geom1
  | .geom2 => s.geom2
  | .errinfo0 => s.errinfo0
  | .errinfo1 => s.errinfo1
  | .best => s.best.toWord
  | .scoreTotal => s.score.total
  | .scoreN1 => s.score.n1
  | .scoreN2 => s.score.n2
  | .scoreN3 => s.score.n3
  | .scoreN4 => s.score.n4
  | .scoreDark => s.score.dark
  | .pen m => s.pen[m]
  | .gen k => fileWord s.gen k
  | .rsout k => fileWord s.rsout k
  | .data k => s.data.windowWord k
  | .cw k => s.cw.windowWord k
  | .mod y w => s.mod.rowWord y w
  | .func y w => s.func.rowWord y w

/-- The targets whose reads are defined while BUSY = 1: "no command writes them" (R70). -/
def Target.stable : Target → Bool
  | .id => true
  | .ctrl => true
  | .status => true
  | .config => true
  | .cmd => true
  | .arg0 => true
  | .arg1 => true
  | .geom0 => true
  | .geom1 => true
  | .geom2 => true
  | _ => false

/-- A read of a mapped target: its value, and while BUSY = 1 a free draw for a target that is not
stable (R62, R70). No read changes the block; only the model's own draw counter moves. -/
def State.readTarget (s : State) (t : Target) : Word × State :=
  if s.busy && !t.stable then (Config.busyRead s.draws, { s with draws := s.draws + 1 })
  else (s.view t, s)

/-- A host write that BUSY = 1 turns away: it stores nothing and sets WBUSY (R250). -/
def State.unlessBusy (s : State) (written : State) : State :=
  if s.busy then { s with status := { s.status with wbusy := true } } else written

/-- A write of a mapped target (R22 to R27, R37, R64, R65, R250). -/
def State.writeTarget (s : State) (t : Target) (v : Word) : State :=
  match t with
  | .ctrl => if v.getLsbD 1 then s.softReset else { s with irqEn := v.getLsbD 0 }
  | .status => { s with status := s.status.writeOneToClear v }
  | .config => s.unlessBusy { s with config := ConfigReg.ofWord v }
  | .cmd => s.unlessBusy (s.accept v)
  | .arg0 => s.unlessBusy { s with arg0 := v }
  | .arg1 => s.unlessBusy { s with arg1 := v }
  | .data k => s.unlessBusy { s with data := s.data.writeBlock (4 * k) (bytesOfWord v) }
  | .cw k => s.unlessBusy { s with cw := s.cw.writeBlock (4 * k) (bytesOfWord v) }
  | .mod y w => s.unlessBusy { s with mod := s.mod.writeRowWord y w v }
  | .func y w => s.unlessBusy { s with func := s.func.writeRowWord y w v }
  | _ => s

/-- `MemRead(addr, 4)`: none is the ERROR response (R62, R63). -/
def State.busRead (s : State) (addr : Addr) : Option (Word × State) :=
  (target addr).map s.readTarget

/-- `MemWrite(addr, 4, v)`: none is the ERROR response, which partial strobes get too (R62, R63). -/
def State.busWrite (s : State) (addr : Addr) (v : Word) (strobes : BitVec 4) : Option State :=
  if strobes = 0xF#4 then (target addr).map fun t => s.writeTarget t v else none

end Sys2Proof.Machine
end

