-- ==== Sys2Proof/Machine/HostProgram.lean ====
section
/-! DEFINITION. The host: one transfer of its program, and the assembler's pseudo-instructions
(R6, R7, R87, R88). -/

namespace Sys2Proof.Machine

open Sys2Proof

/-- The value a `WR` writes, a fault of the host's program if its name is not bound yet (R87). -/
def State.hostValue (s : State) : HostValue → Except Fault Word
  | .lit v => .ok v
  | .bound k =>
    match s.readData[k]? with
    | some v => .ok v
    | none => .error (.unboundName k)

/-- One transfer of the host's program, on a state that still lists the line it runs. A `WAIT` whose
read of STATUS shows BUSY = 1 stays to be run again (R87). An ERROR response is a fault of the host's
program (R63). -/
def hostStep (op : HostOp) (rest : List HostOp) (s : State) : Host.Outcome State Fault Refusal :=
  match op with
  | .write addr val strobes =>
    match s.hostValue val with
    | .error e => .fault e
    | .ok v =>
      match s.busWrite addr v strobes with
      | none => .fault (.busError addr)
      | some t => .next { t with host := rest }
  | .read addr =>
    match s.busRead addr with
    | none => .fault (.busError addr)
    | some (v, t) => .next { t with host := rest, readData := t.readData ++ [v] }
  | .wait => if s.busy then .next s else .next { s with host := rest }
  | .check => if s.status.err then .fault .checkFailed else .next { s with host := rest }

/-- The base offset of a register or window, for `WR <target>` and `RD <target>` (R20, R61, R87). -/
def Target.addr : Target → Addr
  | .id => 0x000#15
  | .ctrl => 0x004#15
  | .status => 0x008#15
  | .config => 0x00C#15
  | .cmd => 0x010#15
  | .arg0 => 0x014#15
  | .arg1 => 0x018#15
  | .result => 0x01C#15
  | .bitlen => 0x020#15
  | .geom0 => 0x024#15
  | .geom1 => 0x028#15
  | .geom2 => 0x02C#15
  | .errinfo0 => 0x030#15
  | .errinfo1 => 0x034#15
  | .best => 0x038#15
  | .scoreTotal => 0x03C#15
  | .scoreN1 => 0x040#15
  | .scoreN2 => 0x044#15
  | .scoreN3 => 0x048#15
  | .scoreN4 => 0x04C#15
  | .scoreDark => 0x050#15
  | .pen m => BitVec.ofNat 15 (0x060 + 4 * m.val)
  | .gen k => BitVec.ofNat 15 (0x100 + 4 * k.val)
  | .rsout k => BitVec.ofNat 15 (0x120 + 4 * k.val)
  | .data k => BitVec.ofNat 15 (0x1000 + 4 * k)
  | .cw k => BitVec.ofNat 15 (0x2000 + 4 * k)
  | .mod y w => BitVec.ofNat 15 (0x4000 + 32 * y + 4 * w)
  | .func y w => BitVec.ofNat 15 (0x6000 + 32 * y + 4 * w)

/-- `WR <target>, <value>` (R87). -/
def wr (t : Target) (v : HostValue) : HostOp := .write t.addr v 0xF#4

/-- `RD <target> -> <name>` (R87). -/
def rd (t : Target) : HostOp := .read t.addr

/-- `CMD <MNEMONIC> [<f1>]` (R87). -/
def cmdOp (i : Instr) : HostOp := wr .cmd (.lit (encode i))

/-- `RUN <MNEMONIC> [<f1>]` (R88). -/
def runOps (i : Instr) : List HostOp := [cmdOp i, .wait]

/-- `APPEND <value>, <n>` (R88). -/
def appendOps (value : HostValue) (n : Nat) : List HostOp := wr .arg0 value :: runOps (.bpAppend n)

/-- `SETCFG <v>, <e>, <fm>, <force>` (R88). -/
def setcfgOps (v e fm force : Nat) : List HostOp :=
  [wr .config (.lit (word ((force <<< 19) ||| (fm <<< 16) ||| (e <<< 8) ||| v)))]

/-- `ENCODE <off>, <len>, <deg>` (R88). -/
def encodeOps (off len : HostValue) (deg : Nat) : List HostOp :=
  wr .arg0 off :: wr .arg1 len :: runOps (.rsEncode deg)

/-- `SYNDROME <off>, <len>, <nsyn>` (R88). -/
def syndromeOps (off len : HostValue) (nsyn : Nat) : List HostOp :=
  wr .arg0 off :: wr .arg1 len :: runOps (.rsSyndrome nsyn)

/-- `GFMUL <a>, <b>` (R88). -/
def gfmulOps (a b : HostValue) : List HostOp := wr .arg0 a :: wr .arg1 b :: runOps .gfMul

end Sys2Proof.Machine
end

