-- ==== Sys2Proof/Machine/Engine.lean ====
section
/-! DEFINITION. Completion of the command in flight, and the interleaving of completion with the host's
transfers (R214, R221, R260). -/

namespace Sys2Proof.Machine

open Sys2Proof

/-- `complete(c)` (R214): decode, then the command's meaning, or ILLEGAL_OPCODE with the rejected word
(R211). -/
def completeCommand (c : Word) (s : State) : Host.Outcome State Fault Refusal :=
  match decode c with
  | .ok i => exec i s
  | .error _ => completes s (.error (.illegalOpcode c))

/-- The host's next transfer, counted against the latency of a command in flight (R260). -/
def hostTurn (eng : Engine) (s : State) : Host.Outcome State Fault Refusal :=
  match s.host with
  | [] => .next s
  | op :: rest => hostStep op rest { s with eng := eng }

/-- One event. An idle block waits for the host's next transfer (R265) and stays as it is when the host
has nothing to do. A command in flight completes once the host transfers of its latency have taken
effect (R260), or when the host has no transfer left to make (assumption 4); until then the host's
transfers take effect one by one. -/
def advance (s : State) : Host.Outcome State Fault Refusal :=
  match s.eng with
  | .idle => hostTurn .idle s
  | .run c 0 => completeCommand c s
  | .run c (left + 1) => if s.host.isEmpty then completeCommand c s else hostTurn (.run c left) s

/-- A state in which command word `c` has been accepted and its latency has passed, so that the next
event is its completion: acceptance (R25) with no host transfer left to wait for. -/
def State.inFlight (s : State) (c : Word) : State :=
  { s with cmd := c, status := { s.status with done := false }, eng := .run c 0 }

end Sys2Proof.Machine
end

