-- ==== Sys2Proof/Machine/Step.lean ====
section
/-! DEFINITION. The step, and the placing of a command word for the next one. -/

namespace Sys2Proof.Machine

open Sys2Proof

/-- One event of the block and its host. -/
def step : State → Host.Outcome State Fault Refusal := advance

/-- The command word `w` placed so that the very next step runs it. Commands are not fetched from
memory: the engine runs the word latched at its acceptance (R25, R74; assumption 5). -/
def State.withFetchWord (s : State) (nbits w : Nat) : State :=
  s.inFlight (BitVec.ofNat 32 (w % 2 ^ nbits))

end Sys2Proof.Machine
end

