-- ==== Sys2Proof/Safety.lean ====
section
/-! DEFINITION. What counts as a safe run, the invariant every step keeps, and the words the claims are
written in. -/

namespace Sys2Proof

open Sys2Proof.Machine

/-- A run of `n` steps is safe when the host's program is at fault in none of them (R63, R88). -/
def SafeRun (n : Nat) (s : State) : Prop := ∃ t, Host.Core.run core n s = .next t

/-- The four memories are in canonical form (assumption 1). -/
def MemoriesWf (s : State) : Prop :=
  s.data.wf Config.dataBytes = true ∧ s.cw.wf Config.cwBytes = true ∧
  s.mod.wf Config.grid = true ∧ s.func.wf Config.grid = true

/-- A command in flight is the word CMD reads, and its latency is within the bound (R25, R39, R260). -/
def EngineOk (s : State) : Prop :=
  match s.eng with
  | .idle => True
  | .run c left => s.cmd = c ∧ left ≤ Config.pLatency

/-- The invariant of the machine: a well-formed block table (R30), canonical memories, a command in
flight that CMD shows, `BITLEN ≤ 32768` (R29), and no ERRCODE above 5 (R210). -/
structure Inv (s : State) : Prop where
  params : s.params.wf = true
  memories : MemoriesWf s
  engine : EngineOk s
  bitlen : s.bitlen.toNat ≤ Config.maxBits
  errcode : s.status.errcode.toNat ≤ 5

/-- Every penalty register is below 2^20 (R34, R199). -/
def ScoresBounded (s : State) : Prop :=
  s.score.total.toNat < 2 ^ 20 ∧ s.score.n1.toNat < 2 ^ 20 ∧ s.score.n2.toNat < 2 ^ 20 ∧
  s.score.n3.toNat < 2 ^ 20 ∧ s.score.n4.toNat < 2 ^ 20 ∧ s.score.dark.toNat < 2 ^ 20 ∧
  ∀ m : Fin 8, s.pen[m].toNat < 2 ^ 20

/-! ### Words of the claims -/

/-- `s` when a command has completed and changed nothing else: DONE = 1, `eng` idle (R214). -/
def completed (s : State) : State :=
  { s with status := { s.status with done := true }, eng := .idle }

/-- `s` when a command has failed with an error code and its two information values: only STATUS,
ERRINFO0 and ERRINFO1 differ (R213, R214). -/
def failed (s : State) (code : Byte) (info0 info1 : Word) : State :=
  { s with
    status := { s.status with done := true, err := true, errcode := code }
    errinfo0 := info0
    errinfo1 := info1
    eng := .idle }

/-- The version in CONFIG is legal (R47). -/
def VersionLegal (s : State) : Prop := 1 ≤ s.version ∧ s.version ≤ 40

/-- `SIZE` of the version in CONFIG (R30). -/
def side (s : State) : Nat := 17 + 4 * s.version

/-- The value at α^i of the polynomial whose coefficients are `c`, the first of the highest degree:
the sum of `c[k]·(α^i)^(n - 1 - k)` (R128, R130). -/
def polyValue (c : List Byte) (i : Nat) : Byte :=
  ((List.range c.length).map fun k =>
    gfMul (c.getD k 0#8) (gfPow (i * (c.length - 1 - k)))).foldl gfAdd 0#8

/-- The 30 format cells of a symbol of side `n`, and the dark module (R180, R181). -/
def IsFormatCell (n x y : Nat) : Prop :=
  (x = 8 ∧ y ≤ 8 ∧ y ≠ 6) ∨ (y = 8 ∧ x ≤ 8 ∧ x ≠ 6) ∨
  (y = 8 ∧ n - 8 ≤ x ∧ x < n) ∨ (x = 8 ∧ n - 8 ≤ y ∧ y < n)

/-- The format words of R179's table, by level ordinal and mask index. -/
def formatTable : List (List Nat) :=
  [[0x77C4, 0x72F3, 0x7DAA, 0x789D, 0x662F, 0x6318, 0x6C41, 0x6976],
   [0x5412, 0x5125, 0x5E7C, 0x5B4B, 0x45F9, 0x40CE, 0x4F97, 0x4AA0],
   [0x355F, 0x3068, 0x3F31, 0x3A06, 0x24B4, 0x2183, 0x2EDA, 0x2BED],
   [0x1689, 0x13BE, 0x1CE7, 0x19D0, 0x0762, 0x0255, 0x0D0C, 0x083B]]

/-- The non-function cells of the walk, in its order (R156, R157). -/
def slots (n : Nat) (func : Plane .func) : List (Nat × Nat) :=
  (walk n).filter fun c => !func.cell c.1 c.2

/-- A word R211 makes ILLEGAL_OPCODE, in the words of R83 to R85. -/
def IllegalWord (c : Word) : Prop :=
  let opc := c.toNat % 2 ^ 8
  let f1 := c.toNat / 2 ^ 8 % 2 ^ 8
  let rsv := c.toNat / 2 ^ 16
  opc ∉ [0x00, 0x01, 0x02, 0x03, 0x10, 0x11, 0x12, 0x13, 0x14, 0x20, 0x21, 0x22, 0x30, 0x31, 0x32, 0x33] ∨
  rsv ≠ 0 ∨
  (opc ∈ [0x00, 0x01, 0x03, 0x10, 0x11, 0x20, 0x21, 0x22, 0x32, 0x33] ∧ f1 ≠ 0) ∨
  (opc ∈ [0x30, 0x31] ∧ f1 / 8 ≠ 0)

/-- The cases of R212. -/
def IllegalParam (i : Instr) (s : State) : Prop :=
  match i with
  | .bpAppend n => 32 < n
  | .rsGenpoly deg => deg = 0 ∨ 30 < deg
  | .rsEncode deg => deg = 0 ∨ 30 < deg ∨ 4096 < s.arg0.toNat + s.arg1.toNat
  | .rsSyndrome nsyn => nsyn = 0 ∨ 30 < nsyn ∨ 4096 < s.arg0.toNat + s.arg1.toNat
  | .bpFinalize => ¬VersionLegal s
  | .interleave => ¬VersionLegal s
  | .place => ¬VersionLegal s
  | .maskApply _ => ¬VersionLegal s
  | .formatWrite _ => ¬VersionLegal s
  | .score => ¬VersionLegal s
  | .maskSelect => ¬VersionLegal s
  | .nop => False
  | .bpClear => False
  | .gfMul => False
  | .gfExp => False
  | .gridClear => False

/-- The addresses R61 maps, aligned as R63 asks. -/
def Mapped (a : Addr) : Prop :=
  a.toNat % 4 = 0 ∧
  (a.toNat ≤ 0x53 ∨ (0x60 ≤ a.toNat ∧ a.toNat ≤ 0x7F) ∨ (0x100 ≤ a.toNat ∧ a.toNat ≤ 0x13F) ∨
    (0x1000 ≤ a.toNat ∧ a.toNat ≤ 0x2FFF) ∨ 0x4000 ≤ a.toNat)

/-- The addresses of R20 and R61 that are read only: the RO registers and the GEN and RSOUT windows. -/
def ReadOnly (a : Addr) : Prop :=
  a.toNat % 4 = 0 ∧
  (a.toNat = 0 ∨ (0x1C ≤ a.toNat ∧ a.toNat ≤ 0x50) ∨ (0x60 ≤ a.toNat ∧ a.toNat ≤ 0x7C) ∨
    (0x100 ≤ a.toNat ∧ a.toNat ≤ 0x13C))

/-- How often the windows of N3 at scale `w` occur in a line: the core `w, w, 3w, w, w`, dark first, with `4w`
light cells on one side and `w` on the other (R189). -/
def coreWindows (w : Nat) (line : List Bool) : Nat :=
  let dark : Nat → List Bool := fun k => List.replicate k true
  let light : Nat → List Bool := fun k => List.replicate k false
  let core := dark w ++ light w ++ dark (3 * w) ++ light w ++ dark w
  (List.range line.length).countP (fun i => (line.drop i).take (12 * w) == light (4 * w) ++ core ++ light w) +
  (List.range line.length).countP (fun i => (line.drop i).take (12 * w) == light w ++ core ++ light (4 * w))

end Sys2Proof
end

