-- ==== Sys2Proof/Certificates/Slice0/Obligations.lean ====
section
/-! DEFINITION. The statements for the provers. Each is about every state, reachable or not, unless it
says otherwise; `completed`, `failed` and the other words they share stand in Safety.lean. -/

open Sys2Proof Sys2Proof.Machine

/-! ### Encoding -/

/-- R80, R81, R83: decoding the word of a well-formed command gives it back, with every operand. -/
def Obligations.DecodeOfEncodeIsTheCommand : Prop :=
  ∀ i : Instr, i.wf = true → decode (encode i) = .ok i

/-- R80 to R86: a word that decodes is the word of the command it decodes to, which is well formed. -/
def Obligations.EncodeOfDecodeIsTheWord : Prop :=
  ∀ (c : Word) (i : Instr), decode c = .ok i → i.wf = true ∧ encode i = c

/-- R211: a command word fails with ILLEGAL_OPCODE, recording the word, exactly when R84 rejects it;
every other word runs the command it decodes to, which never fails so; and any word is accepted. -/
def Obligations.IllegalOpcodeExactlyForRejectedWords : Prop :=
  ∀ (s : State) (c : Word), (IllegalWord c ↔ ∃ e, decode c = .error e) ∧
    (s.eng = .run c 0 → IllegalWord c → step s = .next (failed s 3#8 c 0#32)) ∧
    (s.eng = .run c 0 → ¬IllegalWord c → ∃ i t, decode c = .ok i ∧ step s = .next t ∧ exec i s = .next t ∧
      (t.status.errcode = 3#8 → s.status.errcode = 3#8)) ∧
    (s.eng = .idle → ∃ t k, s.busWrite 0x010#15 c 0xF#4 = some t ∧ t.eng = .run c k)

/-- R84, opcode_table.json: a word is command X exactly when `word AND mask(X) = match(X)`, and a word
matching no row is rejected. -/
def Obligations.DecoderAgreesWithTheTable : Prop :=
  ∀ c : Word,
    (decode c = .ok .nop ↔ c &&& 0xFFFFFFFF#32 = 0x00000000#32) ∧
    (decode c = .ok .bpClear ↔ c &&& 0xFFFFFFFF#32 = 0x00000001#32) ∧
    ((∃ n, decode c = .ok (.bpAppend n)) ↔ c &&& 0xFFFF00FF#32 = 0x00000002#32) ∧
    (decode c = .ok .bpFinalize ↔ c &&& 0xFFFFFFFF#32 = 0x00000003#32) ∧
    (decode c = .ok .gfMul ↔ c &&& 0xFFFFFFFF#32 = 0x00000010#32) ∧
    (decode c = .ok .gfExp ↔ c &&& 0xFFFFFFFF#32 = 0x00000011#32) ∧
    ((∃ d, decode c = .ok (.rsGenpoly d)) ↔ c &&& 0xFFFF00FF#32 = 0x00000012#32) ∧
    ((∃ d, decode c = .ok (.rsEncode d)) ↔ c &&& 0xFFFF00FF#32 = 0x00000013#32) ∧
    ((∃ d, decode c = .ok (.rsSyndrome d)) ↔ c &&& 0xFFFF00FF#32 = 0x00000014#32) ∧
    (decode c = .ok .interleave ↔ c &&& 0xFFFFFFFF#32 = 0x00000020#32) ∧
    (decode c = .ok .gridClear ↔ c &&& 0xFFFFFFFF#32 = 0x00000021#32) ∧
    (decode c = .ok .place ↔ c &&& 0xFFFFFFFF#32 = 0x00000022#32) ∧
    ((∃ m, decode c = .ok (.maskApply m)) ↔ c &&& 0xFFFFF8FF#32 = 0x00000030#32) ∧
    ((∃ m, decode c = .ok (.formatWrite m)) ↔ c &&& 0xFFFFF8FF#32 = 0x00000031#32) ∧
    (decode c = .ok .score ↔ c &&& 0xFFFFFFFF#32 = 0x00000032#32) ∧
    (decode c = .ok .maskSelect ↔ c &&& 0xFFFFFFFF#32 = 0x00000033#32)

/-- R80, R83, 95 §2: words written out from the spec decode to the commands they stand for. -/
def Obligations.WrittenOutWordsDecode : Prop :=
  decode 0x00000000#32 = .ok .nop ∧ decode 0x00000402#32 = .ok (.bpAppend 4) ∧
  decode 0x00000010#32 = .ok .gfMul ∧ decode 0x00000A13#32 = .ok (.rsEncode 10) ∧
  decode 0x00000020#32 = .ok .interleave ∧ decode 0x00000730#32 = .ok (.maskApply 7) ∧
  decode 0x00000033#32 = .ok .maskSelect ∧ decode 0x00000004#32 = .error .undefinedOpcode ∧
  decode 0x00010000#32 = .error .reservedBits ∧ decode 0x00000830#32 = .error .reservedField

/-! ### The step -/

/-- R214: a command in flight whose latency has passed, or that no host transfer is left to wait for
(assumption 4), completes in the next step, and that step is its meaning. -/
def Obligations.StepRunsTheDecodedCommand : Prop :=
  ∀ (s : State) (c : Word) (i : Instr) (left : Nat), s.eng = .run c left → (left = 0 ∨ s.host = []) →
    decode c = .ok i → step s = exec i s

/-- R7, R260, R265: while a command's latency has not passed, and while the block is idle, a step is the
host's next transfer. That an idle block with no transfer to serve takes a step that changes nothing is the
model's choice (assumption 4). -/
def Obligations.OtherStepsAreHostTransfers : Prop :=
  ∀ (s : State) (c : Word) (left : Nat) (op : HostOp) (rest : List HostOp),
    (s.eng = .run c (left + 1) → s.host = op :: rest →
      step s = hostStep op rest { s with eng := .run c left }) ∧
    (s.eng = .idle → s.host = op :: rest → step s = hostStep op rest s) ∧
    (s.eng = .idle → s.host = [] → step s = .next s)

/-- R214, R26, R27: every command completes: one step, DONE = 1 and `eng` idle after it, WBUSY, IRQ_EN,
CONFIG, CMD, ARG0, ARG1 and the model's own fields as before. -/
def Obligations.EveryCommandCompletes : Prop :=
  ∀ (i : Instr) (s : State), ∃ t, exec i s = .next t ∧ t.status.done = true ∧ t.eng = .idle ∧
    t.status.wbusy = s.status.wbusy ∧ t.irqEn = s.irqEn ∧ t.config = s.config ∧ t.cmd = s.cmd ∧
    t.arg0 = s.arg0 ∧ t.arg1 = s.arg1 ∧ t.params = s.params ∧ t.draws = s.draws ∧ t.host = s.host ∧
    t.readData = s.readData

/-- R28, R29, R33, R40 to R44: which commands write each register and memory; no other command does. -/
def Obligations.OnlyNamedCommandsWriteEachPlace : Prop :=
  ∀ (i : Instr) (s t : State), exec i s = .next t →
    (t.data ≠ s.data ∨ t.bitlen ≠ s.bitlen → i = .bpClear ∨ (∃ n, i = .bpAppend n) ∨ i = .bpFinalize) ∧
    (t.cw ≠ s.cw → i = .interleave) ∧
    (t.func ≠ s.func → i = .gridClear) ∧
    (t.mod ≠ s.mod → i = .gridClear ∨ i = .place ∨ (∃ m, i = .maskApply m) ∨
      (∃ m, i = .formatWrite m) ∨ i = .maskSelect) ∧
    (t.gen ≠ s.gen → ∃ d, i = .rsGenpoly d) ∧
    (t.rsout ≠ s.rsout → ∃ d, i = .rsEncode d ∨ i = .rsSyndrome d) ∧
    (t.result ≠ s.result → i = .gfMul ∨ i = .gfExp ∨ ∃ d, i = .rsSyndrome d) ∧
    (t.score ≠ s.score → i = .score ∨ i = .maskSelect) ∧
    (t.best ≠ s.best ∨ t.pen ≠ s.pen → i = .maskSelect)

/-! ### Errors -/

/-- R213, R214: a command word that completes either leaves ERR, ERRCODE, ERRINFO0 and ERRINFO1 alone, or fails,
and then changes only STATUS, ERRINFO0 and ERRINFO1, with one of the five codes; a command's meaning never
raises ILLEGAL_OPCODE, and NOP, BP_CLEAR, GF_MUL, GF_EXP and GRID_CLEAR never fail (R216). -/
def Obligations.FailedCommandChangesOnlyStatus : Prop :=
  let outcome : State → State → List Byte → Prop := fun s t codes =>
    (t.status.err = s.status.err ∧ t.status.errcode = s.status.errcode ∧
      t.errinfo0 = s.errinfo0 ∧ t.errinfo1 = s.errinfo1) ∨
    ∃ (code : Byte) (i0 i1 : Word), code ∈ codes ∧ t = failed s code i0 i1
  ∀ s t : State,
    (∀ c : Word, completeCommand c s = .next t → outcome s t [1#8, 2#8, 3#8, 4#8, 5#8]) ∧
    (∀ i : Instr, exec i s = .next t → outcome s t [1#8, 2#8, 4#8, 5#8]) ∧
    ∀ i ∈ [Instr.nop, .bpClear, .gfMul, .gfExp, .gridClear], exec i s = .next t → outcome s t []

/-- R212: ILLEGAL_PARAM with information (0, 0) in the cases R212 lists and in no others. -/
def Obligations.IllegalParamExactlyInTheListedCases : Prop :=
  ∀ (i : Instr) (s : State),
    (IllegalParam i s → exec i s = .next (failed s 4#8 0#32 0#32)) ∧
    (¬IllegalParam i s → ∀ t, exec i s = .next t → t.status.errcode = 4#8 → s.status.errcode = 4#8)

/-- R102, R103, R105, R156, R210: what does not fit fails with its two numbers. An append past 32768 bits:
SEG_TOO_LONG(BITLEN + n, 32768). BP_FINALIZE on more bits than `8·DCW`: DATA_OVER_CAPACITY(BITLEN, 8·DCW).
PLACE with fewer non-function cells outside column 6 than stream bits: PLACE_OVERFLOW(8·TOT, those cells),
counted along the walk. -/
def Obligations.WhatDoesNotFitFails : Prop :=
  ∀ s : State,
    (∀ n, n ≤ 32 → 32768 < s.bitlen.toNat + n → exec (.bpAppend n) s =
      .next (failed s 1#8 (BitVec.ofNat 32 (s.bitlen.toNat + n)) 32768#32)) ∧
    (VersionLegal s → 8 * s.geom.dcw < s.bitlen.toNat → exec .bpFinalize s =
      .next (failed s 2#8 (BitVec.ofNat 32 s.bitlen.toNat) (BitVec.ofNat 32 (8 * s.geom.dcw)))) ∧
    (VersionLegal s → (slots (side s) s.func).length < 8 * s.geom.tot → exec .place s =
      .next (failed s 5#8 (BitVec.ofNat 32 (8 * s.geom.tot))
        (BitVec.ofNat 32 (slots (side s) s.func).length)))

/-! ### NOP and the bit packer -/

/-- R200: NOP changes nothing but the completion flags. -/
def Obligations.NopOnlyCompletes : Prop :=
  ∀ s : State, exec .nop s = .next (completed s)

/-- R101, R154: BP_CLEAR zeroes DATA and BITLEN, GRID_CLEAR every cell of both planes, whatever the version, and
neither changes anything else. -/
def Obligations.ClearCommandsZeroTheirMemories : Prop :=
  ∀ s : State,
    (∃ d : Memory .data 8, exec .bpClear s = .next { completed s with data := d, bitlen := 0#16 } ∧
      ∀ i, i < 4096 → d.read i = 0#8) ∧
    ∃ (m : Plane .mod) (f : Plane .func),
      exec .gridClear s = .next { completed s with mod := m, func := f } ∧
      ∀ x y, x < 177 → y < 177 → m.cell x y = false ∧ f.cell x y = false

/-- R102: BP_APPEND n appends the low `n` bits of ARG0, the most significant first, keeps every other
bit of the buffer memory, and changes nothing else. -/
def Obligations.AppendAddsLowBitsMsbFirst : Prop :=
  ∀ (s : State) (n : Nat), n ≤ 32 → s.bitlen.toNat + n ≤ 32768 → ∃ d : Memory .data 8,
    exec (.bpAppend n) s =
      .next { completed s with data := d, bitlen := BitVec.ofNat 16 (s.bitlen.toNat + n) } ∧
    (∀ k, k < n → bufferBit d (s.bitlen.toNat + k) = s.arg0.getLsbD (n - 1 - k)) ∧
    ∀ p, (p < s.bitlen.toNat ∨ s.bitlen.toNat + n ≤ p) → bufferBit d p = bufferBit s.data p

/-- R103, R104: BP_FINALIZE on a buffer within the capacity `8·DCW` keeps its bits, adds a terminator of up
to four 0 bits and 0 bits to a byte boundary, then 0xEC and 0x11 in turn up to DATA[DCW-1], keeps the
rest of DATA, sets BITLEN to the capacity, and changes nothing else. -/
def Obligations.FinalizePadsToTheCapacity : Prop :=
  ∀ s : State, s.params.wf = true → VersionLegal s → s.bitlen.toNat ≤ 8 * s.geom.dcw →
    ∃ d : Memory .data 8,
      exec .bpFinalize s =
        .next { completed s with data := d, bitlen := BitVec.ofNat 16 (8 * s.geom.dcw) } ∧
      8 * s.geom.dcw ≤ 32768 ∧
      (∀ p, p < s.bitlen.toNat → bufferBit d p = bufferBit s.data p) ∧
      (let first := (s.bitlen.toNat + min 4 (8 * s.geom.dcw - s.bitlen.toNat) + 7) / 8
       (∀ p, s.bitlen.toNat ≤ p → p < 8 * first → bufferBit d p = false) ∧
       (∀ j, first ≤ j → j < s.geom.dcw →
         d.read j = if (j - first) % 2 = 0 then 0xEC#8 else 0x11#8)) ∧
      ∀ j, s.geom.dcw ≤ j → d.read j = s.data.read j

/-! ### The field and Reed–Solomon -/

/-- R121, R124: RESULT after GF_MUL is the byte whose polynomial is the product of the operands'
polynomials over GF(2), reduced modulo x^8 + x^4 + x^3 + x^2 + 1; nothing else changes. -/
def Obligations.GfMulIsReducedPolynomialProduct : Prop :=
  let poly : Byte → Polynomial (ZMod 2) := fun b =>
    ∑ i ∈ Finset.range 8, if b.getLsbD i then Polynomial.X ^ i else 0
  let modulus : Polynomial (ZMod 2) :=
    Polynomial.X ^ 8 + Polynomial.X ^ 4 + Polynomial.X ^ 3 + Polynomial.X ^ 2 + 1
  ∀ s : State, ∃ v : Byte,
    exec .gfMul s = .next { completed s with result := v.setWidth 32 } ∧
    ∃ q : Polynomial (ZMod 2),
      poly (s.arg0.extractLsb' 0 8) * poly (s.arg1.extractLsb' 0 8) = q * modulus + poly v

/-- R123: the field laws. -/
def Obligations.FieldLawsHold : Prop :=
  (∀ a b : Byte, gfAdd a b = gfAdd b a ∧ gfMul a b = gfMul b a) ∧
  (∀ a b c : Byte, gfAdd (gfAdd a b) c = gfAdd a (gfAdd b c) ∧
    gfMul (gfMul a b) c = gfMul a (gfMul b c) ∧
    gfMul a (gfAdd b c) = gfAdd (gfMul a b) (gfMul a c)) ∧
  (∀ a : Byte, gfAdd 0#8 a = a ∧ gfMul 0#8 a = 0#8 ∧ gfMul 1#8 a = a) ∧
  (∀ a : Byte, a ≠ 0#8 → ∃ b, gfMul a b = 1#8 ∧ ∀ c, gfMul a c = 1#8 → c = b) ∧
  (∀ a : Byte, a ≠ 0#8 → ∃ k, k < 255 ∧ gfPow k = a ∧ ∀ j, j < 255 → gfPow j = a → j = k)

/-- R122, R125: RESULT after GF_EXP is the power of α = 2 that ARG0[7:0] names: the product of that many
factors 2, never 0, with α^255 = 1 and no smaller positive power 1; nothing else changes. -/
def Obligations.GfExpIsAPowerOfAlpha : Prop :=
  (∀ s : State, ∃ v : Byte, exec .gfExp s = .next { completed s with result := v.setWidth 32 } ∧
    v = (List.replicate (s.arg0.toNat % 256) 2#8).foldl gfMul 1#8 ∧ v ≠ 0#8) ∧
  gfPow 255 = 1#8 ∧ (∀ k, 1 ≤ k → k < 255 → gfPow k ≠ 1#8) ∧ ∀ k, gfPow k = gfPow (k % 255)

/-- R126, R127: GEN after RS_GENPOLY deg holds a monic polynomial of degree `deg`, leading coefficient
first and 0 past it, that vanishes at α^0, …, α^(deg-1); nothing else changes. -/
def Obligations.GenpolyHasTheRootsOfTheGenerator : Prop :=
  ∀ (s : State) (deg : Nat), 1 ≤ deg → deg ≤ 30 → ∃ g : Vector Byte 32,
    exec (.rsGenpoly deg) s = .next { completed s with gen := g } ∧
    g[0] = 1#8 ∧ (∀ k : Fin 32, deg < k.val → g[k] = 0#8) ∧
    ∀ i, i < deg → polyValue (g.toList.take (deg + 1)) i = 0#8

/-- R128, R132: for every data block and degree, the block followed by its ECC codewords has `deg` zero
syndromes; there are `deg` ECC codewords. -/
def Obligations.EncodedWordsHaveZeroSyndromes : Prop :=
  ∀ (d : List Byte) (deg : Nat), 1 ≤ deg → deg ≤ 30 →
    (rsRemainder d deg).length = deg ∧
    ∀ j, j < deg → syndrome (d ++ rsRemainder d deg) j = 0#8

/-- R129: RSOUT after RS_ENCODE deg holds the ECC codewords of DATA[ARG0 .. ARG0+ARG1-1], 0 past them;
nothing else changes, GEN included. -/
def Obligations.EncodeWritesEccOfTheDataRange : Prop :=
  ∀ (s : State) (deg : Nat), 1 ≤ deg → deg ≤ 30 → s.arg0.toNat + s.arg1.toNat ≤ 4096 →
    ∃ e : Vector Byte 32, exec (.rsEncode deg) s = .next { completed s with rsout := e } ∧
      let d := (List.range s.arg1.toNat).map fun i => s.data.read (s.arg0.toNat + i)
      (∀ k : Fin 32, k.val < deg → (rsRemainder d deg)[k.val]? = some e[k]) ∧
      ∀ k : Fin 32, deg ≤ k.val → e[k] = 0#8

/-- R130, R131: RSOUT[j] after RS_SYNDROME nsyn is the value at α^j of the polynomial of the byte range,
the first byte of the highest degree, 0 past the count; RESULT is 1 exactly when all are 0; nothing
else changes. -/
def Obligations.SyndromesAreValuesAtPowersOfAlpha : Prop :=
  ∀ (s : State) (nsyn : Nat), 1 ≤ nsyn → nsyn ≤ 30 → s.arg0.toNat + s.arg1.toNat ≤ 4096 →
    ∃ (e : Vector Byte 32) (r : Word),
      exec (.rsSyndrome nsyn) s = .next { completed s with rsout := e, result := r } ∧
      let c := (List.range s.arg1.toNat).map fun i => s.data.read (s.arg0.toNat + i)
      (∀ k : Fin 32, e[k] = if k.val < nsyn then polyValue c k.val else 0#8) ∧
      (r = 1#32 ∨ r = 0#32) ∧
      (r = 1#32 ↔ ∀ j, j < nsyn → polyValue c j = 0#8)

/-- R133: changing byte `p` of a word with zero syndromes by `v` gives the syndromes `v·α^(j·(n-1-p))`. -/
def Obligations.SyndromesOfAChangedByte : Prop :=
  ∀ (c : List Byte) (p : Nat) (v : Byte) (j : Nat), p < c.length → v ≠ 0#8 → syndrome c j = 0#8 →
    syndrome (c.set p (c.getD p 0#8 ^^^ v)) j = gfMul v (gfPow (j * (c.length - 1 - p)))

/-! ### Layout -/

/-- R30, R150: for a well-formed table the blocks tile DATA[0..DCW-1]: each starts where the one before it
ends, the first at 0 and the last ending at DCW. -/
def Obligations.BlocksTileTheDataCodewords : Prop :=
  ∀ (p : Params) (v e : Nat), p.wf = true → 1 ≤ v → v ≤ 40 → e < 4 →
    let g := geometry p v e
    blockStart g 0 = 0 ∧
    (∀ b, b < g.nb → blockStart g (b + 1) = blockStart g b + blockLen g b) ∧
    blockStart g g.nb = g.dcw ∧ g.dcw + g.nb * g.el = g.tot ∧ 1 ≤ g.ns ∧ g.ns ≤ g.nb

/-- R150 to R152: CW after INTERLEAVE: the data codewords column by column, a column beyond the short
blocks from the long ones alone, then the ECC codewords of every block column by column; CW from TOT on
and everything else unchanged. -/
def Obligations.InterleaveEmitsColumns : Prop :=
  ∀ s : State, s.params.wf = true → VersionLegal s → ∃ q : Memory .cw 8,
    exec .interleave s = .next { completed s with cw := q } ∧
    let g := s.geom
    let start : Nat → Nat := fun b => b * g.sdl + (b - g.ns)
    let ecc : Nat → List Byte := fun b =>
      rsRemainder (s.data.readBlock (start b) (if b < g.ns then g.sdl else g.sdl + 1)) g.el
    (∀ c b, c < g.sdl → b < g.nb → q.read (c * g.nb + b) = s.data.read (start b + c)) ∧
    (∀ b, g.ns ≤ b → b < g.nb → q.read (g.sdl * g.nb + (b - g.ns)) = s.data.read (start b + g.sdl)) ∧
    (∀ c b, c < g.el → b < g.nb → (ecc b)[c]? = some (q.read (g.dcw + c * g.nb + b))) ∧
    ∀ i, g.tot ≤ i → q.read i = s.cw.read i

/-- R157: for every version the walk yields each cell of the symbol outside column 6 exactly once, in this order:
column pairs from the right edge leftward, each pair's cells row by row with the right column first, pair 0
upward and then downward and upward in turn; the pair left of (8, 7) is (5, 4). -/
def Obligations.WalkVisitsEachCellOnce : Prop :=
  ∀ v, 1 ≤ v → v ≤ 40 →
    let n := 17 + 4 * v
    let right : Nat → Nat := fun k => if 6 < n - 1 - 2 * k then n - 1 - 2 * k else n - 2 - 2 * k
    let row : Nat → Nat → Nat := fun k r => if k % 2 = 0 then n - 1 - r else r
    (walk n).length = n * (n - 1) ∧
    (∀ k r, k < (n - 1) / 2 → r < n →
      (walk n)[2 * n * k + 2 * r]? = some (right k, row k r) ∧
      (walk n)[2 * n * k + 2 * r + 1]? = some (right k - 1, row k r)) ∧
    (walk n).Nodup ∧ ∀ x y, (x, y) ∈ walk n ↔ x < n ∧ y < n ∧ x ≠ 6

/-- R156, R159: after PLACE the `k`-th non-function cell of the walk holds bit `k` of the codeword stream,
or 0 past its `8·TOT` bits; every other cell, and everything else, is unchanged. -/
def Obligations.PlaceWritesTheStreamAlongTheWalk : Prop :=
  ∀ s : State, VersionLegal s → 8 * s.geom.tot ≤ (slots (side s) s.func).length → ∃ p : Plane .mod,
    exec .place s = .next { completed s with mod := p } ∧
    (∀ k x y, (slots (side s) s.func)[k]? = some (x, y) →
      p.cell x y = (decide (k < 8 * s.geom.tot) && (s.cw.read (k / 8)).getLsbD (7 - k % 8))) ∧
    ∀ x y, (x, y) ∉ slots (side s) s.func → p.cell x y = s.mod.cell x y

/-- R159: PLACE does not depend on what MOD held at the cells it writes, and a second PLACE changes no
cell. -/
def Obligations.PlaceIgnoresOldModules : Prop :=
  ∀ (s : State) (p : Plane .mod), VersionLegal s → 8 * s.geom.tot ≤ (slots (side s) s.func).length →
    ∃ t u w, exec .place s = .next t ∧ exec .place { s with mod := p } = .next u ∧
      exec .place t = .next w ∧
      (∀ x y, (x, y) ∈ slots (side s) s.func → u.mod.cell x y = t.mod.cell x y) ∧
      ∀ x y, w.mod.cell x y = t.mod.cell x y

/-! ### Masks, format, penalty, selection -/

/-- R174: the periods of the masks. -/
def Obligations.MasksArePeriodic : Prop :=
  ∀ x y : Nat,
    (∀ m, m < 8 → maskPred m x y = maskPred m (x + 12) y ∧ maskPred m x y = maskPred m x (y + 12)) ∧
    (∀ m, m < 2 → maskPred m x y = maskPred m (x + 2) y ∧ maskPred m x y = maskPred m x (y + 2)) ∧
    (∀ m, 2 ≤ m → m < 4 →
      maskPred m x y = maskPred m (x + 3) y ∧ maskPred m x y = maskPred m x (y + 3)) ∧
    (maskPred 4 x y = maskPred 4 (x + 6) y ∧ maskPred 4 x y = maskPred 4 x (y + 4)) ∧
    (∀ m, 5 ≤ m → m < 8 →
      maskPred m x y = maskPred m (x + 6) y ∧ maskPred m x y = maskPred m x (y + 6)) ∧
    (∀ m, m < 8 → m ≠ 4 → maskPred m x 0 = maskPred m x 6)

/-- R171, R176, R177: MASK_APPLY m inverts exactly the non-function cells of the symbol at which formula `m` of
the eight holds, column 6 included, and changes nothing else; a second one restores every cell. -/
def Obligations.MaskApplyInvertsTheMaskedCells : Prop :=
  let masked : Nat → Nat → Nat → Prop := fun m x y =>
    (m = 0 ∧ (y + x) % 2 = 0) ∨ (m = 1 ∧ y % 2 = 0) ∨ (m = 2 ∧ x % 3 = 0) ∨ (m = 3 ∧ (x + y) % 3 = 0) ∨
    (m = 4 ∧ (y / 2 + x / 3) % 2 = 0) ∨ (m = 5 ∧ x * y % 2 + x * y % 3 = 0) ∨
    (m = 6 ∧ (x * y % 2 + x * y % 3) % 2 = 0) ∨ (m = 7 ∧ ((x + y) % 2 + x * y % 3) % 2 = 0)
  ∀ (s : State) (m : Nat), m < 8 → VersionLegal s → ∃ p q : Plane .mod,
    exec (.maskApply m) s = .next { completed s with mod := p } ∧
    (∀ x y, x < side s → y < side s → s.func.cell x y = false → masked m x y →
      p.cell x y = !s.mod.cell x y) ∧
    (∀ x y, ¬(x < side s ∧ y < side s ∧ s.func.cell x y = false ∧ masked m x y) →
      p.cell x y = s.mod.cell x y) ∧
    exec (.maskApply m) { completed s with mod := p } = .next { completed s with mod := q } ∧
    ∀ x y, q.cell x y = s.mod.cell x y

/-- R180 to R182: FORMAT_WRITE m writes the format word of (CONFIG.ECL, m), a row of R179's table, into both
copies, and 1 into the dark module, whatever FUNC holds; nothing else changes. -/
def Obligations.FormatWriteDrawsBothCopies : Prop :=
  ∀ (s : State) (m : Nat), m < 8 → VersionLegal s → ∃ (p : Plane .mod) (b : Nat),
    exec (.formatWrite m) s = .next { completed s with mod := p } ∧
    b = (formatTable.getD s.ecl []).getD m 0 ∧
    (∀ i, i ≤ 5 → p.cell 8 i = b.testBit i) ∧
    p.cell 8 7 = b.testBit 6 ∧ p.cell 8 8 = b.testBit 7 ∧ p.cell 7 8 = b.testBit 8 ∧
    (∀ i, 9 ≤ i → i ≤ 14 → p.cell (14 - i) 8 = b.testBit i) ∧
    (∀ i, i ≤ 7 → p.cell (side s - 1 - i) 8 = b.testBit i) ∧
    (∀ i, 8 ≤ i → i ≤ 14 → p.cell 8 (side s - 15 + i) = b.testBit i) ∧
    p.cell 8 (side s - 8) = true ∧
    ∀ x y, ¬IsFormatCell (side s) x y → p.cell x y = s.mod.cell x y

/-- R178, R179, R183: XORed with 0x5412, the format word of (e, m) has ECLBITS(e)·8 + m in its top five bits,
from which e and m are recovered, and is a multiple of the BCH generator 0x537 over GF(2). -/
def Obligations.FormatWordDecodesBack : Prop :=
  let poly : Nat → Polynomial (ZMod 2) := fun n =>
    ∑ i ∈ Finset.range 15, if n.testBit i then Polynomial.X ^ i else 0
  ∀ e m e' m' : Nat, e < 4 → m < 8 → e' < 4 → m' < 8 →
    formatBits e m < 2 ^ 15 ∧
    (formatBits e m ^^^ 0x5412) / 2 ^ 10 = [1, 0, 3, 2].getD e 0 * 8 + m ∧
    (∃ q : Polynomial (ZMod 2), poly (formatBits e m ^^^ 0x5412) = q *
      (Polynomial.X ^ 10 + Polynomial.X ^ 8 + Polynomial.X ^ 5 + Polynomial.X ^ 4 + Polynomial.X ^ 2 +
        Polynomial.X + 1)) ∧
    ((formatBits e m ^^^ 0x5412) / 2 ^ 10 = (formatBits e' m' ^^^ 0x5412) / 2 ^ 10 → e = e' ∧ m = m')

/-- R185, R186: the runs of a line partition it in order, none is empty, and neighbours differ in colour. -/
def Obligations.RunsPartitionTheLine : Prop :=
  ∀ line : List Bool,
    ((runs line).flatMap fun r => List.replicate r.2 r.1) = line ∧
    (∀ r ∈ runs line, 1 ≤ r.2) ∧
    List.IsChain (fun r q : Bool × Nat => r.1 ≠ q.1) (runs line)

/-- R189: N3's count on a line is the number of windows that show the core `w, w, 3w, w, w`, dark first, with `4w`
light cells on one side and `w` on the other: for `w = 1` alone, or, scaled, for every `w`; in the line, or,
with the border light, in the line between `4w` light cells at each end. -/
def Obligations.FinderCountIsAWindowCount : Prop :=
  ∀ (p : Params) (line : List Bool),
    n3Count p line = ((List.range (if p.n3Scaled then line.length else 1)).map fun k =>
      let w := k + 1
      coreWindows w (if p.n3BorderLight then
        List.replicate (4 * w) false ++ line ++ List.replicate (4 * w) false else line)).sum

/-- R187 to R192: SCORE writes the four penalty terms of the symbol, their sum and the dark-cell count, none of
which wraps; nothing else changes. N2, the dark count and N4 are given as counts over the cells. -/
def Obligations.ScoreWritesThePenalty : Prop :=
  ∀ s : State, VersionLegal s → ∃ r : ScoreRegs,
    exec .score s = .next { completed s with score := r } ∧
    (let n := side s
     let cells := Finset.range n ×ˢ Finset.range n
     let dark := (cells.filter fun c => s.mod.cell c.1 c.2 = true).card
     let blocks := ((Finset.range (n - 1) ×ˢ Finset.range (n - 1)).filter fun c =>
       s.mod.cell c.1 c.2 = s.mod.cell (c.1 + 1) c.2 ∧ s.mod.cell c.1 c.2 = s.mod.cell c.1 (c.2 + 1) ∧
       s.mod.cell c.1 c.2 = s.mod.cell (c.1 + 1) (c.2 + 1)).card
     let q := (20 * (dark : Int) - 10 * ((n * n : Nat) : Int)).natAbs
     let lines := (List.range n).map (fun y => (List.range n).map fun x => s.mod.cell x y) ++
       (List.range n).map (fun x => (List.range n).map fun y => s.mod.cell x y)
     r.n1.toNat = (lines.map fun l =>
       ((runs l).map fun u => if 5 ≤ u.2 then 3 + (u.2 - 5) else 0).sum).sum ∧
     r.n2.toNat = 3 * blocks ∧
     r.n3.toNat = 40 * (lines.map (n3Count s.params)).sum ∧
     (s.params.n4Rounding = .floor → r.n4.toNat = 10 * (q / (n * n))) ∧
     (s.params.n4Rounding = .ceilMinusOne → r.n4.toNat = 10 * ((q + n * n - 1) / (n * n) - 1)) ∧
     r.dark.toNat = dark) ∧
    r.total.toNat = r.n1.toNat + r.n2.toNat + r.n3.toNat + r.n4.toNat

/-- R195, R176: MASK_SELECT chooses, among its candidates each drawn on the command's own starting grid, the one
of least total penalty, the least mask among equals; MOD becomes that candidate grid, the SCORE
registers its penalty, PENm each candidate's total and 0 for the others, BEST the choice; nothing else
changes. -/
def Obligations.MaskSelectKeepsTheLeastPenalty : Prop :=
  ∀ s : State, VersionLegal s →
    let cands := if s.config.force then [s.fmask] else [0, 1, 2, 3, 4, 5, 6, 7]
    let grid : Nat → Plane .mod := fun m => candidatePlane (side s) s.ecl m s.func s.mod
    let pen : Nat → Nat := fun m => (planePenalty s.params (side s) (grid m)).total
    ∃ (best : Nat) (p : Plane .mod),
      exec .maskSelect s = .next { completed s with
        mod := p
        score := (planePenalty s.params (side s) (grid best)).regs
        pen := Vector.ofFn fun m : Fin 8 => if m.val ∈ cands then BitVec.ofNat 32 (pen m.val) else 0#32
        best := { mask := BitVec.ofNat 3 best, valid := true,
                  penValid := if s.config.force then BitVec.ofNat 8 (2 ^ s.fmask) else 0xFF#8 } } ∧
      best ∈ cands ∧ (∀ m ∈ cands, pen best ≤ pen m) ∧ (∀ m ∈ cands, pen m = pen best → best ≤ m) ∧
      ∀ x y, p.cell x y = (grid best).cell x y

/-- R197: with FORCE = 0, SCORE_TOTAL after MASK_SELECT is PENbest, the least of PEN0 to PEN7, and scoring the
final grid again gives it. -/
def Obligations.SelectedScoreIsTheMinimum : Prop :=
  ∀ s t : State, VersionLegal s → s.config.force = false → exec .maskSelect s = .next t →
    (∀ m : Fin 8, m.val = t.best.mask.toNat → t.score.total = t.pen[m]) ∧
    (∀ m : Fin 8, t.score.total.toNat ≤ t.pen[m].toNat) ∧
    ∃ u, exec .score t = .next u ∧ u.score = t.score

/-- R198: two masks drawn on one grid agree at every function cell but the format cells and the dark module, and
at a non-function cell of the symbol outside those the grid toggles exactly where the predicate is true. -/
def Obligations.FunctionCellsAreTheSameForAllMasks : Prop :=
  ∀ (s : State) (m m' : Nat), m < 8 → m' < 8 → VersionLegal s →
    ∃ t t' u u', exec (.maskApply m) s = .next t ∧ exec (.formatWrite m) t = .next u ∧
      exec (.maskApply m') s = .next t' ∧ exec (.formatWrite m') t' = .next u' ∧
      (∀ x y, s.func.cell x y = true → ¬IsFormatCell (side s) x y → u.mod.cell x y = u'.mod.cell x y) ∧
      ∀ x y, x < side s → y < side s → s.func.cell x y = false → ¬IsFormatCell (side s) x y →
        u.mod.cell x y = (s.mod.cell x y ^^ maskPred m x y)

/-! ### The bus -/

/-- R63, R61: a transfer gets the ERROR response exactly when it is misaligned, unmapped, or a write without
all four strobes; the host's program is then at fault, and the block is left as it was. -/
def Obligations.BusErrorExactlyWhen : Prop :=
  ∀ (s : State) (a : Addr) (v : Word) (strobes : BitVec 4) (rest : List HostOp),
    (s.busRead a = none ↔ ¬Mapped a) ∧
    (s.busWrite a v strobes = none ↔ strobes ≠ 0xF#4 ∨ ¬Mapped a) ∧
    (¬Mapped a → hostStep (.read a) rest s = .fault (.busError a)) ∧
    (strobes ≠ 0xF#4 ∨ ¬Mapped a → hostStep (.write a (.lit v) strobes) rest s = .fault (.busError a))

/-- R20 to R35, R40 to R43, R62, R65, R70: a read while idle changes nothing and gives the register's field, each
flag in its bit, or the window's bytes, bits [7:0] first. While BUSY = 1, reads of ID, CTRL, STATUS, CONFIG,
CMD, ARG0, ARG1 and GEOM0..2 change nothing and give what they give idle (STATUS with BUSY set), and a read of
any other mapped address is a fresh draw, which moves only the model's own draw counter: the draw and its
counter are the model's choice (assumption 3). -/
def Obligations.ReadsAreDefinedWhereTheSpecDefinesThem : Prop :=
  ∀ s : State,
    (s.eng = .idle →
      let gives : Addr → Nat → Prop := fun a n => ∃ v, s.busRead a = some (v, s) ∧ v.toNat = n
      let shows : Addr → Word → Prop := fun a v => s.busRead a = some (v, s)
      let bytes : Nat → (Nat → Byte) → Prop := fun a byte =>
        ∃ v, s.busRead (BitVec.ofNat 15 a) = some (v, s) ∧ ∀ j, j < 4 → v.extractLsb' (8 * j) 8 = byte j
      (∀ a, Mapped a → ∃ v, shows a v) ∧
      gives 0x004#15 s.irqEn.toNat ∧
      gives 0x008#15 (2 * s.status.done.toNat + 4 * s.status.err.toNat + 8 * s.status.wbusy.toNat +
        2 ^ 8 * s.status.errcode.toNat) ∧
      gives 0x00C#15 (s.config.version.toNat + 2 ^ 8 * s.config.ecl.toNat + 2 ^ 16 * s.config.fmask.toNat +
        2 ^ 19 * s.config.force.toNat) ∧
      shows 0x010#15 s.cmd ∧ shows 0x014#15 s.arg0 ∧ shows 0x018#15 s.arg1 ∧ shows 0x01C#15 s.result ∧
      gives 0x020#15 s.bitlen.toNat ∧ shows 0x030#15 s.errinfo0 ∧ shows 0x034#15 s.errinfo1 ∧
      gives 0x038#15 (s.best.mask.toNat + 2 ^ 8 * s.best.valid.toNat + 2 ^ 16 * s.best.penValid.toNat) ∧
      shows 0x03C#15 s.score.total ∧ shows 0x040#15 s.score.n1 ∧ shows 0x044#15 s.score.n2 ∧
      shows 0x048#15 s.score.n3 ∧ shows 0x04C#15 s.score.n4 ∧ shows 0x050#15 s.score.dark ∧
      (∀ m : Fin 8, shows (BitVec.ofNat 15 (0x060 + 4 * m.val)) s.pen[m]) ∧
      (∀ k, k < 8 → bytes (0x100 + 4 * k) (fun j => s.gen.toList.getD (4 * k + j) 0#8) ∧
        bytes (0x120 + 4 * k) (fun j => s.rsout.toList.getD (4 * k + j) 0#8)) ∧
      ∀ k, k < 1024 → bytes (0x1000 + 4 * k) (fun j => s.data.read (4 * k + j)) ∧
        bytes (0x2000 + 4 * k) (fun j => s.cw.read (4 * k + j))) ∧
    ∀ (c : Word) (left : Nat) (a : Addr), s.eng = .run c left → Mapped a →
      (a ∈ [0x000#15, 0x004#15, 0x00C#15, 0x010#15, 0x014#15, 0x018#15, 0x024#15, 0x028#15, 0x02C#15] →
        ∃ v, s.busRead a = some (v, s) ∧
          { s with eng := .idle }.busRead a = some (v, { s with eng := .idle })) ∧
      (a = 0x008#15 → ∃ v, s.busRead a = some (v ||| 1#32, s) ∧
          { s with eng := .idle }.busRead a = some (v, { s with eng := .idle })) ∧
      (a ∉ [0x000#15, 0x004#15, 0x008#15, 0x00C#15, 0x010#15, 0x014#15, 0x018#15, 0x024#15, 0x028#15,
          0x02C#15] →
        s.busRead a = some (Config.busyRead s.draws, { s with draws := s.draws + 1 }))

/-- R65: an idle write of word `k` of the DATA or the CW window stores its four bytes, little-endian, keeps every
other byte and everything else, and a read of the word gives it back. -/
def Obligations.ByteWindowsStoreLittleEndian : Prop :=
  ∀ (s : State) (k : Nat) (v : Word), s.eng = .idle → k < 1024 →
    (∃ d : Memory .data 8,
      s.busWrite (BitVec.ofNat 15 (0x1000 + 4 * k)) v 0xF#4 = some { s with data := d } ∧
      (∀ j, j < 4 → d.read (4 * k + j) = v.extractLsb' (8 * j) 8) ∧
      (∀ i, (i < 4 * k ∨ 4 * k + 4 ≤ i) → d.read i = s.data.read i) ∧
      { s with data := d }.busRead (BitVec.ofNat 15 (0x1000 + 4 * k)) = some (v, { s with data := d })) ∧
    ∃ q : Memory .cw 8,
      s.busWrite (BitVec.ofNat 15 (0x2000 + 4 * k)) v 0xF#4 = some { s with cw := q } ∧
      (∀ j, j < 4 → q.read (4 * k + j) = v.extractLsb' (8 * j) 8) ∧
      (∀ i, (i < 4 * k ∨ 4 * k + 4 ≤ i) → q.read i = s.cw.read i) ∧
      { s with cw := q }.busRead (BitVec.ofNat 15 (0x2000 + 4 * k)) = some (v, { s with cw := q })

/-- R64: word `w` of row `y` of the MOD and the FUNC window holds cells (32w + b, y) in bit b; an idle write stores
the bits inside the 177 × 177 storage and keeps every other cell and everything else; a read gives the cells,
0 outside the storage. -/
def Obligations.PlaneWindowsHoldCells : Prop :=
  ∀ (s : State) (y w : Nat) (v : Word), s.eng = .idle → y < 256 → w < 8 →
    (∃ p : Plane .mod,
      s.busWrite (BitVec.ofNat 15 (0x4000 + 32 * y + 4 * w)) v 0xF#4 = some { s with mod := p } ∧
      (∀ x z, x < 177 → z < 177 → p.cell x z =
        if z = y ∧ x / 32 = w then v.getLsbD (x % 32) else s.mod.cell x z) ∧
      ∃ u, s.busRead (BitVec.ofNat 15 (0x4000 + 32 * y + 4 * w)) = some (u, s) ∧
        ∀ b, b < 32 → u.getLsbD b = (decide (32 * w + b < 177 ∧ y < 177) && s.mod.cell (32 * w + b) y)) ∧
    ∃ p : Plane .func,
      s.busWrite (BitVec.ofNat 15 (0x6000 + 32 * y + 4 * w)) v 0xF#4 = some { s with func := p } ∧
      (∀ x z, x < 177 → z < 177 → p.cell x z =
        if z = y ∧ x / 32 = w then v.getLsbD (x % 32) else s.func.cell x z) ∧
      ∃ u, s.busRead (BitVec.ofNat 15 (0x6000 + 32 * y + 4 * w)) = some (u, s) ∧
        ∀ b, b < 32 → u.getLsbD b = (decide (32 * w + b < 177 ∧ y < 177) && s.func.cell (32 * w + b) y)

/-- R37: a write to a read-only register or window completes and changes nothing. -/
def Obligations.ReadOnlyWritesAreIgnored : Prop :=
  ∀ (s : State) (a : Addr) (v : Word), ReadOnly a → s.busWrite a v 0xF#4 = some s

/-- R36: the reserved bits of CTRL, STATUS, CONFIG, BITLEN, GEOM1, GEOM2 and BEST read 0, writes of CTRL,
STATUS and CONFIG ignore them, and the other four ignore every write. -/
def Obligations.ReservedBitsReadZeroAndIgnoreWrites : Prop :=
  ∀ (s t : State) (v : Word),
    (s.busRead 0x004#15 = some (v, t) → v &&& 0xFFFFFFFE#32 = 0#32) ∧
    (s.busRead 0x008#15 = some (v, t) → v &&& 0xFFFF00F0#32 = 0#32) ∧
    (s.busRead 0x00C#15 = some (v, t) → v &&& 0xFFF0FCC0#32 = 0#32) ∧
    (s.eng = .idle → s.busRead 0x020#15 = some (v, t) → v &&& 0xFFFF0000#32 = 0#32) ∧
    (s.busRead 0x028#15 = some (v, t) → v &&& 0xF000F000#32 = 0#32) ∧
    (s.busRead 0x02C#15 = some (v, t) → v &&& 0xFFFFFF00#32 = 0#32) ∧
    (s.eng = .idle → s.busRead 0x038#15 = some (v, t) → v &&& 0xFF00FEF8#32 = 0#32) ∧
    (∀ a ∈ [0x020#15, 0x028#15, 0x02C#15, 0x038#15], s.busWrite a v 0xF#4 = some s) ∧
    s.busWrite 0x004#15 v 0xF#4 = s.busWrite 0x004#15 (v &&& 0x00000003#32) 0xF#4 ∧
    s.busWrite 0x008#15 v 0xF#4 = s.busWrite 0x008#15 (v &&& 0x0000FF0F#32) 0xF#4 ∧
    s.busWrite 0x00C#15 v 0xF#4 = s.busWrite 0x00C#15 (v &&& 0x000F033F#32) 0xF#4

/-- R24, R26, R27: an idle write of CONFIG, ARG0 or ARG1 reads back, CONFIG without its reserved bits, and changes
nothing else. -/
def Obligations.OperandRegistersReadBack : Prop :=
  ∀ (s : State) (v : Word), s.eng = .idle →
    (∃ c, s.busWrite 0x00C#15 v 0xF#4 = some { s with config := c } ∧
      { s with config := c }.busRead 0x00C#15 = some (v &&& 0x000F033F#32, { s with config := c }) ∧
      c.version.toNat = v.toNat % 64 ∧ c.ecl.toNat = v.toNat / 2 ^ 8 % 4 ∧
      c.fmask.toNat = v.toNat / 2 ^ 16 % 8 ∧ c.force = v.getLsbD 19) ∧
    s.busWrite 0x014#15 v 0xF#4 = some { s with arg0 := v } ∧
    { s with arg0 := v }.busRead 0x014#15 = some (v, { s with arg0 := v }) ∧
    s.busWrite 0x018#15 v 0xF#4 = some { s with arg1 := v } ∧
    { s with arg1 := v }.busRead 0x018#15 = some (v, { s with arg1 := v })

/-- R22, R23, R37, R250: while BUSY = 1, a write of CONFIG, CMD, ARG0, ARG1 or a DATA, CW, MOD or FUNC window word
stores nothing and sets WBUSY. Busy or idle, a write of CTRL sets IRQ_EN alone when bit 1 is 0 and soft-resets
when it is 1, a write of STATUS clears of DONE, ERR and WBUSY those written 1 and nothing else, and a write of
a read-only place does nothing. -/
def Obligations.BusyWritesAreIgnoredAndSetWbusy : Prop :=
  ∀ (s : State) (a : Addr) (v : Word),
    (∀ (c : Word) (left : Nat), s.eng = .run c left →
      a ∈ [0x00C#15, 0x010#15, 0x014#15, 0x018#15] ∨
        (a.toNat % 4 = 0 ∧ ((0x1000 ≤ a.toNat ∧ a.toNat ≤ 0x2FFF) ∨ 0x4000 ≤ a.toNat)) →
      s.busWrite a v 0xF#4 = some { s with status := { s.status with wbusy := true } }) ∧
    (v.getLsbD 1 = false → s.busWrite 0x004#15 v 0xF#4 = some { s with irqEn := v.getLsbD 0 }) ∧
    (v.getLsbD 1 = true → s.busWrite 0x004#15 v 0xF#4 = some s.softReset) ∧
    s.busWrite 0x008#15 v 0xF#4 = some { s with status := { s.status with
      done := s.status.done && !v.getLsbD 1
      err := s.status.err && !v.getLsbD 2
      wbusy := s.status.wbusy && !v.getLsbD 3 } } ∧
    (ReadOnly a → s.busWrite a v 0xF#4 = some s)

/-- R25, R260: an idle write of any word to CMD accepts it: CMD reads it, DONE = 0, the engine runs it, after at
least 1 and at most P_LATENCY host transfers; nothing else of the block changes. That the latency is drawn at
acceptance, by the model's draw counter, is the model's choice (assumption 4). -/
def Obligations.CommandWriteIsAccepted : Prop :=
  ∀ (s : State) (v : Word), s.eng = .idle → ∃ k, 1 ≤ k ∧ k ≤ Config.pLatency ∧
    ∃ t, s.busWrite 0x010#15 v 0xF#4 = some t ∧
      t = { s with cmd := v, status := { s.status with done := false }, eng := .run v k,
                   draws := s.draws + 1 } ∧
      t.busRead 0x010#15 = some (v, t)

/-- R241: a write of CTRL with bit 1 = 1, idle or busy, resets every register, GEN and RSOUT and makes the engine
idle; DATA, CW, MOD and FUNC are kept, but for those the aborted command writes. Two clauses are the model's
reading, not R241's words: such a memory lists nothing and has a new epoch, so that its contents are free
values (assumption 1), and it is lost even if the aborted command would have failed (assumption 11). -/
def Obligations.SoftResetResetsTheBlock : Prop :=
  ∀ (s : State) (v : Word), v.getLsbD 1 = true → ∃ t, s.busWrite 0x004#15 v 0xF#4 = some t ∧
    t = { State.reset with
          data := t.data, cw := t.cw, mod := t.mod, func := t.func
          params := s.params, draws := s.draws, host := s.host, readData := s.readData } ∧
    (let aborts : Instr → Prop := fun i => ∃ c k, s.eng = .run c k ∧ decode c = .ok i
     let dataLost := aborts .bpClear ∨ (∃ n, aborts (.bpAppend n)) ∨ aborts .bpFinalize
     let modLost := aborts .gridClear ∨ aborts .place ∨ (∃ m, aborts (.maskApply m)) ∨
       (∃ m, aborts (.formatWrite m)) ∨ aborts .maskSelect
     (dataLost → t.data.cells = [] ∧ t.data.epoch = s.data.epoch + 1) ∧ (¬dataLost → t.data = s.data) ∧
     (aborts .interleave → t.cw.cells = [] ∧ t.cw.epoch = s.cw.epoch + 1) ∧
     (¬aborts .interleave → t.cw = s.cw) ∧
     (modLost → t.mod.cells = [] ∧ t.mod.epoch = s.mod.epoch + 1) ∧ (¬modLost → t.mod = s.mod) ∧
     (aborts .gridClear → t.func.cells = [] ∧ t.func.epoch = s.func.epoch + 1) ∧
     (¬aborts .gridClear → t.func = s.func))

/-- R220: the interrupt output is IRQ_EN AND (DONE OR ERR): it follows every completion, clearing DONE and ERR or
IRQ_EN or either reset ends it, and acceptance leaves it as ERR has it. -/
def Obligations.InterruptFollowsDoneAndErr : Prop :=
  ∀ (s : State) (i : Instr) (v : Word),
    (s.irq = true ↔ s.irqEn = true ∧ (s.status.done = true ∨ s.status.err = true)) ∧
    (∀ t, exec i s = .next t → t.irq = s.irqEn) ∧
    (v.getLsbD 1 = true → v.getLsbD 2 = true → ∀ t, s.busWrite 0x008#15 v 0xF#4 = some t → t.irq = false) ∧
    (v.getLsbD 0 = false → ∀ t, s.busWrite 0x004#15 v 0xF#4 = some t → t.irq = false) ∧
    (s.eng = .idle → ∀ t, s.busWrite 0x010#15 v 0xF#4 = some t → t.irq = (s.irqEn && s.status.err)) ∧
    s.softReset.irq = false ∧ State.reset.irq = false

/-- R31: GEOM0, GEOM1 and GEOM2 show the geometry of CONFIG's version and level, and 0 for an illegal version.
That TOTAL_CW shows the low 12 bits of TOT, which matters for TOT = 4096 alone, is the model's choice, not R31's
words (assumption 6). -/
def Obligations.GeometryRegistersShowTheGeometry : Prop :=
  ∀ s : State, s.params.wf = true → ∃ g0 g1 g2 : Word,
    s.busRead 0x024#15 = some (g0, s) ∧ s.busRead 0x028#15 = some (g1, s) ∧
    s.busRead 0x02C#15 = some (g2, s) ∧
    (VersionLegal s →
      g0.toNat = side s + 2 ^ 8 * s.geom.nb + 2 ^ 16 * s.geom.el + 2 ^ 24 * s.geom.ns ∧
      g1.toNat = s.geom.tot % 2 ^ 12 + 2 ^ 16 * s.geom.dcw ∧
      g2.toNat = s.geom.sdl) ∧
    (¬VersionLegal s → g0 = 0#32 ∧ g1 = 0#32 ∧ g2 = 0#32)

/-- R30, R105, 93 GK1: the default table is well formed, and its capacities: DCW = 2956 at 40-L, not increasing from
L to H, strictly increasing in the version. -/
def Obligations.DefaultTableCapacities : Prop :=
  Params.default.wf = true ∧ (geometry Params.default 40 0).dcw = 2956 ∧
  (∀ v, v < 40 → ∀ e, e < 3 →
    (geometry Params.default (v + 1) (e + 1)).dcw ≤ (geometry Params.default (v + 1) e).dcw) ∧
  ∀ v, v < 39 → ∀ e, e < 4 →
    (geometry Params.default (v + 1) e).dcw < (geometry Params.default (v + 2) e).dcw

/-! ### The whole machine -/

/-- R48, R240, R242: what the host reads after power-on reset: every register of R20 at its reset value, GEN and
RSOUT zero; the engine is idle and the interrupt output 0. GEOM0 to
GEOM2 are those of the default block table (93 GK1), which State.reset holds by the model's choice (assumption 2). -/
def Obligations.ResetValuesOnTheBus : Prop :=
  State.reset.eng = .idle ∧ State.reset.irq = false ∧
  State.reset.busRead 0x000#15 = some (0x51434501#32, State.reset) ∧
  State.reset.busRead 0x00C#15 = some (0x00000001#32, State.reset) ∧
  State.reset.busRead 0x024#15 = some (0x01070115#32, State.reset) ∧
  State.reset.busRead 0x028#15 = some (0x0013001A#32, State.reset) ∧
  State.reset.busRead 0x02C#15 = some (0x00000013#32, State.reset) ∧
  (∀ a ∈ [0x004#15, 0x008#15, 0x010#15, 0x014#15, 0x018#15, 0x01C#15, 0x020#15, 0x030#15, 0x034#15,
      0x038#15, 0x03C#15, 0x040#15, 0x044#15, 0x048#15, 0x04C#15, 0x050#15],
    State.reset.busRead a = some (0#32, State.reset)) ∧
  ∀ k : Fin 8, State.reset.busRead (BitVec.ofNat 15 (0x060 + 4 * k.val)) = some (0#32, State.reset) ∧
    State.reset.busRead (BitVec.ofNat 15 (0x100 + 4 * k.val)) = some (0#32, State.reset) ∧
    State.reset.busRead (BitVec.ofNat 15 (0x120 + 4 * k.val)) = some (0#32, State.reset)

/-- R5, R244: ID reads P_ID in every state, and no step, a soft reset and any write included, changes the block
table. That the penalty settings stand beside it as state that no step changes is the model's choice
(assumption 2). -/
def Obligations.IdAndParametersAreConstant : Prop :=
  (∀ s : State, s.busRead 0x000#15 = some (0x51434501#32, s)) ∧
  ∀ s t : State, step s = .next t → t.params = s.params

/-- R23, R32, R219: ERR, once set, stays set until the host writes 1 to it in STATUS or resets the block, and
ERRCODE, ERRINFO0 and ERRINFO1 change only in the step in which the command in flight fails, or when the block
is reset. -/
def Obligations.ErrorStaysUntilAcknowledged : Prop :=
  ∀ s t : State, step s = .next t →
    let wrote : Addr → Nat → Prop := fun a bit => ∃ val strobes rest w,
      s.host = .write a val strobes :: rest ∧ s.hostValue val = .ok w ∧ w.getLsbD bit = true
    (s.status.err = true → t.status.err = false → wrote 0x008#15 2 ∨ wrote 0x004#15 1) ∧
    (t.status.errcode ≠ s.status.errcode ∨ t.errinfo0 ≠ s.errinfo0 ∨ t.errinfo1 ≠ s.errinfo1 →
      (∃ c left code i0 i1, s.eng = .run c left ∧ completeCommand c s = .next t ∧ t = failed s code i0 i1) ∨
      wrote 0x004#15 1)

/-- R39: the engine leaves IDLE only by accepting a word the host writes to CMD, and leaves RUN(c) only by completing c
or by a soft reset; while it runs, it keeps its word and its latency only shrinks. -/
def Obligations.EngineMovesOnlyByAcceptanceCompletionAndReset : Prop :=
  ∀ s t : State, step s = .next t →
    (s.eng = .idle → t.eng = .idle ∨ ∃ w k val strobes rest, t.eng = .run w k ∧ t.cmd = w ∧
      s.host = .write 0x010#15 val strobes :: rest ∧ s.hostValue val = .ok w) ∧
    ∀ c left, s.eng = .run c left →
      (∃ left', t.eng = .run c left' ∧ left = left' + 1) ∨
      (t.eng = .idle ∧ t.status.done = true ∧ completeCommand c s = .next t) ∨
      (t.eng = .idle ∧ t.status.done = false ∧ ∃ val strobes rest w,
        s.host = .write 0x004#15 val strobes :: rest ∧ s.hostValue val = .ok w ∧ w.getLsbD 1 = true)

/-- R87, R260: a WAIT after a command accepted `left` transfers before its completion ends after `left + 1` reads of
STATUS and the completion, and leaves what the completion leaves. The count of `left + 2` steps is the model's:
one step for each read of a WAIT (assumption 10) and one for the completion, once the latency drawn at
acceptance has passed (assumption 4). -/
def Obligations.WaitEndsWithinTheLatency : Prop :=
  ∀ (s : State) (c : Word) (left : Nat) (rest : List HostOp), s.eng = .run c left → s.host = .wait :: rest →
    ∃ t, completeCommand c { s with eng := .run c 0 } = .next t ∧
      Host.Core.run core (left + 2) s = .next { t with host := rest } ∧
      t.eng = .idle ∧ t.status.done = true

/-- R29, R30, R39, R210 (and assumption 1): every step keeps the invariant `Inv`. -/
def Obligations.StepKeepsTheInvariant : Prop :=
  ∀ s t : State, Inv s → step s = .next t → Inv t

/-- R48: the invariant holds after power-on reset. -/
def Obligations.ResetHasTheInvariant : Prop := Inv State.reset

/-- R34, R199: every step keeps every penalty register below 2^20. -/
def Obligations.StepKeepsScoresBelowTwentyBits : Prop :=
  ∀ s t : State, ScoresBounded s → step s = .next t → ScoresBounded t
end

