-- ==== Sys2Proof/Laws/Memory.lean ====
section
/-! SUPPORT. The laws of one memory: read after write, every operation keeps the canonical form, and the
cells of a plane after each operation on planes. -/

namespace Sys2Proof.Machine

open Sys2Proof

variable {id : MemId} {w : Nat}

theorem listed_append (k : Nat) (xs ys : List (Nat × BitVec w)) :
    listed k (xs ++ ys) = (listed k xs).or (listed k ys) := by
  induction xs with
  | nil => simp [listed]
  | cons c rest ih => obtain ⟨j, v⟩ := c; by_cases h : j = k <;> simp [listed, h, ih]

theorem listed_insertCell (k j : Nat) (v : BitVec w) (cells : List (Nat × BitVec w)) :
    listed j (insertCell k v cells) = if k = j then some v else listed j cells := by
  induction cells with
  | nil => simp [insertCell, listed]
  | cons c rest ih =>
    obtain ⟨i, u⟩ := c
    unfold insertCell
    split
    · simp [listed]
    · split
      · rename_i h; subst h; by_cases h : k = j <;> simp [listed, h]
      · by_cases h : i = j
        · subst h; simp [listed, *]
        · simp [listed, h, ih]

theorem listed_filter (k : Nat) (p : Nat → Bool) (cells : List (Nat × BitVec w)) :
    listed k (cells.filter fun c => p c.1) = if p k then listed k cells else none := by
  induction cells with
  | nil => simp [listed]
  | cons c rest ih =>
    obtain ⟨j, u⟩ := c
    by_cases hp : p j
    · by_cases h : j = k
      · subst h; simp [hp, listed]
      · simp [hp, listed, h, ih]
    · by_cases h : j = k
      · subst h; simp [hp, ih]
      · simp [hp, listed, h, ih]

theorem listed_block (j k : Nat) (vs : List (BitVec w)) :
    listed j ((vs.zipIdx k).map fun c => (c.2, c.1)) = if k ≤ j then vs[j - k]? else none := by
  induction vs generalizing k with
  | nil => simp [listed]
  | cons v rest ih =>
    by_cases h : k = j
    · subst h; simp [listed]
    · simp only [List.zipIdx_cons, List.map_cons, listed, h, if_false, ih]
      by_cases hk : k < j
      · rw [if_pos (by omega), if_pos (by omega), show j - k = (j - (k + 1)) + 1 by omega,
          List.getElem?_cons_succ]
      · rw [if_neg (by omega), if_neg (by omega)]

/-- Read after write: the written location gives the value, every other one what it gave. -/
@[simp] theorem Memory.read_write (m : Memory id w) (k j : Nat) (v : BitVec w) :
    (m.write k v).read j = if k = j then v else m.read j := by
  unfold Memory.read Memory.write
  simp only [listed_insertCell]
  split <;> rfl

/-- Read after a block write. -/
theorem Memory.read_writeBlock (m : Memory id w) (k j : Nat) (vs : List (BitVec w)) :
    (m.writeBlock k vs).read j =
      if k ≤ j ∧ j < k + vs.length then vs.getD (j - k) 0#w else m.read j := by
  unfold Memory.read Memory.writeBlock
  simp only [listed_append, listed_block, listed_filter j (fun i => decide (i < k)),
    listed_filter j (fun i => decide (k + vs.length ≤ i)), decide_eq_true_eq]
  by_cases h1 : k ≤ j
  · by_cases h2 : j < k + vs.length
    · have h3 : ¬ j < k := by omega
      have h4 : ¬ k + vs.length ≤ j := by omega
      simp [h1, h2, h3, show j - k < vs.length by omega, List.getD]
    · have h3 : ¬ j < k := by omega
      simp [h1, h3, show k + vs.length ≤ j by omega, show vs.length ≤ j - k by omega, h2]
  · simp [h1, show j < k by omega, show ¬ k + vs.length ≤ j by omega]

/-- Read after the whole memory was filled. -/
theorem Memory.read_fill (m : Memory id w) (size j : Nat) (v : BitVec w) (h : j < size) :
    (m.fill size v).read j = v := by
  have key : ∀ n a, a ≤ j → j < a + n →
      listed j ((List.range' a n).map fun k => (k, v)) = some v := by
    intro n
    induction n with
    | zero => intro a h1 h2; omega
    | succ n ih =>
      intro a h1 h2
      by_cases he : a = j
      · simp [List.range'_succ, listed, he]
      · simp [List.range'_succ, listed, he, ih (a + 1) (by omega) (by omega)]
  simp [Memory.read, Memory.fill, List.range_eq_range', key size 0 (by omega) (by omega)]

@[simp] theorem Memory.length_readBlock (m : Memory id w) (k n : Nat) :
    (m.readBlock k n).length = n := by
  simp [Memory.readBlock]

@[simp] theorem Memory.getElem?_readBlock (m : Memory id w) (k n i : Nat) :
    (m.readBlock k n)[i]? = if i < n then some (m.read (k + i)) else none := by
  by_cases h : i < n <;> simp [Memory.readBlock, h]

/-! ### The canonical form -/

theorem risingFrom_mono {lo hi : Nat} (h : hi ≤ lo) :
    ∀ {cells : List (Nat × BitVec w)}, risingFrom lo cells = true → risingFrom hi cells = true
  | [], _ => rfl
  | (j, _) :: rest, hr => by
    simp only [risingFrom, Bool.and_eq_true, decide_eq_true_eq] at hr ⊢
    exact ⟨by omega, hr.2⟩

theorem risingFrom_insertCell (k : Nat) (v : BitVec w) :
    ∀ (cells : List (Nat × BitVec w)) (lo : Nat), lo ≤ k → risingFrom lo cells = true →
      risingFrom lo (insertCell k v cells) = true
  | [], lo, hlo, _ => by simp [insertCell, risingFrom, hlo]
  | (j, u) :: rest, lo, hlo, hr => by
    simp only [risingFrom, Bool.and_eq_true, decide_eq_true_eq] at hr
    unfold insertCell
    split
    · simp only [risingFrom, Bool.and_eq_true, decide_eq_true_eq]
      exact ⟨hlo, by omega, hr.2⟩
    · split
      · rename_i h1 h2; subst h2
        simp only [risingFrom, Bool.and_eq_true, decide_eq_true_eq]; exact ⟨hlo, hr.2⟩
      · simp only [risingFrom, Bool.and_eq_true, decide_eq_true_eq]
        exact ⟨hr.1, risingFrom_insertCell k v rest (j + 1) (by omega) hr.2⟩

theorem all_insertCell (p : Nat → Bool) (k : Nat) (v : BitVec w) (cells : List (Nat × BitVec w))
    (hk : p k = true) (h : cells.all (fun c => p c.1) = true) :
    (insertCell k v cells).all (fun c => p c.1) = true := by
  induction cells with
  | nil => simp [insertCell, hk]
  | cons c rest ih =>
    obtain ⟨j, u⟩ := c
    simp only [List.all_cons, Bool.and_eq_true] at h
    unfold insertCell
    split
    · simp [hk, h.1, h.2]
    · split
      · simp [hk, h.2]
      · simp [h.1, ih h.2]

/-- A write inside the memory keeps the canonical form. -/
theorem Memory.wf_write {size : Nat} {m : Memory id w} (k : Nat) (v : BitVec w)
    (hk : k < size) (h : m.wf size = true) : (m.write k v).wf size = true := by
  simp only [Memory.wf, Bool.and_eq_true] at h ⊢
  exact ⟨risingFrom_insertCell k v _ 0 (by omega) h.1,
    all_insertCell (fun j => decide (j < size)) k v _ (by simpa using hk) h.2⟩

theorem risingFrom_append {hi : Nat} :
    ∀ (xs ys : List (Nat × BitVec w)) (lo : Nat), risingFrom lo xs = true →
      xs.all (fun c => decide (c.1 < hi)) = true → risingFrom hi ys = true →
      lo ≤ hi → risingFrom lo (xs ++ ys) = true
  | [], _, _, _, _, hy, hlh => by simpa using risingFrom_mono hlh hy
  | (j, u) :: rest, ys, lo, hx, ha, hy, hlh => by
    simp only [risingFrom, List.all_cons, Bool.and_eq_true, decide_eq_true_eq, List.cons_append]
      at hx ha ⊢
    exact ⟨hx.1, risingFrom_append rest ys (j + 1) hx.2 ha.2 hy (by omega)⟩

theorem risingFrom_filter_le (k : Nat) :
    ∀ (cells : List (Nat × BitVec w)) (lo : Nat), risingFrom lo cells = true →
      risingFrom (max lo k) (cells.filter fun c => decide (k ≤ c.1)) = true
  | [], _, _ => rfl
  | (j, u) :: rest, lo, h => by
    simp only [risingFrom, Bool.and_eq_true, decide_eq_true_eq] at h
    have ih := risingFrom_filter_le k rest (j + 1) h.2
    by_cases hk : k ≤ j
    · have hm : max (j + 1) k = j + 1 := by omega
      rw [hm] at ih
      simp only [List.filter_cons, hk, decide_true, if_true, risingFrom, Bool.and_eq_true,
        decide_eq_true_eq]
      exact ⟨by omega, ih⟩
    · simp only [List.filter_cons, hk, decide_false, Bool.false_eq_true, if_false]
      exact risingFrom_mono (by omega) ih

theorem risingFrom_filter (p : Nat × BitVec w → Bool) :
    ∀ (cells : List (Nat × BitVec w)) (lo : Nat), risingFrom lo cells = true →
      risingFrom lo (cells.filter p) = true
  | [], _, _ => rfl
  | (j, u) :: rest, lo, h => by
    simp only [risingFrom, Bool.and_eq_true, decide_eq_true_eq] at h
    have ih := risingFrom_filter p rest (j + 1) h.2
    by_cases hp : p (j, u) = true
    · simp only [List.filter_cons, hp, if_true, risingFrom, Bool.and_eq_true, decide_eq_true_eq]
      exact ⟨h.1, ih⟩
    · simp only [List.filter_cons, hp, if_false, Bool.false_eq_true]
      exact risingFrom_mono (by omega) ih

theorem risingFrom_block (vs : List (BitVec w)) (k : Nat) :
    risingFrom k ((vs.zipIdx k).map fun c => (c.2, c.1)) = true := by
  induction vs generalizing k with
  | nil => rfl
  | cons v rest ih => simp [List.zipIdx_cons, risingFrom, ih]

theorem all_block (vs : List (BitVec w)) (k n : Nat) (h : k + vs.length ≤ n) :
    ((vs.zipIdx k).map fun c => (c.2, c.1)).all (fun c => decide (c.1 < n)) = true := by
  induction vs generalizing k with
  | nil => rfl
  | cons v rest ih =>
    simp only [List.length_cons] at h
    simp only [List.zipIdx_cons, List.map_cons, List.all_cons, Bool.and_eq_true, decide_eq_true_eq]
    exact ⟨by omega, ih (k + 1) (by omega)⟩

/-- A block write inside the memory keeps the canonical form. -/
theorem Memory.wf_writeBlock {size : Nat} {m : Memory id w} (k : Nat) (vs : List (BitVec w))
    (hk : k + vs.length ≤ size) (h : m.wf size = true) : (m.writeBlock k vs).wf size = true := by
  simp only [Memory.wf, Bool.and_eq_true] at h ⊢
  obtain ⟨hr, ha⟩ := h
  refine ⟨?_, ?_⟩
  · have h1 := risingFrom_filter (fun c => decide (c.1 < k)) _ 0 hr
    have h2 := risingFrom_block vs k
    have h3 := risingFrom_filter_le (k + vs.length) _ 0 hr
    rw [Nat.zero_max] at h3
    refine risingFrom_append (hi := k + vs.length) _ _ 0
      (risingFrom_append (hi := k) _ _ 0 h1 ?_ h2 (by omega)) ?_ h3 (by omega)
    · simp
    · rw [List.all_append, Bool.and_eq_true]
      refine ⟨?_, all_block vs k _ (by omega)⟩
      rw [List.all_eq_true]
      intro c hc
      have := List.mem_filter.mp hc
      simp only [decide_eq_true_eq] at this ⊢
      omega
  · simp only [Memory.writeBlock, List.all_append, Bool.and_eq_true]
    refine ⟨⟨?_, all_block vs k size hk⟩, ?_⟩ <;>
    · rw [List.all_eq_true] at ha ⊢
      intro c hc
      exact ha c (List.mem_of_mem_filter hc)

/-- Filling the memory gives the canonical form. -/
theorem Memory.wf_fill (m : Memory id w) (size : Nat) (v : BitVec w) :
    (m.fill size v).wf size = true := by
  simp only [Memory.wf, Memory.fill, Bool.and_eq_true, List.all_eq_true]
  refine ⟨?_, by simp⟩
  have key : ∀ n a, risingFrom a ((List.range' a n).map fun k => (k, v)) = true := by
    intro n
    induction n with
    | zero => intro a; rfl
    | succ n ih => intro a; simp [List.range'_succ, risingFrom, ih]
  simpa [List.range_eq_range'] using key size 0

/-- A lost memory is canonical. -/
@[simp] theorem Memory.wf_lose (m : Memory id w) (size : Nat) : m.lose.wf size = true := rfl

/-- A memory at power-on is canonical. -/
@[simp] theorem Memory.wf_unwritten (id : MemId) (w size : Nat) :
    (Memory.unwritten id w).wf size = true := rfl

/-! ### Bits, rows and cells -/

@[simp] theorem getLsbD_setBit (v : BitVec w) (i j : Nat) (b : Bool) :
    (setBit v i b).getLsbD j = if i = j ∧ j < w then b else v.getLsbD j := by
  unfold setBit
  by_cases hj : j < w
  · by_cases h : i = j
    · subst h; cases b <;> simp [hj]
    · have h' : ¬ j = i := fun e => h e.symm
      cases b <;> simp [hj, h, h']
  · simp [hj, BitVec.getLsbD_of_ge _ _ (Nat.le_of_not_lt hj)]

theorem testBit_natOfBits (bs : List Bool) (i : Nat) :
    (natOfBits bs).testBit i = bs.getD i false := by
  induction bs generalizing i with
  | nil => simp [natOfBits]
  | cons b rest ih =>
    cases i with
    | zero => cases b <;> simp [natOfBits, Nat.testBit_zero]
    | succ i =>
      have : (b.toNat + 2 * natOfBits rest) / 2 = natOfBits rest := by
        cases b <;> simp; omega
      simp [natOfBits, Nat.testBit_succ, this, ih]

/-- The cells of an updated row. -/
theorem getLsbD_updateRow (r : Row) (n : Nat) (f : Nat → Bool) (x : Nat) (hn : n ≤ 177) :
    (updateRow r n f).getLsbD x = if x < n then f x else r.getLsbD x := by
  unfold updateRow
  rw [BitVec.getLsbD_or, BitVec.getLsbD_shiftLeft, BitVec.getLsbD_ushiftRight,
    BitVec.getLsbD_ofNat, testBit_natOfBits, List.getD]
  by_cases hx : x < n
  · simp [hx, show x < 177 by omega]
  · by_cases h177 : x < 177
    · simp [hx, h177, show n + (x - n) = x by omega]
    · simp [hx, h177, BitVec.getLsbD_of_ge r x (by omega)]

/-- A cell after one cell was written. -/
theorem Memory.cell_setCell (p : Plane id) (x y i j : Nat) (b : Bool) (hx : x < 177) :
    (p.setCell x y b).cell i j = if x = i ∧ y = j then b else p.cell i j := by
  unfold Memory.cell Memory.setCell
  rw [Memory.read_write]
  by_cases hy : y = j
  · subst hy
    rw [if_pos rfl, getLsbD_setBit]
    by_cases h : x = i
    · subst h; simp [hx]
    · simp [h]
  · simp [hy]

/-- A cell after a square was mapped: new inside the square, kept outside it (R44). -/
theorem Memory.cell_mapSquare (p : Plane id) (n : Nat) (f : Nat → Nat → Bool) (x y : Nat)
    (hn : n ≤ 177) :
    (p.mapSquare n f).cell x y = if x < n ∧ y < n then f x y else p.cell x y := by
  unfold Memory.cell Memory.mapSquare
  rw [Memory.read_writeBlock]
  by_cases hy : y < n
  · simp [hy, List.getD, getLsbD_updateRow _ _ _ _ hn]
  · simp [hy]

/-- Mapping a square keeps the canonical form. -/
theorem Memory.wf_mapSquare {p : Plane id} (n : Nat) (f : Nat → Nat → Bool) (hn : n ≤ 177)
    (h : p.wf 177 = true) : (p.mapSquare n f).wf 177 = true :=
  Memory.wf_writeBlock 0 _ (by simpa using hn) h

end Sys2Proof.Machine
end

