-- ==== Sys2Proof/Laws/BitBuffer.lean ====
section
/-! SUPPORT. The bit buffer after `push`, bit by bit, and the lengths of what the commands push. -/

namespace Sys2Proof.Machine

open Sys2Proof

/-- One bit pushed at position `p`: that bit, and every other one unchanged (R100). -/
theorem bufferBit_pushAt (d : Memory .data 8) (p q : Nat) (b : Bool) :
    bufferBit (pushAt d p b) q = if p = q then b else bufferBit d q := by
  unfold bufferBit pushAt
  rw [Memory.read_write]
  by_cases h8 : p / 8 = q / 8
  · rw [if_pos h8, getLsbD_setBit]
    by_cases h : p = q
    · subst h; simp [show 7 - p % 8 < 8 by omega]
    · have hne : ¬ 7 - p % 8 = 7 - q % 8 := by omega
      simp [h, hne, h8]
  · rw [if_neg h8, if_neg (by rintro rfl; exact h8 rfl)]

/-- The buffer after bits were pushed from position `p` on (R100). -/
theorem bufferBit_pushBits (bs : List Bool) (d : Memory .data 8) (p q : Nat) :
    bufferBit (pushBits d p bs) q =
      if p ≤ q ∧ q < p + bs.length then bs.getD (q - p) false else bufferBit d q := by
  induction bs generalizing d p with
  | nil => simp [pushBits, show ¬ (p ≤ q ∧ q < p) by omega]
  | cons b rest ih =>
    rw [pushBits, ih, bufferBit_pushAt]
    by_cases h : p = q
    · subst h; simp
    · by_cases h2 : p + 1 ≤ q ∧ q < p + 1 + rest.length
      · rw [if_pos h2, if_pos (by simp; omega), show q - p = (q - (p + 1)) + 1 by omega,
          List.getD_cons_succ]
      · rw [if_neg h2, if_neg h, if_neg (by simp; omega)]

/-- Pushing inside the buffer keeps DATA canonical. -/
theorem wf_pushBits (bs : List Bool) (d : Memory .data 8) (p : Nat)
    (hp : p + bs.length ≤ 32768) (h : d.wf 4096 = true) : (pushBits d p bs).wf 4096 = true := by
  induction bs generalizing d p with
  | nil => exact h
  | cons b rest ih =>
    simp only [List.length_cons] at hp
    exact ih _ _ (by omega) (Memory.wf_write _ _ (by omega) h)

/-- A byte of DATA is its eight buffer bits. -/
theorem read_eq_of_bufferBits (d : Memory .data 8) (j : Nat) (v : Byte)
    (h : ∀ i < 8, bufferBit d (8 * j + i) = v.getLsbD (7 - i)) : d.read j = v := by
  apply BitVec.eq_of_getLsbD_eq
  intro i hi
  have := h (7 - i) (by omega)
  unfold bufferBit at this
  rw [show (8 * j + (7 - i)) / 8 = j by omega, show 7 - (8 * j + (7 - i)) % 8 = i by omega,
    show 7 - (7 - i) = i by omega] at this
  exact this

@[simp] theorem length_appendBits (s : State) (n : Nat) : (s.appendBits n).length = n := by
  simp [State.appendBits]

@[simp] theorem length_byteBits (b : Byte) : (byteBits b).length = 8 := by
  simp [byteBits]

/-- BP_FINALIZE pushes exactly what the buffer lacks of its capacity (R103). -/
theorem length_finalizeBits (len dcw : Nat) (h : len ≤ 8 * dcw) :
    (finalizeBits len (8 * dcw)).length = 8 * dcw - len := by
  simp only [finalizeBits, List.length_append, List.length_replicate, List.length_flatMap,
    length_byteBits, List.map_const', List.sum_replicate, List.length_range, smul_eq_mul]
  omega

end Sys2Proof.Machine
end

