-- ==== Sys2Proof/Laws/State.lean ====
section
/-! SUPPORT. What each named update of the state leaves in each field, all true by `rfl`: no later proof
unfolds a record update. -/

namespace Sys2Proof.Machine

open Sys2Proof

/-- Taking an error writes ERR, ERRCODE, ERRINFO0, ERRINFO1. -/
@[simp] theorem State.fail_fields (s : State) (e : Raise) :
    (s.fail e).irqEn = s.irqEn ∧
    (s.fail e).status = { s.status with err := true, errcode := BitVec.ofNat 8 e.code } ∧
    (s.fail e).config = s.config ∧
    (s.fail e).cmd = s.cmd ∧
    (s.fail e).arg0 = s.arg0 ∧
    (s.fail e).arg1 = s.arg1 ∧
    (s.fail e).result = s.result ∧
    (s.fail e).bitlen = s.bitlen ∧
    (s.fail e).errinfo0 = e.info0 ∧
    (s.fail e).errinfo1 = e.info1 ∧
    (s.fail e).best = s.best ∧
    (s.fail e).score = s.score ∧
    (s.fail e).pen = s.pen ∧
    (s.fail e).gen = s.gen ∧
    (s.fail e).rsout = s.rsout ∧
    (s.fail e).data = s.data ∧
    (s.fail e).cw = s.cw ∧
    (s.fail e).mod = s.mod ∧
    (s.fail e).func = s.func ∧
    (s.fail e).eng = s.eng ∧
    (s.fail e).params = s.params ∧
    (s.fail e).draws = s.draws ∧
    (s.fail e).host = s.host ∧
    (s.fail e).readData = s.readData := by
  refine ⟨rfl, rfl, rfl, rfl, rfl, rfl, rfl, rfl, rfl, rfl, rfl, rfl, rfl, rfl, rfl, rfl, rfl, rfl, rfl, rfl, rfl, rfl, rfl, rfl⟩

/-- Completion writes DONE and `eng`. -/
@[simp] theorem State.complete_fields (s : State) :
    (s.complete).irqEn = s.irqEn ∧
    (s.complete).status = { s.status with done := true } ∧
    (s.complete).config = s.config ∧
    (s.complete).cmd = s.cmd ∧
    (s.complete).arg0 = s.arg0 ∧
    (s.complete).arg1 = s.arg1 ∧
    (s.complete).result = s.result ∧
    (s.complete).bitlen = s.bitlen ∧
    (s.complete).errinfo0 = s.errinfo0 ∧
    (s.complete).errinfo1 = s.errinfo1 ∧
    (s.complete).best = s.best ∧
    (s.complete).score = s.score ∧
    (s.complete).pen = s.pen ∧
    (s.complete).gen = s.gen ∧
    (s.complete).rsout = s.rsout ∧
    (s.complete).data = s.data ∧
    (s.complete).cw = s.cw ∧
    (s.complete).mod = s.mod ∧
    (s.complete).func = s.func ∧
    (s.complete).eng = .idle ∧
    (s.complete).params = s.params ∧
    (s.complete).draws = s.draws ∧
    (s.complete).host = s.host ∧
    (s.complete).readData = s.readData := by
  refine ⟨rfl, rfl, rfl, rfl, rfl, rfl, rfl, rfl, rfl, rfl, rfl, rfl, rfl, rfl, rfl, rfl, rfl, rfl, rfl, rfl, rfl, rfl, rfl, rfl⟩

/-- Acceptance writes CMD, DONE, `eng`, and draws a latency. -/
@[simp] theorem State.accept_fields (s : State) (c : Word) :
    (s.accept c).irqEn = s.irqEn ∧
    (s.accept c).status = { s.status with done := false } ∧
    (s.accept c).config = s.config ∧
    (s.accept c).cmd = c ∧
    (s.accept c).arg0 = s.arg0 ∧
    (s.accept c).arg1 = s.arg1 ∧
    (s.accept c).result = s.result ∧
    (s.accept c).bitlen = s.bitlen ∧
    (s.accept c).errinfo0 = s.errinfo0 ∧
    (s.accept c).errinfo1 = s.errinfo1 ∧
    (s.accept c).best = s.best ∧
    (s.accept c).score = s.score ∧
    (s.accept c).pen = s.pen ∧
    (s.accept c).gen = s.gen ∧
    (s.accept c).rsout = s.rsout ∧
    (s.accept c).data = s.data ∧
    (s.accept c).cw = s.cw ∧
    (s.accept c).mod = s.mod ∧
    (s.accept c).func = s.func ∧
    (s.accept c).eng = .run c (Config.latency s.draws) ∧
    (s.accept c).params = s.params ∧
    (s.accept c).draws = s.draws + 1 ∧
    (s.accept c).host = s.host ∧
    (s.accept c).readData = s.readData := by
  refine ⟨rfl, rfl, rfl, rfl, rfl, rfl, rfl, rfl, rfl, rfl, rfl, rfl, rfl, rfl, rfl, rfl, rfl, rfl, rfl, rfl, rfl, rfl, rfl, rfl⟩

/-- A word placed in flight writes CMD, DONE, `eng`. -/
@[simp] theorem State.inFlight_fields (s : State) (c : Word) :
    (s.inFlight c).irqEn = s.irqEn ∧
    (s.inFlight c).status = { s.status with done := false } ∧
    (s.inFlight c).config = s.config ∧
    (s.inFlight c).cmd = c ∧
    (s.inFlight c).arg0 = s.arg0 ∧
    (s.inFlight c).arg1 = s.arg1 ∧
    (s.inFlight c).result = s.result ∧
    (s.inFlight c).bitlen = s.bitlen ∧
    (s.inFlight c).errinfo0 = s.errinfo0 ∧
    (s.inFlight c).errinfo1 = s.errinfo1 ∧
    (s.inFlight c).best = s.best ∧
    (s.inFlight c).score = s.score ∧
    (s.inFlight c).pen = s.pen ∧
    (s.inFlight c).gen = s.gen ∧
    (s.inFlight c).rsout = s.rsout ∧
    (s.inFlight c).data = s.data ∧
    (s.inFlight c).cw = s.cw ∧
    (s.inFlight c).mod = s.mod ∧
    (s.inFlight c).func = s.func ∧
    (s.inFlight c).eng = .run c 0 ∧
    (s.inFlight c).params = s.params ∧
    (s.inFlight c).draws = s.draws ∧
    (s.inFlight c).host = s.host ∧
    (s.inFlight c).readData = s.readData := by
  refine ⟨rfl, rfl, rfl, rfl, rfl, rfl, rfl, rfl, rfl, rfl, rfl, rfl, rfl, rfl, rfl, rfl, rfl, rfl, rfl, rfl, rfl, rfl, rfl, rfl⟩

/-- Pushing bits writes DATA and BITLEN. -/
@[simp] theorem State.pushAll_fields (s : State) (bs : List Bool) :
    (s.pushAll bs).irqEn = s.irqEn ∧
    (s.pushAll bs).status = s.status ∧
    (s.pushAll bs).config = s.config ∧
    (s.pushAll bs).cmd = s.cmd ∧
    (s.pushAll bs).arg0 = s.arg0 ∧
    (s.pushAll bs).arg1 = s.arg1 ∧
    (s.pushAll bs).result = s.result ∧
    (s.pushAll bs).bitlen = BitVec.ofNat 16 (s.bitlen.toNat + bs.length) ∧
    (s.pushAll bs).errinfo0 = s.errinfo0 ∧
    (s.pushAll bs).errinfo1 = s.errinfo1 ∧
    (s.pushAll bs).best = s.best ∧
    (s.pushAll bs).score = s.score ∧
    (s.pushAll bs).pen = s.pen ∧
    (s.pushAll bs).gen = s.gen ∧
    (s.pushAll bs).rsout = s.rsout ∧
    (s.pushAll bs).data = pushBits s.data s.bitlen.toNat bs ∧
    (s.pushAll bs).cw = s.cw ∧
    (s.pushAll bs).mod = s.mod ∧
    (s.pushAll bs).func = s.func ∧
    (s.pushAll bs).eng = s.eng ∧
    (s.pushAll bs).params = s.params ∧
    (s.pushAll bs).draws = s.draws ∧
    (s.pushAll bs).host = s.host ∧
    (s.pushAll bs).readData = s.readData := by
  refine ⟨rfl, rfl, rfl, rfl, rfl, rfl, rfl, rfl, rfl, rfl, rfl, rfl, rfl, rfl, rfl, rfl, rfl, rfl, rfl, rfl, rfl, rfl, rfl, rfl⟩

/-- Soft reset keeps the four memories but for those an abort loses, and the model's own fields. -/
@[simp] theorem State.softReset_fields (s : State) :
    (s.softReset).irqEn = false ∧
    (s.softReset).status = Status.reset ∧
    (s.softReset).config = ConfigReg.reset ∧
    (s.softReset).cmd = 0#32 ∧
    (s.softReset).arg0 = 0#32 ∧
    (s.softReset).arg1 = 0#32 ∧
    (s.softReset).result = 0#32 ∧
    (s.softReset).bitlen = 0#16 ∧
    (s.softReset).errinfo0 = 0#32 ∧
    (s.softReset).errinfo1 = 0#32 ∧
    (s.softReset).best = Best.reset ∧
    (s.softReset).score = ScoreRegs.reset ∧
    (s.softReset).pen = Vector.replicate 8 0#32 ∧
    (s.softReset).gen = Vector.replicate 32 0#8 ∧
    (s.softReset).rsout = Vector.replicate 32 0#8 ∧
    (s.softReset).data = s.data.afterAbort s.lost ∧
    (s.softReset).cw = s.cw.afterAbort s.lost ∧
    (s.softReset).mod = s.mod.afterAbort s.lost ∧
    (s.softReset).func = s.func.afterAbort s.lost ∧
    (s.softReset).eng = .idle ∧
    (s.softReset).params = s.params ∧
    (s.softReset).draws = s.draws ∧
    (s.softReset).host = s.host ∧
    (s.softReset).readData = s.readData := by
  refine ⟨rfl, rfl, rfl, rfl, rfl, rfl, rfl, rfl, rfl, rfl, rfl, rfl, rfl, rfl, rfl, rfl, rfl, rfl, rfl, rfl, rfl, rfl, rfl, rfl⟩

end Sys2Proof.Machine
end

