-- ==== Sys2Proof/Laws/Ops.lean ====
section
/-! SUPPORT. What the shared operations can do, once each: completion, the version check, abort, and the
state a command's meaning answers. -/

namespace Sys2Proof.Machine

open Sys2Proof

/-- The body of each command, as `exec` completes it. -/
def bodyOf (i : Instr) (s : State) : Except Raise State :=
  match i with
  | .nop => .ok s
  | .bpClear => bodyBpClear s
  | .bpAppend n => bodyBpAppend n s
  | .bpFinalize => bodyBpFinalize s
  | .gfMul => bodyGfMul s
  | .gfExp => bodyGfExp s
  | .rsGenpoly deg => bodyRsGenpoly deg s
  | .rsEncode deg => bodyRsEncode deg s
  | .rsSyndrome nsyn => bodyRsSyndrome nsyn s
  | .interleave => bodyInterleave s
  | .gridClear => bodyGridClear s
  | .place => bodyPlace s
  | .maskApply m => bodyMaskApply m s
  | .formatWrite m => bodyFormatWrite m s
  | .score => bodyScore s
  | .maskSelect => bodyMaskSelect s

/-- Every command's meaning is the completion of its body. -/
theorem exec_eq_completes (i : Instr) (s : State) : exec i s = completes s (bodyOf i s) := by
  cases i <;> rfl

/-- A command answers exactly the state in which its body has finished. -/
@[simp] theorem completes_eq_next (s t : State) (b : Except Raise State) :
    completes s b = .next t ↔ s.finish b = t := by
  simp [completes]

@[simp] theorem State.finish_ok (s t : State) : s.finish (.ok t) = t.complete := rfl

@[simp] theorem State.finish_error (s : State) (e : Raise) :
    s.finish (.error e) = (s.fail e).complete := rfl

/-- A finished command is one of two: its body's writes and DONE, or its error and DONE. -/
theorem State.finish_cases (s : State) (b : Except Raise State) :
    (∃ t, b = .ok t ∧ s.finish b = t.complete) ∨
    (∃ e, b = .error e ∧ s.finish b = (s.fail e).complete) := by
  cases b with
  | ok t => exact .inl ⟨t, rfl, rfl⟩
  | error e => exact .inr ⟨e, rfl, rfl⟩

/-- The version check: the body on the current geometry, or ILLEGAL_PARAM (R47). -/
theorem State.withGeometry_eq (s : State) (body : Geometry → Except Raise State) :
    s.withGeometry body =
      if 1 ≤ s.version ∧ s.version ≤ 40 then body s.geom else .error .illegalParam := by
  unfold State.withGeometry legalVersion Config.maxVersion
  by_cases h : 1 ≤ s.version ∧ s.version ≤ 40
  · simp [h]
  · rw [if_neg h, if_neg (by simpa using h)]

/-- A raised error is one of the codes 1 to 5 (R210). -/
theorem Raise.code_le (e : Raise) : e.code ≤ 5 := by
  cases e <;> simp [Raise.code]

@[simp] theorem State.busy_complete (s : State) : s.complete.busy = false := rfl

@[simp] theorem State.busy_accept (s : State) (c : Word) : (s.accept c).busy = true := rfl

@[simp] theorem State.busy_softReset (s : State) : s.softReset.busy = false := rfl

/-- A memory after an abort is kept or lost (R241). -/
theorem Memory.afterAbort_cases {id : MemId} {w : Nat} (m : Memory id w) (lost : List MemId) :
    (id ∈ lost ∧ m.afterAbort lost = m.lose) ∨ (id ∉ lost ∧ m.afterAbort lost = m) := by
  unfold Memory.afterAbort
  by_cases h : id ∈ lost
  · exact .inl ⟨h, by simp [h]⟩
  · exact .inr ⟨h, by simp [h]⟩

/-- The latency drawn for a command is at least 1 and at most P_LATENCY (R260). -/
theorem Config.latency_bounds (draw : Nat) :
    1 ≤ Config.latency draw ∧ Config.latency draw ≤ Config.pLatency := by
  unfold Config.latency
  have := Nat.mod_lt (Config.latencyDraw draw) (show 0 < Config.pLatency by simp [Config.pLatency])
  omega

/-- The step with a command in flight whose latency has passed. -/
theorem step_of_run_zero {s : State} {c : Word} (h : s.eng = .run c 0) :
    step s = completeCommand c s := by
  simp [step, advance, h]

/-- The step with a command in flight and no host transfer left. -/
theorem step_of_run_no_host {s : State} {c : Word} {k : Nat} (h : s.eng = .run c k)
    (hh : s.host = []) : step s = completeCommand c s := by
  cases k with
  | zero => exact step_of_run_zero h
  | succ k => simp [step, advance, h, hh]

/-- The step with a command in flight and a host transfer to make first. -/
theorem step_of_run_host {s : State} {c : Word} {k : Nat} {op : HostOp} {rest : List HostOp}
    (h : s.eng = .run c (k + 1)) (hh : s.host = op :: rest) :
    step s = hostStep op rest { s with eng := .run c k } := by
  simp [step, advance, hostTurn, h, hh]

/-- The step of an idle block. -/
theorem step_of_idle {s : State} (h : s.eng = .idle) :
    step s = match s.host with
      | [] => .next s
      | op :: rest => hostStep op rest s := by
  simp only [step, advance, h, hostTurn]
  cases hs : s.host with
  | nil => rfl
  | cons op rest => simp only; congr 1; cases s; simp_all

/-- A command completes as its meaning says, or with ILLEGAL_OPCODE (R214). -/
theorem completeCommand_eq (c : Word) (s : State) :
    completeCommand c s = completes s
      (match decode c with
        | .ok i => bodyOf i s
        | .error _ => .error (.illegalOpcode c)) := by
  unfold completeCommand
  cases decode c with
  | ok i => exact exec_eq_completes i s
  | error _ => rfl

end Sys2Proof.Machine
end

