-- ==== Sys2Proof/Laws/PerInstr.lean ====
section
/-! SUPPORT. The families of statements made once per instruction (LAWS.json). -/

namespace Sys2Proof.Laws

open Sys2Proof

/-- The fields of a command's word (R80): OPC in bits [7:0], F1 in bits [15:8], RSV = 0. -/
def Fields.Statement (i : Instr) : Prop :=
  i.wf = true → field (encode i) 0 8 = i.opc ∧ field (encode i) 8 8 = i.f1 ∧ field (encode i) 16 16 = 0

/-- Where both bytes fit, they stand in their fields. -/
theorem fields_of_lt (f1 opc : Nat) (h1 : f1 < 256) (h2 : opc < 256) :
    field (BitVec.ofNat 32 (f1 * 2 ^ 8 + opc)) 0 8 = opc ∧
    field (BitVec.ofNat 32 (f1 * 2 ^ 8 + opc)) 8 8 = f1 ∧
    field (BitVec.ofNat 32 (f1 * 2 ^ 8 + opc)) 16 16 = 0 := by
  simp only [field, BitVec.toNat_ofNat, Nat.shiftRight_eq_div_pow]
  omega

theorem Fields.nop : Fields.Statement .nop := fun _ => fields_of_lt 0 0x00 (by decide) (by decide)

theorem Fields.bpClear : Fields.Statement .bpClear :=
  fun _ => fields_of_lt 0 0x01 (by decide) (by decide)

theorem Fields.bpAppend (n : Nat) : Fields.Statement (.bpAppend n) :=
  fun h => fields_of_lt n 0x02 (by simpa [Instr.wf] using h) (by decide)

theorem Fields.bpFinalize : Fields.Statement .bpFinalize :=
  fun _ => fields_of_lt 0 0x03 (by decide) (by decide)

theorem Fields.gfMul : Fields.Statement .gfMul :=
  fun _ => fields_of_lt 0 0x10 (by decide) (by decide)

theorem Fields.gfExp : Fields.Statement .gfExp :=
  fun _ => fields_of_lt 0 0x11 (by decide) (by decide)

theorem Fields.rsGenpoly (deg : Nat) : Fields.Statement (.rsGenpoly deg) :=
  fun h => fields_of_lt deg 0x12 (by simpa [Instr.wf] using h) (by decide)

theorem Fields.rsEncode (deg : Nat) : Fields.Statement (.rsEncode deg) :=
  fun h => fields_of_lt deg 0x13 (by simpa [Instr.wf] using h) (by decide)

theorem Fields.rsSyndrome (nsyn : Nat) : Fields.Statement (.rsSyndrome nsyn) :=
  fun h => fields_of_lt nsyn 0x14 (by simpa [Instr.wf] using h) (by decide)

theorem Fields.interleave : Fields.Statement .interleave :=
  fun _ => fields_of_lt 0 0x20 (by decide) (by decide)

theorem Fields.gridClear : Fields.Statement .gridClear :=
  fun _ => fields_of_lt 0 0x21 (by decide) (by decide)

theorem Fields.place : Fields.Statement .place :=
  fun _ => fields_of_lt 0 0x22 (by decide) (by decide)

theorem Fields.maskApply (m : Nat) : Fields.Statement (.maskApply m) :=
  fun h => fields_of_lt m 0x30 (by have : m < 8 := by simpa [Instr.wf] using h
                                   omega) (by decide)

theorem Fields.formatWrite (m : Nat) : Fields.Statement (.formatWrite m) :=
  fun h => fields_of_lt m 0x31 (by have : m < 8 := by simpa [Instr.wf] using h
                                   omega) (by decide)

theorem Fields.score : Fields.Statement .score :=
  fun _ => fields_of_lt 0 0x32 (by decide) (by decide)

theorem Fields.maskSelect : Fields.Statement .maskSelect :=
  fun _ => fields_of_lt 0 0x33 (by decide) (by decide)

end Sys2Proof.Laws
end

