-- ==== Sys2Proof/Tests/Slice0.lean ====
section
/-! SUPPORT. Tests of single steps against the vectors of spec/95_test_vectors.md (cited by their numbers),
decodings of words written out from the spec, and for each obligation with hypotheses a witness that meets
them. -/

namespace Sys2Proof.Tests

set_option Elab.async false

open Sys2Proof Sys2Proof.Machine

/-! ### Helpers -/

/-- A step answers a next state, and that state passes a check. -/
def answers (o : Host.Outcome State Fault Refusal) (check : State → Bool) : Bool :=
  match o with
  | .next t => check t
  | .fault _ => false
  | .refused _ => false

/-- A command failed: DONE, ERR, the code, the information, and nothing but STATUS and ERRINFO changed. -/
def failsWith (i : Instr) (s : State) (code info0 info1 : Nat) : Bool :=
  answers (exec i s) fun t => t == failed s (BitVec.ofNat 8 code) (word info0) (word info1)

/-- Power-on reset with CONFIG, ARG0, ARG1 written. -/
def with3 (config arg0 arg1 : Nat) : State :=
  { State.reset with config := ConfigReg.ofWord (word config), arg0 := word arg0, arg1 := word arg1 }

/-- Bytes written to DATA from 0 on, and BITLEN. -/
def withData (s : State) (bs : List Nat) (bitlen : Nat) : State :=
  { s with data := s.data.writeBlock 0 (bs.map (BitVec.ofNat 8)), bitlen := BitVec.ofNat 16 bitlen }

/-- Rows of MOD and FUNC written from row 0 on. -/
def withRows (s : State) (m f : List Nat) : State :=
  { s with mod := s.mod.writeBlock 0 (m.map (BitVec.ofNat 177)),
           func := s.func.writeBlock 0 (f.map (BitVec.ofNat 177)) }

/-- `k` rows holding `v`. -/
def rows (k v : Nat) : List Nat := List.replicate k v

/-- A cleared 21 × 21 corner of both planes. -/
def cleared (config : Nat) : State := withRows (with3 config 0 0) (rows 21 0) (rows 21 0)

/-- Bytes of a memory from 0 on, as numbers. -/
def bytesOf {id : MemId} (m : Memory id 8) (k n : Nat) : List Nat := (m.readBlock k n).map BitVec.toNat

/-- Rows of a plane from 0 on, as numbers. -/
def rowsOf {id : MemId} (p : Plane id) (n : Nat) : List Nat := (p.readBlock 0 n).map BitVec.toNat

/-- The first bytes of a file, as numbers. -/
def fileOf (f : Vector Byte 32) (n : Nat) : List Nat := (f.toList.take n).map BitVec.toNat

/-- CW holding the first `n` bytes of IL-1. -/
def il1 : List Nat :=
  [0x20, 0x5B, 0x0B, 0x78, 0xD1, 0x72, 0xDC, 0x4D, 0x43, 0x40, 0xEC, 0x11, 0xEC, 0xA8, 0x48, 0x16,
   0x52, 0xD9, 0x36, 0x9C, 0x00, 0x2E, 0x0F, 0xB4, 0x7A, 0x10]

/-- A state with IL-1's codewords in CW, version 1, FUNC rows all `v`, MOD rows all `m` (R160, PL-4, PL-5). -/
def placeState (v m : Nat) : State :=
  { withRows (with3 0x201 0 0) (rows 21 m) (rows 21 v) with
    cw := (Memory.unwritten .cw 8).writeBlock 0 (il1.map (BitVec.ofNat 8)) }

/-! ### Decoding: words written out from R80 and R83, as RSV (16), F1 (8), OPC (8) -/

theorem test_decode_nop : decode 0b0000000000000000_00000000_00000000#32 = .ok .nop := by decide
theorem test_decode_bp_clear : decode 0b0000000000000000_00000000_00000001#32 = .ok .bpClear := by decide
theorem test_decode_bp_append : decode 0b0000000000000000_00100000_00000010#32 = .ok (.bpAppend 32) := by
  decide
theorem test_decode_bp_finalize : decode 0b0000000000000000_00000000_00000011#32 = .ok .bpFinalize := by
  decide
theorem test_decode_gf_mul : decode 0b0000000000000000_00000000_00010000#32 = .ok .gfMul := by decide
theorem test_decode_gf_exp : decode 0b0000000000000000_00000000_00010001#32 = .ok .gfExp := by decide
theorem test_decode_rs_genpoly : decode 0b0000000000000000_00001010_00010010#32 = .ok (.rsGenpoly 10) := by
  decide
theorem test_decode_rs_encode : decode 0b0000000000000000_00011110_00010011#32 = .ok (.rsEncode 30) := by
  decide
theorem test_decode_rs_syndrome :
    decode 0b0000000000000000_11111111_00010100#32 = .ok (.rsSyndrome 255) := by decide
theorem test_decode_interleave : decode 0b0000000000000000_00000000_00100000#32 = .ok .interleave := by
  decide
theorem test_decode_grid_clear : decode 0b0000000000000000_00000000_00100001#32 = .ok .gridClear := by
  decide
theorem test_decode_place : decode 0b0000000000000000_00000000_00100010#32 = .ok .place := by decide
theorem test_decode_mask_apply : decode 0b0000000000000000_00000111_00110000#32 = .ok (.maskApply 7) := by
  decide
theorem test_decode_format_write :
    decode 0b0000000000000000_00000101_00110001#32 = .ok (.formatWrite 5) := by decide
theorem test_decode_score : decode 0b0000000000000000_00000000_00110010#32 = .ok .score := by decide
theorem test_decode_mask_select : decode 0b0000000000000000_00000000_00110011#32 = .ok .maskSelect := by
  decide

/-- DE-2, DE-3, DE-4, DE-5, DE-8, GF-14, MK-4. -/
theorem test_decode_rejected :
    decode 0x00000004#32 = .error .undefinedOpcode ∧ decode 0x000000FF#32 = .error .undefinedOpcode ∧
    decode 0x00010000#32 = .error .reservedBits ∧ decode 0x00000101#32 = .error .reservedField ∧
    decode 0x00012002#32 = .error .reservedBits ∧ decode 0x00000110#32 = .error .reservedField ∧
    decode 0x00000830#32 = .error .reservedField := by decide

/-! ### Well-formedness: one ill-formed term for each check -/

theorem test_wf_refuses_append : (Instr.bpAppend 256).wf = false := by decide
theorem test_wf_refuses_genpoly : (Instr.rsGenpoly 256).wf = false := by decide
theorem test_wf_refuses_encode : (Instr.rsEncode 256).wf = false := by decide
theorem test_wf_refuses_syndrome : (Instr.rsSyndrome 256).wf = false := by decide
theorem test_wf_refuses_mask_apply : (Instr.maskApply 8).wf = false := by decide
theorem test_wf_refuses_format_write : (Instr.formatWrite 8).wf = false := by decide

/-! ### Commands -/

/-- R200: from reset STATUS goes to DONE. -/
theorem test_nop : answers (exec .nop State.reset) (fun t => t.statusWord == 0x00000002#32) = true := by
  decide +kernel

/-- R101: BITLEN 74 becomes 0, and DATA reads 0. -/
theorem test_bp_clear :
    answers (exec .bpClear (withData State.reset [0xFF, 0xFF] 74))
      (fun t => t.bitlen == 0#16 && bytesOf t.data 0 3 == [0, 0, 0] && bytesOf t.data 4095 1 == [0]) =
    true := by decide +kernel

/-- BP-1, its last append. -/
theorem test_bp_append_across_a_byte :
    answers (exec (.bpAppend 9) (withData (with3 1 0x1FF 0) [0xAC, 0x00] 6))
      (fun t => t.bitlen == 15#16 && bytesOf t.data 0 2 == [0xAF, 0xFE]) = true := by decide +kernel

/-- BP-12: a full buffer refuses one bit more. -/
theorem test_bp_append_full :
    failsWith (.bpAppend 1) (withData (with3 1 1 0) [] 32768) 1 32769 32768 = true := by decide +kernel

/-- BP-6: three bits, terminator, one pad bit, pad bytes. -/
theorem test_bp_finalize :
    answers (exec .bpFinalize (withData (with3 1 0 0) (0xE0 :: rows 18 0) 3))
      (fun t => t.bitlen == 152#16 && bytesOf t.data 0 4 == [0xE0, 0xEC, 0x11, 0xEC] &&
        bytesOf t.data 18 1 == [0x11]) = true := by decide +kernel

/-- BP-14. -/
theorem test_bp_finalize_over_capacity :
    failsWith .bpFinalize (withData (with3 1 0 0) [] 153) 2 153 152 = true := by decide +kernel

/-- GF-7. -/
theorem test_gf_mul :
    answers (exec .gfMul (with3 1 0x53 0xCA)) (fun t => t.result == 0x8F#32) = true := by decide +kernel

/-- GF-10: the upper bits are ignored. -/
theorem test_gf_mul_low_bytes :
    answers (exec .gfMul (with3 1 0xFFFFFF03 0x12345607)) (fun t => t.result == 0x09#32) = true := by
  decide +kernel

/-- GF-12, GF-13. -/
theorem test_gf_exp :
    answers (exec .gfExp (with3 1 254 0)) (fun t => t.result == 0x8E#32) = true ∧
    answers (exec .gfExp (with3 1 0x108 0)) (fun t => t.result == 0x1D#32) = true := by decide +kernel

/-- GP-5, GP-6. -/
theorem test_rs_genpoly :
    answers (exec (.rsGenpoly 10) State.reset)
      (fun t => fileOf t.gen 12 == [0x01, 0xD8, 0xC2, 0x9F, 0x6F, 0xC7, 0x5E, 0x5F, 0x71, 0x9D, 0xC1, 0]) =
    true := by decide +kernel

/-- GP-7. -/
theorem test_rs_genpoly_range :
    failsWith (.rsGenpoly 0) State.reset 4 0 0 = true ∧
    failsWith (.rsGenpoly 31) State.reset 4 0 0 = true := by decide +kernel

/-- EN-3. -/
theorem test_rs_encode :
    answers (exec (.rsEncode 3) (withData (with3 1 0 3) [0x12, 0x34, 0x56] 0))
      (fun t => fileOf t.rsout 4 == [0x81, 0xC3, 0x32, 0]) = true := by decide +kernel

/-- EN-8 and EN-9: the empty block at the end of DATA, and a sum that must not wrap. -/
theorem test_rs_encode_edges :
    answers (exec (.rsEncode 10) (with3 1 4096 0))
      (fun t => t.status.err == false && fileOf t.rsout 10 == rows 10 0) = true ∧
    failsWith (.rsEncode 10) (with3 1 0xFFFFFFFF 2) 4 0 0 = true := by decide +kernel

/-- SY-3. -/
theorem test_rs_syndrome :
    answers (exec (.rsSyndrome 3) (withData (with3 1 0 3) [0x01, 0x00, 0x00] 0))
      (fun t => fileOf t.rsout 4 == [0x01, 0x04, 0x10, 0] && t.result == 0#32) = true := by decide +kernel

/-- SY-4 and SY-5: the HELLO WORLD 1-M codeword with 10 and 11 syndromes. -/
theorem test_rs_syndrome_of_a_codeword :
    let s := withData (with3 1 0 26)
      [0x20, 0x5B, 0x0B, 0x78, 0xD1, 0x72, 0xDC, 0x4D, 0x43, 0x40, 0xEC, 0x11, 0xEC, 0x11, 0xEC, 0x11,
       0xC4, 0x23, 0x27, 0x77, 0xEB, 0xD7, 0xE7, 0xE2, 0x5D, 0x17] 0
    answers (exec (.rsSyndrome 10) s) (fun t => fileOf t.rsout 10 == rows 10 0 && t.result == 1#32) = true ∧
    answers (exec (.rsSyndrome 11) s)
      (fun t => fileOf t.rsout 11 == rows 10 0 ++ [0x19] && t.result == 0#32) = true := by decide +kernel

/-- IL-1, at 1-Q. -/
theorem test_interleave :
    answers (exec .interleave (withData (with3 0x201 0 0) (il1.take 13) 0))
      (fun t => bytesOf t.cw 0 26 == il1) = true := by decide +kernel

/-- IL-2, at 5-Q: short blocks before long ones. -/
theorem test_interleave_long_blocks :
    answers (exec .interleave (withData (with3 0x205 0 0) (List.range 62) 0))
      (fun t => bytesOf t.cw 0 8 == [0, 15, 30, 46, 1, 16, 31, 47] &&
        bytesOf t.cw 56 10 == [14, 29, 44, 60, 45, 61, 130, 85, 18, 68] &&
        bytesOf t.cw 126 8 == [139, 168, 149, 132, 103, 154, 138, 19]) = true := by decide +kernel

/-- PL-1. -/
theorem test_grid_clear :
    answers (exec .gridClear (placeState 0x1FFFFF 0x1FFFFF))
      (fun t => rowsOf t.mod 177 == rows 177 0 && rowsOf t.func 177 == rows 177 0) = true := by
  decide +kernel

/-- PL-4, R160. -/
theorem test_place :
    answers (exec .place (placeState 0 0)) (fun t => rowsOf t.mod 21 ==
      [0x0EC000, 0x08A000, 0x042000, 0x0E0800, 0x1B4000, 0x067000, 0x10B000, 0x1A5800, 0x092800, 0x1F0000,
       0x136800, 0x023800, 0x01D000, 0x195800, 0x17B800, 0x0AE000, 0x080000, 0x009000, 0x001800, 0x161000,
       0x058000]) = true := by decide +kernel

/-- PL-5. -/
theorem test_place_overflow : failsWith .place (placeState 0x1FFFFF 0) 5 208 0 = true := by decide +kernel

/-- MK-2, dark cells of masks 3 and 5 on a cleared grid. -/
theorem test_mask_apply :
    answers (exec (.maskApply 3) (cleared 1)) (fun t => darkCells 21 t.mod.cell == 147) = true ∧
    answers (exec (.maskApply 5) (cleared 1)) (fun t => darkCells 21 t.mod.cell == 194) = true := by
  decide +kernel

/-- MK-3, its second part: function cells are not masked. -/
theorem test_mask_apply_keeps_function_cells :
    answers (exec (.maskApply 1) (placeState 0x1FFFFF 0x0ABCDE)) (fun t => rowsOf t.mod 21 == rows 21 0x0ABCDE)
    = true := by decide +kernel

/-- FW-4. -/
theorem test_format_write :
    answers (exec (.formatWrite 0) (cleared 1)) (fun t => rowsOf t.mod 21 ==
      [0, 0, 0x000100, 0, 0, 0, 0, 0x000100, 0x0461B7, 0, 0, 0, 0, 0x000100, 0x000100, 0x000100, 0x000100, 0,
       0x000100, 0x000100, 0x000100]) = true := by decide +kernel

/-- FW-2, FW-3. -/
theorem test_format_words :
    formatBits 1 0 = 0x5412 ∧ formatBits 1 5 = 0x40CE ∧ formatBits 0 0 = 0x77C4 ∧ formatBits 3 7 = 0x083B := by
  decide

/-- PN-6. -/
theorem test_score :
    answers (exec .score (cleared 1)) (fun t => t.score ==
      { total := 2098#32, n1 := 798#32, n2 := 1200#32, n3 := 0#32, n4 := 100#32, dark := 0#32 }) = true := by
  decide +kernel

/-- PN-4: with the border light, and without. -/
theorem test_n3_line :
    let line := [false, true, false, true, true, true, false, true, false, false, false, false, true, false,
      true, true, true, false, true, false, false]
    n3Count Params.default line = 4 ∧ n3Count { Params.default with n3BorderLight := false } line = 2 := by
  decide

/-- MS-2 for one forced candidate: mask 3 on a cleared grid at 1-L has the penalty 60. -/
theorem test_mask_select_forced :
    answers (exec .maskSelect (cleared 0x000B0001)) (fun t =>
      t.score.total == 60#32 && t.pen.toList == [0#32, 0#32, 0#32, 60#32, 0#32, 0#32, 0#32, 0#32] &&
        t.best.toWord == 0x00080103#32) = true := by decide +kernel

/-- MS-4. -/
theorem test_mask_select_version : failsWith .maskSelect (with3 0 0 0) 4 0 0 = true := by decide +kernel

/-! ### The engine and the bus -/

/-- DE-2: the word in flight is rejected at its completion. -/
theorem test_illegal_opcode :
    answers (step (State.reset.inFlight 0x00000004#32)) (fun t =>
      t == failed (State.reset.inFlight 0x00000004#32) 3#8 0x00000004#32 0#32 &&
        t.statusWord == 0x00000306#32) = true := by decide +kernel

/-- A placed table word runs in the very next step. -/
theorem test_with_fetch_word :
    answers (step ((with3 1 8 0).withFetchWord 32 0x00000011)) (fun t => t.result == 0x1D#32) = true := by
  decide +kernel

/-- GEOM: version 5 ECL L, and version 0. -/
theorem test_geometry_registers :
    (with3 5 0 0).busRead 0x024#15 = some (0x011A0125#32, with3 5 0 0) ∧
    (with3 5 0 0).busRead 0x028#15 = some (0x006C0086#32, with3 5 0 0) ∧
    (with3 0 0 0).busRead 0x024#15 = some (0#32, with3 0 0 0) := by decide +kernel

/-- R23, R33, R34, R65: STATUS and BEST by their bits, two score addresses, and the lanes of RSOUT's last word. -/
theorem test_idle_reads :
    let s := { State.reset with
      status := { done := true, err := false, wbusy := true, errcode := 0xA5#8 }
      best := { mask := 5#3, valid := true, penValid := 0x93#8 }
      score := { State.reset.score with total := 1#32, n1 := 2#32 }
      rsout := Vector.ofFn fun k => BitVec.ofNat 8 k.val }
    (s.busRead 0x008#15).map Prod.fst = some 0x0000A50A#32 ∧
    (s.busRead 0x038#15).map Prod.fst = some 0x00930105#32 ∧
    (s.busRead 0x03C#15).map Prod.fst = some 1#32 ∧ (s.busRead 0x040#15).map Prod.fst = some 2#32 ∧
    (s.busRead 0x13C#15).map Prod.fst = some 0x1F1E1D1C#32 := by decide +kernel

/-- P6: a write of ARG1 while busy is lost and sets WBUSY, and a soft reset ends the command. -/
theorem test_busy :
    let s := (with3 1 3 7).inFlight 0x00000010#32
    answers (hostStep (wr .arg1 (.lit 0xB#32)) [] s) (fun t => t.arg1 == 7#32 && t.status.wbusy) = true ∧
    answers (hostStep (wr .ctrl (.lit 2#32)) [] s) (fun t => t == State.reset) = true := by decide +kernel

/-- R63: misaligned, unmapped and partial transfers are faults of the host's program. -/
theorem test_bus_errors :
    hostStep (.read 0x002#15) [] State.reset = .fault (.busError 0x002#15) ∧
    hostStep (.read 0x054#15) [] State.reset = .fault (.busError 0x054#15) ∧
    hostStep (.write 0x014#15 (.lit 1#32) 0x3#4) [] State.reset = .fault (.busError 0x014#15) := by
  exact ⟨rfl, rfl, rfl⟩

/-! ### Witnesses: for each obligation with hypotheses, a state and operands that meet them, at the
boundary values of each clause -/

/-- The two ends of the legal versions. -/
theorem witness_versions :
    VersionLegal (with3 1 0 0) ∧ VersionLegal (with3 40 0 0) ∧
    ¬VersionLegal (with3 0 0 0) ∧ ¬VersionLegal (with3 41 0 0) := by unfold VersionLegal; decide +kernel

theorem witness_DecodeOfEncodeIsTheCommand :
    (Instr.bpAppend 255).wf = true ∧ (Instr.bpAppend 0).wf = true ∧ (Instr.maskApply 7).wf = true := by decide

theorem witness_EncodeOfDecodeIsTheWord :
    decode 0x0000FF02#32 = .ok (.bpAppend 255) ∧ decode 0x00000731#32 = .ok (.formatWrite 7) := by decide

theorem witness_IllegalOpcodeExactlyForRejectedWords :
    (State.reset.inFlight 0x00000830#32).eng = .run 0x00000830#32 0 ∧ IllegalWord 0x00000830#32 ∧
    (State.reset.inFlight 0x00000730#32).eng = .run 0x00000730#32 0 ∧ ¬IllegalWord 0x00000730#32 ∧
    State.reset.eng = .idle := by
  unfold IllegalWord; decide +kernel

theorem witness_StepRunsTheDecodedCommand :
    (State.reset.inFlight 0x00002002#32).eng = .run 0x00002002#32 0 ∧
    { State.reset with eng := .run 0x00002002#32 3 }.eng = .run 0x00002002#32 3 ∧
    { State.reset with eng := .run 0x00002002#32 3 }.host = [] ∧
    decode 0x00002002#32 = .ok (.bpAppend 32) := ⟨rfl, rfl, rfl, by decide⟩

theorem witness_OtherStepsAreHostTransfers :
    { State.reset with eng := .run 0#32 1, host := [.wait] }.eng = .run 0#32 (0 + 1) ∧
    { State.reset with eng := .run 0#32 1, host := [.wait] }.host = .wait :: [] ∧
    { State.reset with host := [HostOp.check] }.eng = .idle ∧
    { State.reset with host := [HostOp.check] }.host = .check :: [] ∧ State.reset.host = [] :=
  ⟨rfl, rfl, rfl, rfl, rfl⟩

/-- Every place is changed by some command. -/
theorem witness_OnlyNamedCommandsWriteEachPlace :
    answers (exec .bpClear State.reset) (fun t => t.data != State.reset.data) = true ∧
    answers (exec .interleave (withData (with3 0x201 0 0) (il1.take 13) 0))
      (fun t => t.cw != State.reset.cw) = true ∧
    answers (exec .gridClear State.reset)
      (fun t => t.func != State.reset.func && t.mod != State.reset.mod) = true ∧
    answers (exec (.rsGenpoly 1) State.reset) (fun t => t.gen != State.reset.gen) = true ∧
    answers (exec (.rsEncode 1) (withData (with3 1 0 1) [1] 0)) (fun t => t.rsout != State.reset.rsout) = true ∧
    answers (exec .gfMul (with3 1 1 1)) (fun t => t.result != State.reset.result) = true ∧
    answers (exec .score (cleared 1)) (fun t => t.score != State.reset.score) = true ∧
    answers (exec .maskSelect (cleared 0x000B0001))
      (fun t => t.best != State.reset.best && t.pen != State.reset.pen) = true := by decide +kernel

theorem witness_FailedCommandChangesOnlyStatus :
    answers (completeCommand 0x00000004#32 State.reset) (fun t => t.status.errcode == 3#8) = true ∧
    answers (exec (.bpAppend 33) State.reset) (fun t => t.status.errcode == 4#8) = true ∧
    answers (exec .gfExp State.reset) (fun t => t.status.errcode == 0#8) = true := by decide +kernel

/-- DE-6, DE-7, BP-13, EN-7, EN-8: each case of R212 just inside and just outside. -/
theorem witness_IllegalParamExactlyInTheListedCases :
    (IllegalParam (.bpAppend 33) State.reset ∧ ¬IllegalParam (.bpAppend 32) State.reset) ∧
    (IllegalParam (.rsGenpoly 0) State.reset ∧ IllegalParam (.rsGenpoly 31) State.reset ∧
      ¬IllegalParam (.rsGenpoly 30) State.reset) ∧
    (IllegalParam (.rsEncode 10) (with3 1 4090 7) ∧ ¬IllegalParam (.rsEncode 30) (with3 1 4096 0)) ∧
    (IllegalParam (.rsSyndrome 31) State.reset ∧ IllegalParam (.rsSyndrome 1) (with3 1 0xFFFFFFFF 2) ∧
      ¬IllegalParam (.rsSyndrome 1) (with3 1 0 4096)) ∧
    (IllegalParam .place (with3 41 0 0) ∧ ¬IllegalParam .place (with3 40 0 0)) := by
  simp only [IllegalParam, VersionLegal]; decide +kernel

theorem witness_WhatDoesNotFitFails :
    32768 < (withData (with3 1 1 0) [] 32768).bitlen.toNat + 1 ∧
    8 * (with3 1 0 0).geom.dcw < (withData (with3 1 0 0) [] 153).bitlen.toNat ∧
    (slots (side (placeState 0x1FFFFF 0)) (placeState 0x1FFFFF 0).func).length <
      8 * (placeState 0x1FFFFF 0).geom.tot := by decide +kernel

theorem witness_AppendAddsLowBitsMsbFirst :
    (withData State.reset [] 32768).bitlen.toNat + 0 ≤ 32768 ∧
    (withData State.reset [] 32736).bitlen.toNat + 32 ≤ 32768 := by decide +kernel

theorem witness_FinalizePadsToTheCapacity :
    State.reset.params.wf = true ∧
    (withData (with3 1 0 0) [] 0).bitlen.toNat ≤ 8 * (with3 1 0 0).geom.dcw ∧
    (withData (with3 1 0 0) [] 152).bitlen.toNat ≤ 8 * (with3 1 0 0).geom.dcw := by decide +kernel

theorem witness_FieldLawsHold : (1#8 : Byte) ≠ 0#8 ∧ gfMul 0x53#8 0x8C#8 = 1#8 := by decide

/-- GP-1, and the last degree. -/
theorem witness_GenpolyHasTheRootsOfTheGenerator :
    1 ≤ 1 ∧ 30 ≤ 30 ∧
    answers (exec (.rsGenpoly 1) State.reset) (fun t => fileOf t.gen 3 == [1, 1, 0]) = true ∧
    answers (exec (.rsGenpoly 30) State.reset) (fun t => !t.status.err) = true := by decide +kernel

/-- EN-3, the empty block of EN-5, and the last degree. -/
theorem witness_EncodedWordsHaveZeroSyndromes :
    1 ≤ 3 ∧ 3 ≤ 30 ∧ 30 ≤ 30 ∧ rsRemainder [0x12#8, 0x34#8, 0x56#8] 3 = [0x81#8, 0xC3#8, 0x32#8] ∧
    rsRemainder [] 7 = List.replicate 7 0#8 := by decide +kernel

theorem witness_EncodeWritesEccOfTheDataRange :
    (with3 1 4096 0).arg0.toNat + (with3 1 4096 0).arg1.toNat ≤ 4096 ∧
    (with3 1 0 4096).arg0.toNat + (with3 1 0 4096).arg1.toNat ≤ 4096 := by decide

theorem witness_SyndromesAreValuesAtPowersOfAlpha :
    (with3 1 1 4095).arg0.toNat + (with3 1 1 4095).arg1.toNat ≤ 4096 ∧
    (with3 1 4095 1).arg0.toNat + (with3 1 4095 1).arg1.toNat ≤ 4096 := by decide

/-- A nonzero word with zero syndromes: x + 1 at α^0, and the whole of g3 at α^2. -/
theorem witness_SyndromesOfAChangedByte :
    syndrome [1#8, 1#8] 0 = 0#8 ∧ syndrome [0x01#8, 0x07#8, 0x0E#8, 0x08#8] 2 = 0#8 ∧
    1 < [1#8, 1#8].length ∧ (0xFF#8 : Byte) ≠ 0#8 := by decide

theorem witness_BlocksTileTheDataCodewords :
    Params.default.wf = true ∧ 0 < (geometry Params.default 1 0).nb ∧
    80 < (geometry Params.default 40 3).nb := by decide +kernel

theorem witness_InterleaveEmitsColumns :
    (with3 0x205 0 0).params.wf = true ∧ VersionLegal (with3 0x205 0 0) ∧
    (with3 0x205 0 0).geom.ns = 2 ∧ (with3 0x205 0 0).geom.nb = 4 := by unfold VersionLegal; decide +kernel

/-- R157, R158: the first cells at side 21, the turn to the second pair, and the pair (5, 4), which goes down. -/
theorem witness_WalkVisitsEachCellOnce :
    (walk 21).take 3 = [(20, 20), (19, 20), (20, 19)] ∧
    ((walk 21).drop 42).take 3 = [(18, 0), (17, 0), (18, 1)] ∧
    ((walk 21).drop 294).take 3 = [(5, 0), (4, 0), (5, 1)] ∧ 1 ≤ 1 ∧ 40 ≤ 40 := by decide +kernel

/-- R160: 420 cells for 208 bits. -/
theorem witness_PlaceWritesTheStreamAlongTheWalk :
    VersionLegal (placeState 0 0) ∧ 8 * (placeState 0 0).geom.tot = 208 ∧
    (slots (side (placeState 0 0)) (placeState 0 0).func).length = 420 := by unfold VersionLegal; decide +kernel

theorem witness_PlaceIgnoresOldModules :
    VersionLegal (placeState 0 0) ∧
    8 * (placeState 0 0).geom.tot ≤ (slots (side (placeState 0 0)) (placeState 0 0).func).length := by
  unfold VersionLegal; decide +kernel

theorem witness_MaskApplyInvertsTheMaskedCells :
    VersionLegal (cleared 1) ∧ (cleared 1).func.cell 0 0 = false ∧ 0 < side (cleared 1) := by
  unfold VersionLegal; decide +kernel

theorem witness_FormatWriteDrawsBothCopies : VersionLegal (with3 0x201 0 0) ∧ (with3 0x201 0 0).ecl = 2 := by
  unfold VersionLegal; decide

theorem witness_FormatWordDecodesBack :
    (formatBits 3 7 ^^^ 0x5412) / 2 ^ 10 = (formatBits 3 7 ^^^ 0x5412) / 2 ^ 10 ∧
    (formatBits 3 7 ^^^ 0x5412) / 2 ^ 10 = 23 := by decide

/-- R193, sixth line: a 2:2:6:2:2 core counts only when scaled; fourth line: the border serves as the strip. -/
theorem witness_FinderCountIsAWindowCount :
    let wide := [false, false, true, true, false, false, true, true, true, true, true, true, false, false, true,
      true, false, false, false, false, false]
    let edge := [false, false, false, true, false, true, true, true, false, true, false, false, false, true, false,
      false, false, false, false, false, false]
    n3Count Params.default wide = 0 ∧ n3Count { Params.default with n3Scaled := true } wide = 2 ∧
    n3Count { Params.default with n3Scaled := true, n3BorderLight := false } wide = 0 ∧
    n3Count { Params.default with n3Scaled := true } edge = 1 ∧
    n3Count { Params.default with n3BorderLight := false } edge = 0 := by decide

theorem witness_ScoreWritesThePenalty :
    VersionLegal (cleared 1) ∧ (cleared 1).params.n4Rounding = .floor ∧
    { cleared 1 with params := { Params.default with n4Rounding := .ceilMinusOne } }.params.n4Rounding =
      .ceilMinusOne := by unfold VersionLegal; decide +kernel

theorem witness_MaskSelectKeepsTheLeastPenalty :
    VersionLegal (cleared 0x000B0001) ∧ (cleared 0x000B0001).config.force = true ∧
    VersionLegal (cleared 1) ∧ (cleared 1).config.force = false := by unfold VersionLegal; decide +kernel

theorem witness_SelectedScoreIsTheMinimum :
    VersionLegal (cleared 1) ∧ (cleared 1).config.force = false ∧ ∃ t, exec .maskSelect (cleared 1) = .next t :=
  ⟨by unfold VersionLegal; decide, by decide, _, rfl⟩

theorem witness_FunctionCellsAreTheSameForAllMasks :
    VersionLegal (placeState 0x1FFFFF 0) ∧ (placeState 0x1FFFFF 0).func.cell 20 20 = true ∧
    ¬IsFormatCell 21 20 20 ∧ IsFormatCell 21 8 13 ∧ (placeState 0 0).func.cell 20 20 = false := by
  unfold VersionLegal IsFormatCell; decide +kernel

/-- R61, R63: the ends of the mapped ranges, a hole, a misaligned address. -/
theorem witness_BusErrorExactlyWhen :
    Mapped 0x050#15 ∧ ¬Mapped 0x054#15 ∧ Mapped 0x060#15 ∧ Mapped 0x07C#15 ∧ ¬Mapped 0x080#15 ∧
    Mapped 0x100#15 ∧ Mapped 0x13C#15 ∧ ¬Mapped 0x140#15 ∧ ¬Mapped 0x0FFC#15 ∧ Mapped 0x1000#15 ∧
    Mapped 0x2FFC#15 ∧ ¬Mapped 0x3000#15 ∧ Mapped 0x4000#15 ∧ Mapped 0x7FFC#15 ∧ ¬Mapped 0x002#15 ∧
    (0x7#4 : BitVec 4) ≠ 0xF#4 := by unfold Mapped; and_intros <;> decide

theorem witness_ReadsAreDefinedWhereTheSpecDefinesThem :
    State.reset.eng = .idle ∧ (State.reset.inFlight 0#32).eng = .run 0#32 0 ∧
    Mapped 0x008#15 ∧ Mapped 0x02C#15 ∧ Mapped 0x01C#15 ∧ Mapped 0x7FFC#15 := by
  unfold Mapped; exact ⟨rfl, rfl, by decide⟩

theorem witness_ByteWindowsStoreLittleEndian :
    State.reset.eng = .idle ∧ 1023 < 1024 ∧
    (State.reset.busWrite (BitVec.ofNat 15 (0x1000 + 4 * 1023)) 0x04030201#32 0xF#4).map
      (fun t => bytesOf t.data 4092 4) = some [1, 2, 3, 4] := ⟨rfl, by decide, by decide +kernel⟩

theorem witness_PlaneWindowsHoldCells :
    State.reset.eng = .idle ∧
    ({ State.reset with mod := State.reset.mod.fill 177 0#177 }.busWrite
      (BitVec.ofNat 15 (0x4000 + 32 * 176 + 4 * 5)) 0xFFFFFFFF#32 0xF#4).map
      (fun t : State => (t.mod.cell 160 176, t.mod.cell 176 176)) = some (true, true) ∧
    (State.reset.busWrite (BitVec.ofNat 15 (0x6000 + 32 * 177)) 0xFFFFFFFF#32 0xF#4) = some State.reset ∧
    (State.reset.busWrite (BitVec.ofNat 15 (0x6000 + 32 * 255 + 4 * 7)) 1#32 0xF#4) = some State.reset :=
  ⟨rfl, by decide +kernel, by decide +kernel, by decide +kernel⟩

theorem witness_ReadOnlyWritesAreIgnored :
    ReadOnly 0x000#15 ∧ ReadOnly 0x01C#15 ∧ ReadOnly 0x050#15 ∧ ReadOnly 0x07C#15 ∧ ReadOnly 0x100#15 ∧
    ReadOnly 0x13C#15 ∧ ¬ReadOnly 0x018#15 ∧ ¬ReadOnly 0x1000#15 := by
  unfold ReadOnly; and_intros <;> decide

theorem witness_ReservedBitsReadZeroAndIgnoreWrites :
    (with3 0xFFFFFFFF 0 0).busRead 0x00C#15 = some (0x000F033F#32, with3 0xFFFFFFFF 0 0) ∧
    State.reset.eng = .idle ∧ State.reset.busRead 0x020#15 = some (0#32, State.reset) ∧
    State.reset.busRead 0x038#15 = some (0#32, State.reset) := by decide +kernel

theorem witness_OperandRegistersReadBack : State.reset.eng = .idle := rfl

theorem witness_BusyWritesAreIgnoredAndSetWbusy :
    (State.reset.inFlight 0#32).eng = .run 0#32 0 ∧ State.reset.eng = .idle ∧ (2#32).getLsbD 1 = true ∧
    (1#32).getLsbD 1 = false ∧ ReadOnly 0x01C#15 := by
  unfold ReadOnly; exact ⟨rfl, rfl, by decide, by decide, by decide⟩

theorem witness_CommandWriteIsAccepted : State.reset.eng = .idle := rfl

/-- The aborts that lose a memory, and one that loses none. -/
theorem witness_SoftResetResetsTheBlock :
    (2#32).getLsbD 1 = true ∧ (State.reset.inFlight 0x00000033#32).softReset.mod.epoch = 1 ∧
    (State.reset.inFlight 0x00000021#32).softReset.func.epoch = 1 ∧
    (State.reset.inFlight 0x00000020#32).softReset.cw.epoch = 1 ∧
    (State.reset.inFlight 0x00000003#32).softReset.data.epoch = 1 ∧
    (State.reset.inFlight 0x00000032#32).softReset = State.reset := by decide +kernel

theorem witness_InterruptFollowsDoneAndErr :
    { State.reset with irqEn := true, status := { Status.reset with err := true } }.irq = true ∧
    (6#32).getLsbD 1 = true ∧ (6#32).getLsbD 2 = true ∧ (6#32).getLsbD 0 = false ∧
    answers (exec .nop { State.reset with irqEn := true }) (fun t => t.irq) = true := by decide +kernel

theorem witness_GeometryRegistersShowTheGeometry :
    (with3 40 0 0).params.wf = true ∧ VersionLegal (with3 40 0 0) ∧ ¬VersionLegal (with3 63 0 0) := by
  unfold VersionLegal; decide +kernel

theorem witness_IdAndParametersAreConstant : step State.reset = .next State.reset := rfl

/-- ERR is cleared by the host, and ERRCODE changes at a failure and at a reset. -/
theorem witness_ErrorStaysUntilAcknowledged :
    let s := { State.reset with status := { Status.reset with err := true, errcode := 3#8 } }
    answers (step { s with host := [wr .status (.lit 4#32)] })
      (fun t => !t.status.err && t.status.errcode == 3#8) = true ∧
    answers (step { s with host := [wr .ctrl (.lit 2#32)] })
      (fun t => !t.status.err && t.status.errcode == 0#8) = true ∧
    answers (step (State.reset.inFlight 0x00000004#32)) (fun t => t.status.errcode == 3#8) = true := by
  decide +kernel

theorem witness_EngineMovesOnlyByAcceptanceCompletionAndReset :
    answers (step { State.reset with host := [cmdOp .nop] }) (fun t => t.busy) = true ∧
    answers (step { State.reset with eng := .run 0#32 2, host := [.wait] })
      (fun t => t.eng == .run 0#32 1) = true ∧
    answers (step (State.reset.inFlight 0#32)) (fun t => t.eng == .idle && t.status.done) = true ∧
    answers (step { State.reset with eng := .run 0#32 1, host := [wr .ctrl (.lit 2#32)] })
      (fun t => t.eng == .idle && !t.status.done) = true :=
  ⟨rfl, by decide +kernel, by decide +kernel, by decide +kernel⟩

theorem witness_WaitEndsWithinTheLatency :
    { State.reset with eng := .run 0#32 2, host := [.wait] }.eng = .run 0#32 2 ∧
    { State.reset with eng := .run 0#32 2, host := [.wait] }.host = .wait :: [] := ⟨rfl, rfl⟩

theorem witness_StepKeepsTheInvariant :
    Inv State.reset ∧ step State.reset = .next State.reset := by
  refine ⟨⟨by decide +kernel, ⟨by decide, by decide, by decide, by decide⟩, trivial, by decide, by decide⟩, rfl⟩

theorem witness_StepKeepsScoresBelowTwentyBits :
    ScoresBounded State.reset ∧ step State.reset = .next State.reset := by
  unfold ScoresBounded; exact ⟨by decide +kernel, rfl⟩

end Sys2Proof.Tests
end

section
/-! PROOFS. What a command's body, a host transfer and a step can do, once each, and from them that ID and
the parameters are constant (R5, R244). -/

namespace Sys2Proof.Machine

open Sys2Proof

/-! ### What no command's body writes -/

/-- `t` agrees with `s` in everything only the host, acceptance, completion and reset write: no command's
body touches it (R26, R27, R213, R214). -/
structure SameControl (s t : State) : Prop where
  irqEn : t.irqEn = s.irqEn
  status : t.status = s.status
  config : t.config = s.config
  cmd : t.cmd = s.cmd
  arg0 : t.arg0 = s.arg0
  arg1 : t.arg1 = s.arg1
  errinfo0 : t.errinfo0 = s.errinfo0
  errinfo1 : t.errinfo1 = s.errinfo1
  eng : t.eng = s.eng
  params : t.params = s.params
  draws : t.draws = s.draws
  host : t.host = s.host
  readData : t.readData = s.readData

/-- A body that needs a version succeeds only at a legal one, on the current geometry (R47). -/
theorem State.withGeometry_eq_ok {s t : State} {body : Geometry → Except Raise State} :
    s.withGeometry body = .ok t ↔ (1 ≤ s.version ∧ s.version ≤ 40) ∧ body s.geom = .ok t := by
  rw [State.withGeometry_eq]
  split <;> simp [*]

/-- A body with a range check succeeds only when the check passes. -/
theorem ite_error_eq_ok {p : Prop} [Decidable p] {e : Raise} {b : Except Raise State} {t : State} :
    (if p then .error e else b) = .ok t ↔ ¬p ∧ b = .ok t := by
  split <;> simp [*]

theorem bodyOf_sameControl {i : Instr} {s t : State} (h : bodyOf i s = .ok t) : SameControl s t := by
  cases i with
  | nop | bpClear | gfMul | gfExp | gridClear =>
    obtain rfl := Except.ok.inj h
    constructor <;> rfl
  | bpAppend | rsEncode | rsSyndrome =>
    obtain ⟨-, h⟩ := ite_error_eq_ok.mp h
    obtain ⟨-, h⟩ := ite_error_eq_ok.mp h
    obtain rfl := Except.ok.inj h
    constructor <;> rfl
  | rsGenpoly =>
    obtain ⟨-, h⟩ := ite_error_eq_ok.mp h
    obtain rfl := Except.ok.inj h
    constructor <;> rfl
  | bpFinalize | place =>
    simp only [bodyOf, bodyBpFinalize, bodyPlace, State.withGeometry_eq_ok, ite_error_eq_ok] at h
    obtain ⟨-, -, h⟩ := h
    obtain rfl := Except.ok.inj h
    constructor <;> rfl
  | interleave | maskApply | formatWrite | score | maskSelect =>
    simp only [bodyOf, bodyInterleave, bodyMaskApply, bodyFormatWrite, bodyScore, bodyMaskSelect,
      State.withGeometry_eq_ok] at h
    obtain ⟨-, h⟩ := h
    obtain rfl := Except.ok.inj h
    constructor <;> rfl

/-- A command word completes in one of three ways: its command's body has run, its command has failed, or
it is no command and fails with ILLEGAL_OPCODE (R211, R213, R214). -/
theorem completeCommand_cases {c : Word} {s t : State} (h : completeCommand c s = .next t) :
    (∃ i u, decode c = .ok i ∧ bodyOf i s = .ok u ∧ t = u.complete) ∨
    (∃ i e, decode c = .ok i ∧ bodyOf i s = .error e ∧ t = (s.fail e).complete) ∨
    (∃ r, decode c = .error r ∧ t = (s.fail (.illegalOpcode c)).complete) := by
  rw [completeCommand_eq, completes_eq_next] at h
  cases hd : decode c with
  | error r => exact .inr (.inr ⟨r, rfl, by simpa [hd] using h.symm⟩)
  | ok i =>
    simp only [hd] at h
    obtain ⟨u, hb, hf⟩ | ⟨e, hb, hf⟩ := s.finish_cases (bodyOf i s)
    · exact .inl ⟨i, u, rfl, hb, h.symm.trans hf⟩
    · exact .inr (.inl ⟨i, e, rfl, hb, h.symm.trans hf⟩)

theorem completeCommand_params {c : Word} {s t : State} (h : completeCommand c s = .next t) :
    t.params = s.params := by
  obtain ⟨i, u, -, hb, rfl⟩ | ⟨i, e, -, -, rfl⟩ | ⟨r, -, rfl⟩ := completeCommand_cases h
  · simpa using (bodyOf_sameControl hb).params
  · simp
  · simp

/-! ### Host transfers -/

/-- A read is answered exactly when its address selects a target (R62, R63). -/
theorem State.busRead_eq_some {s : State} {addr : Addr} {r : Word × State} :
    s.busRead addr = some r ↔ ∃ tg, target addr = some tg ∧ s.readTarget tg = r := by
  simp [State.busRead]

/-- A write is answered exactly when all strobes are set and its address selects a target (R62, R63). -/
theorem State.busWrite_eq_some {s u : State} {addr : Addr} {v : Word} {strobes : BitVec 4} :
    s.busWrite addr v strobes = some u ↔
      strobes = 0xF#4 ∧ ∃ tg, target addr = some tg ∧ s.writeTarget tg v = u := by
  unfold State.busWrite
  split <;> simp [*]

/-- A target that no command writes reads as its value, busy or idle (R70). -/
theorem State.readTarget_of_stable {s : State} {tg : Target} (h : tg.stable = true) :
    s.readTarget tg = (s.view tg, s) := by
  simp [State.readTarget, h]

@[simp] theorem State.readTarget_params (s : State) (tg : Target) :
    (s.readTarget tg).2.params = s.params := by
  unfold State.readTarget
  split <;> rfl

/-- A write that BUSY = 1 may turn away keeps the parameters when the write itself does. -/
theorem State.unlessBusy_params {s u : State} (h : u.params = s.params) :
    (s.unlessBusy u).params = s.params := by
  unfold State.unlessBusy
  split
  · rfl
  · exact h

/-- A write of CTRL resets the block or sets the interrupt enable, busy or idle (R22, R250). -/
theorem State.writeTarget_ctrl (s : State) (v : Word) :
    s.writeTarget .ctrl v =
      if v.getLsbD 1 then s.softReset else { s with irqEn := v.getLsbD 0 } := rfl

@[simp] theorem State.writeTarget_params (s : State) (tg : Target) (v : Word) :
    (s.writeTarget tg v).params = s.params := by
  cases tg with
  | ctrl =>
    rw [State.writeTarget_ctrl]
    split
    · simp
    · rfl
  | config | cmd | arg0 | arg1 | data | cw | mod | func => exact State.unlessBusy_params rfl
  | _ => rfl

/-- A host transfer that is no fault is a write, a read, a `WAIT` that waits on, or a `WAIT` or `CHECK`
that ends (R62, R87, R88). -/
theorem hostStep_cases {op : HostOp} {rest : List HostOp} {s t : State}
    (h : hostStep op rest s = .next t) :
    (∃ addr val strobes v u, op = .write addr val strobes ∧ s.hostValue val = .ok v ∧
      s.busWrite addr v strobes = some u ∧ t = { u with host := rest }) ∨
    (∃ addr v u, op = .read addr ∧ s.busRead addr = some (v, u) ∧
      t = { u with host := rest, readData := u.readData ++ [v] }) ∨
    (op = .wait ∧ s.busy = true ∧ t = s) ∨
    (((op = .wait ∧ s.busy = false) ∨ (op = .check ∧ s.status.err = false)) ∧
      t = { s with host := rest }) := by
  cases op with
  | write addr val strobes =>
    cases hv : s.hostValue val with
    | error e => simp [hostStep, hv] at h
    | ok v =>
      cases hu : s.busWrite addr v strobes with
      | none => simp [hostStep, hv, hu] at h
      | some u =>
        exact .inl ⟨addr, val, strobes, v, u, rfl, hv, hu, by simpa [hostStep, hv, hu] using h.symm⟩
  | read addr =>
    cases hu : s.busRead addr with
    | none => simp [hostStep, hu] at h
    | some r => exact .inr (.inl ⟨addr, r.1, r.2, rfl, hu, by simpa [hostStep, hu] using h.symm⟩)
  | wait =>
    cases hb : s.busy with
    | true => exact .inr (.inr (.inl ⟨rfl, rfl, by simpa [hostStep, hb] using h.symm⟩))
    | false => exact .inr (.inr (.inr ⟨.inl ⟨rfl, rfl⟩, by simpa [hostStep, hb] using h.symm⟩))
  | check =>
    cases he : s.status.err with
    | true => simp [hostStep, he] at h
    | false => exact .inr (.inr (.inr ⟨.inr ⟨rfl, rfl⟩, by simpa [hostStep, he] using h.symm⟩))

theorem hostStep_params {op : HostOp} {rest : List HostOp} {s t : State}
    (h : hostStep op rest s = .next t) : t.params = s.params := by
  obtain ⟨addr, val, strobes, v, u, -, -, hu, rfl⟩ | ⟨addr, v, u, -, hu, rfl⟩ | ⟨-, -, rfl⟩ | ⟨-, rfl⟩ :=
    hostStep_cases h
  · obtain ⟨-, tg, -, rfl⟩ := State.busWrite_eq_some.mp hu
    exact s.writeTarget_params tg v
  · obtain ⟨tg, -, hr⟩ := State.busRead_eq_some.mp hu
    simpa [hr] using s.readTarget_params tg
  · rfl
  · rfl

/-! ### The step -/

/-- A step completes the command in flight, serves the host's next transfer with a command in flight or
idle, or is the idle block's wait for a host that has nothing to do (R214, R260, R265; assumption 4). -/
theorem step_cases {s t : State} (h : step s = .next t) :
    (∃ c left, s.eng = .run c left ∧ (left = 0 ∨ s.host = []) ∧ completeCommand c s = .next t) ∨
    (∃ c left op rest, s.eng = .run c (left + 1) ∧ s.host = op :: rest ∧
      hostStep op rest { s with eng := .run c left } = .next t) ∨
    (∃ op rest, s.eng = .idle ∧ s.host = op :: rest ∧ hostStep op rest s = .next t) ∨
    (s.eng = .idle ∧ s.host = [] ∧ t = s) := by
  cases he : s.eng with
  | idle =>
    rw [step_of_idle he] at h
    cases hh : s.host with
    | nil => exact .inr (.inr (.inr ⟨rfl, rfl, by simpa [hh] using h.symm⟩))
    | cons op rest => exact .inr (.inr (.inl ⟨op, rest, rfl, rfl, by simpa [hh] using h⟩))
  | run c left =>
    cases left with
    | zero => exact .inl ⟨c, 0, rfl, .inl rfl, step_of_run_zero he ▸ h⟩
    | succ left =>
      cases hh : s.host with
      | nil => exact .inl ⟨c, left + 1, rfl, .inr rfl, step_of_run_no_host he hh ▸ h⟩
      | cons op rest =>
        exact .inr (.inl ⟨c, left, op, rest, rfl, rfl,
          by simpa only [step_of_run_host he hh, hh] using h⟩)

theorem step_params {s t : State} (h : step s = .next t) : t.params = s.params := by
  obtain ⟨c, left, -, -, h⟩ | ⟨c, left, op, rest, -, -, h⟩ | ⟨op, rest, -, -, h⟩ | ⟨-, -, rfl⟩ :=
    step_cases h
  · exact completeCommand_params h
  · exact (hostStep_params h).trans rfl
  · exact hostStep_params h
  · rfl

/-- ID reads its constant in every state, and the read changes nothing (R5, R62, R70). -/
theorem State.busRead_id (s : State) : s.busRead 0x000#15 = some (Config.pId, s) :=
  State.busRead_eq_some.mpr ⟨.id, rfl, State.readTarget_of_stable rfl⟩

/-- Settles O54: ID by the stable read of its target, the parameters by the cases of a step. -/
theorem idAndParametersAreConstant : Obligations.IdAndParametersAreConstant :=
  ⟨State.busRead_id, fun _ _ => step_params⟩

end Sys2Proof.Machine
end

section
/-! PROOFS. The bus beside its side effects: which target an address selects, what an answered transfer
does, the writes of read-only targets (R37), and the reserved bits of the registers (R36). -/

namespace Sys2Proof.Machine

open Sys2Proof

/-! ### Which target an address selects -/

section
variable {a : Addr} (h4 : a.toNat % 4 = 0)
include h4

theorem target_of_lt_0x60 (h : a.toNat < 0x60) : target a = registerAt (a.toNat / 4) := by
  simp (disch := omega) only [target, if_neg, if_pos]

theorem target_pen (h : 0x60 ≤ a.toNat) (h' : a.toNat < 0x80) :
    target a = some (.pen (Fin.ofNat 8 (a.toNat / 4 - 24))) := by
  simp (disch := omega) only [target, if_neg, if_pos]

theorem target_gen (h : 0x100 ≤ a.toNat) (h' : a.toNat < 0x120) :
    target a = some (.gen (Fin.ofNat 8 (a.toNat / 4 - 64))) := by
  simp (disch := omega) only [target, if_neg, if_pos]

theorem target_rsout (h : 0x120 ≤ a.toNat) (h' : a.toNat < 0x140) :
    target a = some (.rsout (Fin.ofNat 8 (a.toNat / 4 - 72))) := by
  simp (disch := omega) only [target, if_neg, if_pos]

end

/-! ### Read-only targets -/

/-- The targets of R20 and R61 that are read only. -/
def Target.readOnly : Target → Bool
  | .ctrl | .status | .config | .cmd | .arg0 | .arg1 | .data _ | .cw _ | .mod _ _ | .func _ _ => false
  | _ => true

theorem registerAt_readOnly : ∀ k ≤ 20, k = 0 ∨ 7 ≤ k →
    ∃ tg, registerAt k = some tg ∧ tg.readOnly = true := by
  have h : ∀ k ≤ 20, k = 0 ∨ 7 ≤ k → (registerAt k).any Target.readOnly = true := by decide
  exact fun k hk hro => (Option.any_eq_true _ _).mp (h k hk hro)

/-- A read-only address selects a read-only target (R20, R61). -/
theorem target_of_readOnly {a : Addr} (h : ReadOnly a) :
    ∃ tg, target a = some tg ∧ tg.readOnly = true := by
  obtain ⟨h4, h | ⟨h, h'⟩ | ⟨h, h'⟩ | ⟨h, h'⟩⟩ := h
  · rw [target_of_lt_0x60 h4 (by omega)]
    exact registerAt_readOnly _ (by omega) (by omega)
  · rw [target_of_lt_0x60 h4 (by omega)]
    exact registerAt_readOnly _ (by omega) (by omega)
  · exact ⟨_, target_pen h4 h (by omega), rfl⟩
  · by_cases hg : a.toNat < 0x120
    · exact ⟨_, target_gen h4 h hg, rfl⟩
    · exact ⟨_, target_rsout h4 (by omega) (by omega), rfl⟩

/-- A write of a read-only target changes nothing, busy or idle (R37). -/
theorem State.writeTarget_of_readOnly {s : State} {tg : Target} {v : Word} (h : tg.readOnly = true) :
    s.writeTarget tg v = s := by
  cases tg with
  | ctrl | status | config | cmd | arg0 | arg1 | data | cw | mod | func => cases h
  | _ => rfl

/-- A write with all strobes set of an address that selects a target writes that target (R62). -/
theorem State.busWrite_of_target {s : State} {a : Addr} {tg : Target} {v : Word}
    (h : target a = some tg) : s.busWrite a v 0xF#4 = some (s.writeTarget tg v) :=
  State.busWrite_eq_some.mpr ⟨rfl, tg, h, rfl⟩

/-- Settles O44: the address selects a read-only target, whose write changes nothing. -/
theorem readOnlyWritesAreIgnored : Obligations.ReadOnlyWritesAreIgnored := by
  intro s a v h
  obtain ⟨tg, ht, hro⟩ := target_of_readOnly h
  rw [State.busWrite_of_target ht, State.writeTarget_of_readOnly hro]

/-! ### Fields of a word -/

@[simp] theorem testBit_field {w : Nat} (v : BitVec w) (lo len i : Nat) :
    (field v lo len).testBit i = (decide (i < len) && v.getLsbD (lo + i)) := by
  simp [field, Nat.testBit_mod_two_pow, BitVec.getLsbD]

/-- A field as a quotient and a remainder, the form `omega` reads. -/
theorem field_eq_div_mod {w : Nat} (v : BitVec w) (lo len : Nat) :
    field v lo len = v.toNat / 2 ^ lo % 2 ^ len := by
  rw [field, Nat.shiftRight_eq_div_pow]

/-- A mask that covers only fields that are 0 leaves 0. -/
theorem and_eq_zero_of_fields {v m : Word} (fs : List (Nat × Nat))
    (hm : ∀ i < 32, m.getLsbD i = true → ∃ f ∈ fs, f.1 ≤ i ∧ i < f.1 + f.2)
    (hv : fs.Forall fun f => field v f.1 f.2 = 0) : v &&& m = 0#32 := by
  refine BitVec.eq_of_getLsbD_eq fun i hi => ?_
  cases hmi : m.getLsbD i with
  | false => simp [hmi]
  | true =>
    obtain ⟨f, hf, hlo, hlen⟩ := hm i hi hmi
    have hbit := testBit_field v f.1 f.2 (i - f.1)
    rw [List.forall_iff_forall_mem.mp hv f hf, Nat.add_sub_cancel' hlo] at hbit
    have hvi : v.getLsbD i = false := by simpa [show i - f.1 < f.2 by omega] using hbit.symm
    simp [hvi]

/-- A mask that covers a field keeps it. -/
theorem field_and_of_covers {w : Nat} {v m : BitVec w} {lo len : Nat}
    (hm : ∀ i < len, m.getLsbD (lo + i) = true) : field (v &&& m) lo len = field v lo len := by
  refine Nat.eq_of_testBit_eq fun i => ?_
  by_cases hi : i < len
  · simp [hi, hm i hi]
  · simp [hi]

/-! ### The registers with reserved bits, as integers -/

theorem State.toNat_ctrlWord (s : State) : s.ctrlWord.toNat = s.irqEn.toNat := by
  have := Bool.toNat_le s.irqEn
  simp only [State.ctrlWord, word, BitVec.toNat_ofNat]
  omega

theorem State.toNat_statusWord (s : State) :
    s.statusWord.toNat = s.busy.toNat + 2 * s.status.done.toNat + 4 * s.status.err.toNat +
      8 * s.status.wbusy.toNat + 2 ^ 8 * s.status.errcode.toNat := by
  have := Bool.toNat_le s.busy
  have := Bool.toNat_le s.status.done
  have := Bool.toNat_le s.status.err
  have := Bool.toNat_le s.status.wbusy
  simp only [State.statusWord, word, BitVec.toNat_ofNat]
  omega

theorem ConfigReg.toNat_toWord (c : ConfigReg) :
    c.toWord.toNat =
      c.version.toNat + 2 ^ 8 * c.ecl.toNat + 2 ^ 16 * c.fmask.toNat + 2 ^ 19 * c.force.toNat := by
  have := Bool.toNat_le c.force
  simp only [ConfigReg.toWord, word, BitVec.toNat_ofNat]
  omega

theorem Best.toNat_toWord (b : Best) :
    b.toWord.toNat = b.mask.toNat + 2 ^ 8 * b.valid.toNat + 2 ^ 16 * b.penValid.toNat := by
  have := Bool.toNat_le b.valid
  simp only [Best.toWord, word, BitVec.toNat_ofNat]
  omega

/-- Appended bit vectors as a sum, the form `omega` reads. -/
theorem toNat_append_eq_add {m n : Nat} (x : BitVec m) (y : BitVec n) :
    (x ++ y).toNat = 2 ^ n * x.toNat + y.toNat := by
  rw [BitVec.toNat_append, ← Nat.shiftLeft_add_eq_or_of_lt y.isLt, Nat.shiftLeft_eq, Nat.mul_comm]

theorem State.toNat_geom1 (s : State) :
    s.geom1.toNat =
      if legalVersion s.version then s.geom.tot % 2 ^ 12 + 2 ^ 16 * (s.geom.dcw % 2 ^ 12) else 0 := by
  unfold State.geom1
  split
  · simp only [toNat_append_eq_add, BitVec.toNat_ofNat]
    omega
  · rfl

theorem State.toNat_geom2 (s : State) :
    s.geom2.toNat = if legalVersion s.version then s.geom.sdl % 2 ^ 8 else 0 := by
  unfold State.geom2
  split
  · simp only [toNat_append_eq_add, BitVec.toNat_ofNat]
    omega
  · rfl

/-! ### Reserved bits -/

theorem State.ctrlWord_reserved (s : State) : s.ctrlWord &&& 0xFFFFFFFE#32 = 0#32 := by
  have := Bool.toNat_le s.irqEn
  refine and_eq_zero_of_fields [(1, 31)] (by decide) ?_
  simp only [List.Forall, field_eq_div_mod, State.toNat_ctrlWord]
  omega

theorem State.statusWord_reserved (s : State) : s.statusWord &&& 0xFFFF00F0#32 = 0#32 := by
  have := Bool.toNat_le s.busy
  have := Bool.toNat_le s.status.done
  have := Bool.toNat_le s.status.err
  have := Bool.toNat_le s.status.wbusy
  refine and_eq_zero_of_fields [(4, 4), (16, 16)] (by decide) ?_
  simp only [List.Forall, field_eq_div_mod, State.toNat_statusWord]
  omega

theorem ConfigReg.toWord_reserved (c : ConfigReg) : c.toWord &&& 0xFFF0FCC0#32 = 0#32 := by
  have := Bool.toNat_le c.force
  refine and_eq_zero_of_fields [(6, 2), (10, 6), (20, 12)] (by decide) ?_
  simp only [List.Forall, field_eq_div_mod, ConfigReg.toNat_toWord]
  omega

theorem Best.toWord_reserved (b : Best) : b.toWord &&& 0xFF00FEF8#32 = 0#32 := by
  have := Bool.toNat_le b.valid
  refine and_eq_zero_of_fields [(3, 5), (9, 7), (24, 8)] (by decide) ?_
  simp only [List.Forall, field_eq_div_mod, Best.toNat_toWord]
  omega

theorem State.bitlen_reserved (s : State) : s.bitlen.setWidth 32 &&& 0xFFFF0000#32 = 0#32 := by
  refine and_eq_zero_of_fields [(16, 16)] (by decide) ?_
  simp only [List.Forall, field_eq_div_mod, BitVec.toNat_setWidth]
  omega

theorem State.geom1_reserved (s : State) : s.geom1 &&& 0xF000F000#32 = 0#32 := by
  refine and_eq_zero_of_fields [(12, 4), (28, 4)] (by decide) ?_
  simp only [List.Forall, field_eq_div_mod, State.toNat_geom1]
  split <;> omega

theorem State.geom2_reserved (s : State) : s.geom2 &&& 0xFFFFFF00#32 = 0#32 := by
  refine and_eq_zero_of_fields [(8, 24)] (by decide) ?_
  simp only [List.Forall, field_eq_div_mod, State.toNat_geom2]
  split <;> omega

/-! ### Reads and writes of the registers with reserved bits -/

/-- An idle read answers the value of its target, of every target (R70). -/
theorem State.readTarget_of_idle {s : State} {tg : Target} (h : s.eng = .idle) :
    s.readTarget tg = (s.view tg, s) := by
  simp [State.readTarget, State.busy, h]

/-- An answered read, idle or of a stable target, gave the value of its target (R62, R70). -/
theorem State.eq_view_of_busRead {s t : State} {a : Addr} {tg : Target} {v : Word}
    (ht : target a = some tg) (hs : tg.stable = true ∨ s.eng = .idle)
    (h : s.busRead a = some (v, t)) : v = s.view tg := by
  have hr : s.readTarget tg = (s.view tg, s) :=
    hs.elim State.readTarget_of_stable State.readTarget_of_idle
  simpa [State.busRead, ht, hr, eq_comm] using congrArg (·.map Prod.fst) h

/-- Two values a target cannot tell apart write the same (R62). -/
theorem State.busWrite_congr {s : State} {a : Addr} {tg : Target} {v w : Word}
    (ht : target a = some tg) (h : s.writeTarget tg v = s.writeTarget tg w) :
    s.busWrite a v 0xF#4 = s.busWrite a w 0xF#4 := by
  rw [State.busWrite_of_target ht, State.busWrite_of_target ht, h]

theorem Status.writeOneToClear_and (f : Status) (v : Word) :
    f.writeOneToClear (v &&& 0x0000FF0F#32) = f.writeOneToClear v := by
  simp [Status.writeOneToClear]

theorem ConfigReg.ofWord_and (v : Word) :
    ConfigReg.ofWord (v &&& 0x000F033F#32) = ConfigReg.ofWord v := by
  have hversion : field (v &&& 0x000F033F#32) 0 6 = field v 0 6 := field_and_of_covers (by decide)
  have hecl : field (v &&& 0x000F033F#32) 8 2 = field v 8 2 := field_and_of_covers (by decide)
  have hfmask : field (v &&& 0x000F033F#32) 16 3 = field v 16 3 := field_and_of_covers (by decide)
  simp [ConfigReg.ofWord, hversion, hecl, hfmask]

theorem State.writeTarget_ctrl_and (s : State) (v : Word) :
    s.writeTarget .ctrl (v &&& 0x00000003#32) = s.writeTarget .ctrl v := by
  simp [State.writeTarget_ctrl]

theorem State.writeTarget_status_and (s : State) (v : Word) :
    s.writeTarget .status (v &&& 0x0000FF0F#32) = s.writeTarget .status v := by
  simp only [State.writeTarget, Status.writeOneToClear_and]

theorem State.writeTarget_config_and (s : State) (v : Word) :
    s.writeTarget .config (v &&& 0x000F033F#32) = s.writeTarget .config v := by
  simp only [State.writeTarget, ConfigReg.ofWord_and]

/-- The read-only registers with reserved bits: BITLEN, GEOM1, GEOM2, BEST (R20). -/
theorem readOnly_of_reserved : ∀ a ∈ [0x020#15, 0x028#15, 0x02C#15, 0x038#15], ReadOnly a := by
  simp [ReadOnly]

/-- Settles O45: each read is its register's value, whose reserved fields are 0; a write reads none of the
bits its mask clears, and the other four registers are read only. -/
theorem reservedBitsReadZeroAndIgnoreWrites : Obligations.ReservedBitsReadZeroAndIgnoreWrites := by
  intro s t v
  refine ⟨fun h => ?ctrl, fun h => ?status, fun h => ?config, fun hi h => ?bitlen, fun h => ?geom1,
    fun h => ?geom2, fun hi h => ?best,
    fun a ha => readOnlyWritesAreIgnored s a v (readOnly_of_reserved a ha),
    State.busWrite_congr rfl (s.writeTarget_ctrl_and v).symm,
    State.busWrite_congr rfl (s.writeTarget_status_and v).symm,
    State.busWrite_congr rfl (s.writeTarget_config_and v).symm⟩
  case ctrl => exact State.eq_view_of_busRead (tg := .ctrl) rfl (.inl rfl) h ▸ s.ctrlWord_reserved
  case status => exact State.eq_view_of_busRead (tg := .status) rfl (.inl rfl) h ▸ s.statusWord_reserved
  case config => exact State.eq_view_of_busRead (tg := .config) rfl (.inl rfl) h ▸ s.config.toWord_reserved
  case bitlen => exact State.eq_view_of_busRead (tg := .bitlen) rfl (.inr hi) h ▸ s.bitlen_reserved
  case geom1 => exact State.eq_view_of_busRead (tg := .geom1) rfl (.inl rfl) h ▸ s.geom1_reserved
  case geom2 => exact State.eq_view_of_busRead (tg := .geom2) rfl (.inl rfl) h ▸ s.geom2_reserved
  case best => exact State.eq_view_of_busRead (tg := .best) rfl (.inr hi) h ▸ s.best.toWord_reserved

end Sys2Proof.Machine
end

section
/-! PROOFS. The field GF(2^8) (R120 to R123): the multiplier is linear and commutes with the shift by x,
from which the laws follow; α has order 255, so its powers are the nonzero bytes. -/

namespace Sys2Proof.Machine

open Sys2Proof

@[simp] theorem gfAdd_eq_xor (a b : Byte) : gfAdd a b = a ^^^ b := rfl

/-! ### The multiplier -/

theorem gfTimesX_xor (a b : Byte) : gfTimesX (a ^^^ b) = gfTimesX a ^^^ gfTimesX b := by
  have hreduce (p q : Bool) : (if p ^^ q then 0x1D#8 else 0#8) =
      (if p then 0x1D#8 else 0#8) ^^^ (if q then 0x1D#8 else 0#8) := by cases p <;> cases q <;> rfl
  simp only [gfTimesX, BitVec.shiftLeft_xor_distrib, BitVec.getLsbD_xor, hreduce]
  ac_rfl

@[simp] theorem gfTimesX_zero : gfTimesX 0#8 = 0#8 := by decide

/-- The multiplier is linear in its left factor and its accumulator together. -/
theorem gfMulFrom_xor (a a' b : Byte) (i : Nat) (z z' : Byte) :
    gfMulFrom (a ^^^ a') b i (z ^^^ z') = gfMulFrom a b i z ^^^ gfMulFrom a' b i z' := by
  induction i generalizing z z' with
  | zero => rfl
  | succ i ih =>
    have hselect : (if b.getLsbD i then a ^^^ a' else 0#8) =
        (if b.getLsbD i then a else 0#8) ^^^ (if b.getLsbD i then a' else 0#8) := by
      split <;> simp
    simp only [gfMulFrom, gfTimesX_xor, hselect, ← ih]
    congr 1
    ac_rfl

theorem gfMul_xor_left (a a' b : Byte) : gfMul (a ^^^ a') b = gfMul a b ^^^ gfMul a' b :=
  gfMulFrom_xor a a' b 8 0#8 0#8

@[simp] theorem gfMul_zero_left (b : Byte) : gfMul 0#8 b = 0#8 := by
  simpa using gfMul_xor_left 0#8 0#8 b

theorem gfMulFrom_timesX (a b : Byte) (i : Nat) (z : Byte) :
    gfMulFrom (gfTimesX a) b i (gfTimesX z) = gfTimesX (gfMulFrom a b i z) := by
  induction i generalizing z with
  | zero => rfl
  | succ i ih =>
    rw [gfMulFrom, gfMulFrom, ← ih, gfTimesX_xor]
    cases b.getLsbD i <;> simp

theorem gfMul_timesX_left (a b : Byte) : gfMul (gfTimesX a) b = gfTimesX (gfMul a b) :=
  gfMulFrom_timesX a b 8 0#8

/-- A product multiplied by `c` is the product with its left factor and its accumulator multiplied by `c`:
the shift by x and the sum, which are all the multiplier uses, both pass through. -/
theorem gfMul_gfMulFrom (a b c : Byte) (i : Nat) (z : Byte) :
    gfMul (gfMulFrom a b i z) c = gfMulFrom (gfMul a c) b i (gfMul z c) := by
  induction i generalizing z with
  | zero => rfl
  | succ i ih =>
    rw [gfMulFrom, ih, gfMulFrom, gfMul_xor_left, gfMul_timesX_left]
    cases b.getLsbD i <;> simp

theorem gfMul_right_comm (a b c : Byte) : gfMul (gfMul a b) c = gfMul (gfMul a c) b := by
  have h := gfMul_gfMulFrom a b c 8 0#8
  rwa [gfMul_zero_left] at h

@[simp] theorem gfMul_one_left : ∀ a : Byte, gfMul 1#8 a = a := by decide +kernel

theorem gfMul_comm (a b : Byte) : gfMul a b = gfMul b a := by
  simpa using gfMul_right_comm 1#8 a b

theorem gfMul_assoc (a b c : Byte) : gfMul (gfMul a b) c = gfMul a (gfMul b c) := by
  rw [gfMul_comm a b, gfMul_right_comm, gfMul_comm]

theorem gfMul_xor_right (a b c : Byte) : gfMul a (b ^^^ c) = gfMul a b ^^^ gfMul a c := by
  simp only [gfMul_comm a, gfMul_xor_left]

@[simp] theorem gfMul_zero_right (a : Byte) : gfMul a 0#8 = 0#8 := by
  rw [gfMul_comm, gfMul_zero_left]

@[simp] theorem gfMul_one_right (a : Byte) : gfMul a 1#8 = a := by
  rw [gfMul_comm, gfMul_one_left]

/-- Multiplying by α is the shift by x. -/
theorem gfMul_two_right (a : Byte) : gfMul a 2#8 = gfTimesX a := by
  have h := gfMul_timesX_left 1#8 a
  rwa [gfMul_one_left, show gfTimesX 1#8 = 2#8 from rfl, gfMul_comm] at h

/-! ### The powers of α -/

@[simp] theorem gfPow_zero : gfPow 0 = 1#8 := rfl

theorem gfPow_add (m n : Nat) : gfPow (m + n) = gfMul (gfPow m) (gfPow n) := by
  induction n with
  | zero => simp
  | succ n ih => rw [Nat.add_succ, gfPow, ih, gfMul_assoc, gfPow]

theorem gfPow_eq_iterate (k : Nat) : gfPow k = gfTimesX^[k] 1#8 := by
  induction k with
  | zero => rfl
  | succ k ih => rw [gfPow, gfMul_two_right, ih, Function.iterate_succ_apply']

/-- α has order 255: the order divides 255 = 3 · 5 · 17, and it divides none of 85, 51 and 15 (R122). -/
theorem minimalPeriod_gfTimesX : Function.minimalPeriod gfTimesX 1#8 = 255 := by
  have h255 : Function.IsPeriodicPt gfTimesX 255 1#8 := by decide +kernel
  have hproper : ∀ m ∈ [85, 51, 15], ¬Function.IsPeriodicPt gfTimesX m 1#8 := by decide +kernel
  have hdivisors : ∀ n ≤ 255, n ∣ 255 → n = 255 ∨ ∃ m ∈ [85, 51, 15], n ∣ m := by decide +kernel
  refine (hdivisors _ (h255.minimalPeriod_le (by decide)) h255.minimalPeriod_dvd).resolve_right ?_
  rintro ⟨m, hm, hdvd⟩
  exact hproper m hm (Function.isPeriodicPt_iff_minimalPeriod_dvd.mpr hdvd)

theorem gfPow_255 : gfPow 255 = 1#8 := by
  rw [gfPow_eq_iterate, ← minimalPeriod_gfTimesX, Function.iterate_minimalPeriod]

theorem gfPow_mod (k : Nat) : gfPow (k % 255) = gfPow k := by
  simp only [gfPow_eq_iterate, ← minimalPeriod_gfTimesX, Function.iterate_mod_minimalPeriod_eq]

theorem gfPow_injOn : Set.InjOn gfPow (Set.Iio 255) := by
  rw [← minimalPeriod_gfTimesX, funext gfPow_eq_iterate]
  exact Function.iterate_injOn_Iio_minimalPeriod

theorem gfMul_gfPow_complement {k : Nat} (hk : k ≤ 255) : gfMul (gfPow k) (gfPow (255 - k)) = 1#8 := by
  rw [← gfPow_add, Nat.add_sub_cancel' hk, gfPow_255]

theorem gfPow_ne_zero (k : Nat) : gfPow k ≠ 0#8 := by
  intro h
  have hone := gfMul_gfPow_complement (Nat.mod_lt k (by decide : 0 < 255)).le
  rw [gfPow_mod, h, gfMul_zero_left] at hone
  exact absurd hone (by decide)

/-- The 255 powers of α are distinct nonzero bytes, and there are 255 of those (R123). -/
theorem exists_gfPow_eq {a : Byte} (ha : a ≠ 0#8) : ∃ k < 255, gfPow k = a := by
  have hmaps : Set.MapsTo (fun k => (gfPow k).toNat) (Finset.range 255) (Finset.Icc 1 255) := by
    intro k _
    have hne : (gfPow k).toNat ≠ 0 := fun h => gfPow_ne_zero k (BitVec.eq_of_toNat_eq h)
    have hlt := (gfPow k).isLt
    simp only [Finset.coe_Icc, Set.mem_Icc]
    omega
  have hinj : Set.InjOn (fun k => (gfPow k).toNat) (Finset.range 255) := by
    intro j hj k hk h
    exact gfPow_injOn (by simpa using hj) (by simpa using hk) (BitVec.eq_of_toNat_eq h)
  have hmem : a.toNat ∈ (Finset.Icc 1 255 : Set Nat) := by
    have hne : a.toNat ≠ 0 := fun h => ha (BitVec.eq_of_toNat_eq h)
    have hlt := a.isLt
    simp only [Set.mem_Icc, Finset.coe_Icc]
    omega
  obtain ⟨k, hk, h⟩ := Finset.surjOn_of_injOn_of_card_le _ hmaps hinj (by simp) hmem
  exact ⟨k, by simpa using hk, BitVec.eq_of_toNat_eq h⟩

theorem exists_gfMul_eq_one {a : Byte} (ha : a ≠ 0#8) : ∃ b, gfMul a b = 1#8 := by
  obtain ⟨k, hk, rfl⟩ := exists_gfPow_eq ha
  exact ⟨gfPow (255 - k), gfMul_gfPow_complement hk.le⟩

theorem eq_of_gfMul_eq_one {a b c : Byte} (hb : gfMul a b = 1#8) (hc : gfMul a c = 1#8) : c = b := by
  calc c = gfMul (gfMul a b) c := by rw [hb, gfMul_one_left]
    _ = gfMul (gfMul a c) b := gfMul_right_comm a b c
    _ = b := by rw [hc, gfMul_one_left]

/-- Settles O18: XOR's own laws, the multiplier's, and α as a generator of the nonzero bytes. -/
theorem fieldLawsHold : Obligations.FieldLawsHold := by
  refine ⟨fun a b => ⟨BitVec.xor_comm a b, gfMul_comm a b⟩,
    fun a b c => ⟨BitVec.xor_assoc a b c, gfMul_assoc a b c, gfMul_xor_right a b c⟩,
    fun a => ⟨BitVec.zero_xor, gfMul_zero_left a, gfMul_one_left a⟩, fun a ha => ?inverse,
    fun a ha => ?power⟩
  case inverse =>
    obtain ⟨b, hb⟩ := exists_gfMul_eq_one ha
    exact ⟨b, hb, fun c hc => eq_of_gfMul_eq_one hb hc⟩
  case power =>
    obtain ⟨k, hk, hpow⟩ := exists_gfPow_eq ha
    exact ⟨k, hk, hpow, fun j hj hj' => gfPow_injOn hj hk (hj'.trans hpow.symm)⟩

end Sys2Proof.Machine
end

section
/-! PROOFS. Reed–Solomon words (R126 to R133): the value of a word at a point is linear in the word, so a
division step, which adds a multiple of the generator, keeps the roots of the generator. -/

namespace Sys2Proof.Machine

open Sys2Proof

/-! ### Horner's rule from any accumulator -/

/-- Horner's rule at `a` over `c`, from the accumulator `acc` (R130). -/
def hornerFrom (a acc : Byte) (c : List Byte) : Byte :=
  c.foldl (fun acc ci => gfAdd (gfMul acc a) ci) acc

theorem horner_eq_hornerFrom (a : Byte) (c : List Byte) : horner a c = hornerFrom a 0#8 c := rfl

@[simp] theorem hornerFrom_nil (a acc : Byte) : hornerFrom a acc [] = acc := rfl

@[simp] theorem hornerFrom_cons (a acc x : Byte) (c : List Byte) :
    hornerFrom a acc (x :: c) = hornerFrom a (gfMul acc a ^^^ x) c := rfl

@[simp] theorem hornerFrom_append (a acc : Byte) (c e : List Byte) :
    hornerFrom a acc (c ++ e) = hornerFrom a (hornerFrom a acc c) e := List.foldl_append

theorem hornerFrom_zipWith_gfAdd (a : Byte) :
    ∀ {xs ys : List Byte} (acc acc' : Byte), xs.length = ys.length →
      hornerFrom a (acc ^^^ acc') (xs.zipWith gfAdd ys) = hornerFrom a acc xs ^^^ hornerFrom a acc' ys
  | [], [], _, _, _ => rfl
  | x :: xs, y :: ys, acc, acc', h => by
    have ih := hornerFrom_zipWith_gfAdd a (gfMul acc a ^^^ x) (gfMul acc' a ^^^ y)
      (Nat.succ.inj h : xs.length = ys.length)
    rw [List.zipWith_cons_cons, hornerFrom_cons, hornerFrom_cons, hornerFrom_cons, ← ih]
    congr 1
    simp only [gfMul_xor_left, gfAdd_eq_xor]
    ac_rfl

theorem hornerFrom_map_gfMul (a r acc : Byte) (c : List Byte) :
    hornerFrom a (gfMul acc r) (c.map (gfMul · r)) = gfMul (hornerFrom a acc c) r := by
  induction c generalizing acc with
  | nil => rfl
  | cons x c ih =>
    rw [List.map_cons, hornerFrom_cons, hornerFrom_cons, ← ih, gfMul_xor_left, gfMul_right_comm]

/-- What `v` in the accumulator adds to the value at α^j (R133). -/
theorem hornerFrom_gfPow_xor (j : Nat) (acc v : Byte) (c : List Byte) :
    hornerFrom (gfPow j) (acc ^^^ v) c =
      hornerFrom (gfPow j) acc c ^^^ gfMul v (gfPow (j * c.length)) := by
  induction c generalizing acc v with
  | nil => simp
  | cons x c ih =>
    have hacc : gfMul (acc ^^^ v) (gfPow j) ^^^ x =
        (gfMul acc (gfPow j) ^^^ x) ^^^ gfMul v (gfPow j) := by
      rw [gfMul_xor_left]
      ac_rfl
    rw [hornerFrom_cons, hornerFrom_cons, hacc, ih, gfMul_assoc, ← gfPow_add, List.length_cons,
      Nat.mul_succ, Nat.add_comm]

/-! ### The generator polynomial -/

theorem horner_polyTimesRoot (a r : Byte) (g : List Byte) :
    horner a (polyTimesRoot g r) = gfMul (horner a g) (a ^^^ r) := by
  have hsum := hornerFrom_zipWith_gfAdd a (xs := g ++ [0#8]) (ys := 0#8 :: g.map (gfMul · r)) 0#8 0#8
    (by simp)
  have hroot := hornerFrom_map_gfMul a r 0#8 g
  rw [gfMul_zero_left] at hroot
  simpa [horner_eq_hornerFrom, polyTimesRoot, gfMul_xor_right, hroot] using hsum

/-- The generator polynomial is monic of degree `deg` (R126). -/
theorem genpoly_eq_cons (deg : Nat) : ∃ gs, genpoly deg = 1#8 :: gs ∧ gs.length = deg := by
  induction deg with
  | zero => exact ⟨[], rfl, rfl⟩
  | succ deg ih =>
    obtain ⟨gs, hg, hlen⟩ := ih
    rw [genpoly, hg]
    exact ⟨_, rfl, by simp [hlen]⟩

/-- α^0, …, α^(deg-1) are roots of the generator polynomial (R126). -/
theorem horner_genpoly {j deg : Nat} (h : j < deg) : horner (gfPow j) (genpoly deg) = 0#8 := by
  induction deg with
  | zero => omega
  | succ deg ih =>
    rw [genpoly, horner_polyTimesRoot]
    obtain h | rfl := Nat.lt_succ_iff_lt_or_eq.mp h
    · rw [ih h, gfMul_zero_left]
    · rw [BitVec.xor_self, gfMul_zero_right]

/-! ### The division shift register -/

theorem length_remainderStep {gs r : List Byte} (d : Byte) (hlen : r.length = gs.length) :
    (remainderStep gs r d).length = gs.length := by
  simp only [remainderStep, List.length_zipWith, List.length_append, List.length_tail,
    List.length_singleton]
  omega

/-- One step of the division on a nonempty register: the register shifted by one position, plus the multiple
of the generator that takes its first byte to `d` (R128). -/
theorem remainderStep_eq_zipWith (gs t : List Byte) (h d : Byte) :
    d :: remainderStep gs (h :: t) d =
      List.zipWith gfAdd (h :: (t ++ [0#8])) ((1#8 :: gs).map (gfMul · (d ^^^ h))) := by
  simp [remainderStep, List.zipWith_map_right, BitVec.xor_comm h]

/-- A step multiplies the value of data and register by the point, where the generator vanishes. -/
theorem hornerFrom_remainderStep {a : Byte} {gs r : List Byte} (acc d : Byte)
    (hpos : 0 < gs.length) (hlen : r.length = gs.length) (hroot : horner a (1#8 :: gs) = 0#8) :
    hornerFrom a acc (d :: remainderStep gs r d) = gfMul (hornerFrom a acc r) a := by
  obtain ⟨h, t, rfl⟩ := List.exists_cons_of_length_pos (hlen ▸ hpos)
  have hsum := hornerFrom_zipWith_gfAdd a acc 0#8
    (xs := h :: (t ++ [0#8])) (ys := (1#8 :: gs).map (gfMul · (d ^^^ h))) (by simpa using hlen)
  have hmul := hornerFrom_map_gfMul a (d ^^^ h) 0#8 (1#8 :: gs)
  rw [← horner_eq_hornerFrom, hroot, gfMul_zero_left] at hmul
  rw [remainderStep_eq_zipWith, ← BitVec.xor_zero (x := acc), hsum, hmul]
  simp

/-- A register that vanishes with what precedes it does so after any data (R128, R132). -/
theorem hornerFrom_append_foldl_remainderStep {a : Byte} {gs : List Byte} (hpos : 0 < gs.length)
    (hroot : horner a (1#8 :: gs) = 0#8) (d : List Byte) {acc : Byte} {r : List Byte}
    (hlen : r.length = gs.length) (h : hornerFrom a acc r = 0#8) :
    hornerFrom a acc (d ++ d.foldl (remainderStep gs) r) = 0#8 := by
  induction d generalizing acc r with
  | nil => exact h
  | cons x d ih =>
    refine ih (acc := gfMul acc a ^^^ x) (length_remainderStep x hlen) ?_
    rw [← hornerFrom_cons, hornerFrom_remainderStep acc x hpos hlen hroot, h, gfMul_zero_left]

theorem length_foldl_remainderStep {gs : List Byte} (d : List Byte) {r : List Byte}
    (hlen : r.length = gs.length) : (d.foldl (remainderStep gs) r).length = gs.length := by
  induction d generalizing r with
  | nil => exact hlen
  | cons x d ih => exact ih (length_remainderStep x hlen)

theorem hornerFrom_replicate_zero (a : Byte) (n : Nat) :
    hornerFrom a 0#8 (List.replicate n 0#8) = 0#8 := by
  induction n with
  | zero => rfl
  | succ n ih => simpa [List.replicate_succ] using ih

theorem length_rsRemainder (d : List Byte) (deg : Nat) : (rsRemainder d deg).length = deg := by
  obtain ⟨gs, hg, rfl⟩ := genpoly_eq_cons deg
  rw [rsRemainder, hg]
  exact length_foldl_remainderStep d List.length_replicate

theorem syndrome_append_rsRemainder (d : List Byte) {j deg : Nat} (h : j < deg) :
    syndrome (d ++ rsRemainder d deg) j = 0#8 := by
  have hroot := horner_genpoly h
  obtain ⟨gs, hg, rfl⟩ := genpoly_eq_cons deg
  rw [hg] at hroot
  rw [rsRemainder, hg]
  exact hornerFrom_append_foldl_remainderStep (by omega) hroot d List.length_replicate
    (hornerFrom_replicate_zero _ _)

/-- Settles O21: the register starts at 0, and each step keeps it vanishing with the data read so far. -/
theorem encodedWordsHaveZeroSyndromes : Obligations.EncodedWordsHaveZeroSyndromes :=
  fun d deg _ _ => ⟨length_rsRemainder d deg, fun _ h => syndrome_append_rsRemainder d h⟩

/-! ### A changed byte -/

theorem hornerFrom_set_xor (j : Nat) (v : Byte) (c : List Byte) (acc : Byte) {p : Nat}
    (hp : p < c.length) :
    hornerFrom (gfPow j) acc (c.set p (c.getD p 0#8 ^^^ v)) =
      hornerFrom (gfPow j) acc c ^^^ gfMul v (gfPow (j * (c.length - 1 - p))) := by
  induction c generalizing acc p with
  | nil => cases hp
  | cons x c ih =>
    cases p with
    | zero =>
      have h := hornerFrom_gfPow_xor j (gfMul acc (gfPow j) ^^^ x) v c
      simpa [BitVec.xor_assoc] using h
    | succ p =>
      have h := ih (gfMul acc (gfPow j) ^^^ x) (Nat.lt_of_succ_lt_succ hp)
      have hexp : (x :: c).length - 1 - (p + 1) = c.length - 1 - p := by
        rw [List.length_cons]
        omega
      rw [hexp]
      exact h

/-- Settles O24: the change adds its own value at α^j, and the word's is 0. -/
theorem syndromesOfAChangedByte : Obligations.SyndromesOfAChangedByte := by
  intro c p v j hp _ h
  calc syndrome (c.set p (c.getD p 0#8 ^^^ v)) j
    _ = syndrome c j ^^^ gfMul v (gfPow (j * (c.length - 1 - p))) := hornerFrom_set_xor j v c 0#8 hp
    _ = gfMul v (gfPow (j * (c.length - 1 - p))) := by rw [h, BitVec.zero_xor]

end Sys2Proof.Machine
end

section
/-! PROOFS. Masks and format information on the grid (R171 to R182): the periods of the mask predicates, and
which cells MASK_APPLY and FORMAT_WRITE change. -/

namespace Sys2Proof.Machine

open Sys2Proof

/-! ### The periods of the mask predicates -/

/-- The periods of a mask predicate in x and in y (R174). -/
def maskPeriod (m : Nat) : Nat × Nat :=
  match m with
  | 0 | 1 => (2, 2)
  | 2 | 3 => (3, 3)
  | 4 => (6, 4)
  | _ => (6, 6)

theorem maskPred_add_left {m d : Nat} (hd : (maskPeriod m).1 ∣ d) (x y : Nat) :
    maskPred m (x + d) y = maskPred m x y := by
  obtain ⟨k, rfl⟩ := hd
  rw [Bool.eq_iff_iff]
  match m with
  | 1 => rfl
  | 0 | 2 | 3 | 4 =>
    simp only [maskPred, maskPeriod, beq_iff_eq]
    omega
  | 5 | 6 | m + 7 =>
    simp only [maskPred, maskPeriod, beq_iff_eq, Nat.add_mul, Nat.mul_assoc]
    omega

theorem maskPred_add_right {m d : Nat} (hd : (maskPeriod m).2 ∣ d) (x y : Nat) :
    maskPred m x (y + d) = maskPred m x y := by
  obtain ⟨k, rfl⟩ := hd
  rw [Bool.eq_iff_iff]
  match m with
  | 2 => rfl
  | 0 | 1 | 3 | 4 =>
    simp only [maskPred, maskPeriod, beq_iff_eq]
    omega
  | 5 | 6 | m + 7 =>
    simp only [maskPred, maskPeriod, beq_iff_eq, Nat.mul_add, Nat.mul_left_comm x]
    omega

/-- Settles O30: each distance named is a multiple of the mask's period, and rows 0 and 6 are 6 apart. -/
theorem masksArePeriodic : Obligations.MasksArePeriodic := by
  have hall : ∀ m < 8, (maskPeriod m).1 ∣ 12 ∧ (maskPeriod m).2 ∣ 12 := by decide
  have hlow : ∀ m < 2, (maskPeriod m).1 ∣ 2 ∧ (maskPeriod m).2 ∣ 2 := by decide
  have hmid : ∀ m < 4, 2 ≤ m → (maskPeriod m).1 ∣ 3 ∧ (maskPeriod m).2 ∣ 3 := by decide
  have hhigh : ∀ m < 8, 5 ≤ m → (maskPeriod m).1 ∣ 6 ∧ (maskPeriod m).2 ∣ 6 := by decide
  have hrows : ∀ m < 8, m ≠ 4 → (maskPeriod m).2 ∣ 6 := by decide
  have hboth : ∀ {m d x y : Nat}, (maskPeriod m).1 ∣ d ∧ (maskPeriod m).2 ∣ d →
      maskPred m x y = maskPred m (x + d) y ∧ maskPred m x y = maskPred m x (y + d) :=
    fun h => ⟨(maskPred_add_left h.1 _ _).symm, (maskPred_add_right h.2 _ _).symm⟩
  intro x y
  exact ⟨fun m hm => hboth (hall m hm), fun m hm => hboth (hlow m hm),
    fun m h2 h4 => hboth (hmid m h4 h2),
    ⟨(maskPred_add_left (by decide) x y).symm, (maskPred_add_right (by decide) x y).symm⟩,
    fun m h5 h8 => hboth (hhigh m h8 h5),
    fun m hm h4 => (maskPred_add_right (hrows m hm h4) x 0).symm⟩

/-! ### Cells after the mask -/

theorem cell_maskPlane {n : Nat} (hn : n ≤ 177) (m : Nat) (func : Plane .func) (p : Plane .mod)
    (x y : Nat) :
    (maskPlane n m func p).cell x y =
      (p.cell x y ^^ (decide (x < n ∧ y < n) && !func.cell x y && maskPred m x y)) := by
  rw [maskPlane, Memory.cell_mapSquare _ _ _ _ _ hn]
  split <;> simp [*]

/-! ### Cells after a list of writes -/

/-- Cells written one after another, as FORMAT_WRITE draws them. -/
def writeCells {id : MemId} (ws : List ((Nat × Nat) × Bool)) (p : Plane id) : Plane id :=
  ws.foldl (fun q c => q.setCell c.1.1 c.1.2 c.2) p

section
variable {id : MemId} {x y : Nat}

theorem cell_writeCells_of_notMem {ws : List ((Nat × Nat) × Bool)} (hx : ∀ c ∈ ws, c.1.1 < 177)
    (h : (x, y) ∉ ws.map Prod.fst) (p : Plane id) : (writeCells ws p).cell x y = p.cell x y := by
  induction ws generalizing p with
  | nil => rfl
  | cons c ws ih =>
    rw [List.map_cons, List.mem_cons, not_or] at h
    obtain ⟨hc, hws⟩ := h
    obtain ⟨hcx, hwsx⟩ := List.forall_mem_cons.mp hx
    calc (writeCells ws (p.setCell c.1.1 c.1.2 c.2)).cell x y
      _ = (p.setCell c.1.1 c.1.2 c.2).cell x y := ih hwsx hws _
      _ = p.cell x y := by
        rw [Memory.cell_setCell _ _ _ _ _ _ hcx, if_neg fun h => hc (Prod.ext h.1.symm h.2.symm)]

/-- A written cell does not depend on what it held. -/
theorem cell_writeCells_congr {ws : List ((Nat × Nat) × Bool)} (hx : ∀ c ∈ ws, c.1.1 < 177)
    {p q : Plane id} (h : (x, y) ∉ ws.map Prod.fst → p.cell x y = q.cell x y) :
    (writeCells ws p).cell x y = (writeCells ws q).cell x y := by
  induction ws generalizing p q with
  | nil => exact h List.not_mem_nil
  | cons c ws ih =>
    obtain ⟨hcx, hwsx⟩ := List.forall_mem_cons.mp hx
    refine ih hwsx fun hws => ?_
    rw [Memory.cell_setCell _ _ _ _ _ _ hcx, Memory.cell_setCell _ _ _ _ _ _ hcx]
    split
    · rfl
    next hc =>
      refine h fun hmem => ?_
      obtain hc' | hmem := List.mem_cons.mp hmem
      · exact hc ⟨(congrArg Prod.fst hc').symm, (congrArg Prod.snd hc').symm⟩
      · exact hws hmem

end

/-! ### Cells after the format information -/

theorem formatPlane_eq_writeCells (n e m : Nat) (p : Plane .mod) :
    formatPlane n e m p = writeCells (formatWrites n e m) p := rfl

/-- The first copy covers its arms around the finder, the timing cells at 6 left out (R180). -/
theorem exists_formatCell1_eq_iff {x y : Nat} : (∃ i < 15, formatCell1 i = (x, y)) ↔
    (x = 8 ∧ y ≤ 8 ∧ y ≠ 6) ∨ (y = 8 ∧ x ≤ 8 ∧ x ≠ 6) := by
  have hmem : ∀ i < 15, let c := formatCell1 i
      (c.1 = 8 ∧ c.2 ≤ 8 ∧ c.2 ≠ 6) ∨ (c.2 = 8 ∧ c.1 ≤ 8 ∧ c.1 ≠ 6) := by decide
  have hcolumn : ∀ y ≤ 8, y ≠ 6 → ∃ i < 15, formatCell1 i = (8, y) := by decide
  have hrow : ∀ x ≤ 8, x ≠ 6 → ∃ i < 15, formatCell1 i = (x, 8) := by decide
  constructor
  · rintro ⟨i, hi, h⟩
    simpa [h] using hmem i hi
  · rintro (⟨rfl, hy, h6⟩ | ⟨rfl, hx, h6⟩)
    · exact hcolumn y hy h6
    · exact hrow x hx h6

/-- The second copy and the dark module cover the last eight cells of row 8 and of column 8 (R180, R181). -/
theorem exists_formatCell2_eq_or_dark_iff {n x y : Nat} (hn : 21 ≤ n) :
    ((∃ i < 15, formatCell2 n i = (x, y)) ∨ (x, y) = (8, n - 8)) ↔
      (y = 8 ∧ n - 8 ≤ x ∧ x < n) ∨ (x = 8 ∧ n - 8 ≤ y ∧ y < n) := by
  simp only [formatCell2, Prod.ext_iff]
  constructor
  · rintro (⟨i, hi, h⟩ | h)
    · split at h <;> omega
    · omega
  · rintro (⟨rfl, hlo, hhi⟩ | ⟨rfl, hlo, hhi⟩)
    · exact .inl ⟨n - 1 - x, by omega, by rw [if_pos (by omega)]; omega⟩
    · obtain rfl | hy := Nat.eq_or_lt_of_le hlo
      · exact .inr ⟨rfl, rfl⟩
      · exact .inl ⟨y + 15 - n, by omega, by rw [if_neg (by omega)]; omega⟩

/-- FORMAT_WRITE writes the format cells and the dark module (R180 to R182). -/
theorem mem_map_fst_formatWrites {n : Nat} (hn : 21 ≤ n) (e m : Nat) {x y : Nat} :
    (x, y) ∈ (formatWrites n e m).map Prod.fst ↔ IsFormatCell n x y := by
  have hcells : (formatWrites n e m).map Prod.fst =
      (List.range 15).map formatCell1 ++ ((List.range 15).map (formatCell2 n) ++ [(8, n - 8)]) := by
    simp [formatWrites, Function.comp_def]
  simp only [hcells, List.mem_append, List.mem_map, List.mem_range, List.mem_singleton,
    exists_formatCell1_eq_iff, exists_formatCell2_eq_or_dark_iff hn, IsFormatCell, or_assoc]

section
variable {n : Nat} (hlo : 21 ≤ n) (hhi : n ≤ 177)
include hlo hhi

theorem lt_177_of_mem_formatWrites {e m : Nat} : ∀ c ∈ formatWrites n e m, c.1.1 < 177 := by
  rintro ⟨⟨x, y⟩, b⟩ hc
  have hcell := (mem_map_fst_formatWrites hlo e m).mp (List.mem_map_of_mem hc)
  simp only [IsFormatCell] at hcell ⊢
  omega

theorem cell_formatPlane_of_not_isFormatCell (e m : Nat) (p : Plane .mod) {x y : Nat}
    (h : ¬IsFormatCell n x y) : (formatPlane n e m p).cell x y = p.cell x y := by
  rw [formatPlane_eq_writeCells]
  exact cell_writeCells_of_notMem (lt_177_of_mem_formatWrites hlo hhi)
    (mt (mem_map_fst_formatWrites hlo e m).mp h) p

/-- The format information hides what stood in its cells. -/
theorem cell_formatPlane_congr (e m : Nat) {p q : Plane .mod} {x y : Nat}
    (h : ¬IsFormatCell n x y → p.cell x y = q.cell x y) :
    (formatPlane n e m p).cell x y = (formatPlane n e m q).cell x y := by
  rw [formatPlane_eq_writeCells, formatPlane_eq_writeCells]
  exact cell_writeCells_congr (lt_177_of_mem_formatWrites hlo hhi)
    fun hmem => h (mt (mem_map_fst_formatWrites hlo e m).mpr hmem)

end

/-! ### The commands at a legal version -/

theorem side_bounds {s : State} (h : VersionLegal s) : 21 ≤ side s ∧ side s ≤ 177 := by
  unfold VersionLegal side at *
  omega

theorem exec_eq_next {i : Instr} {s u : State} (h : bodyOf i s = .ok u) :
    exec i s = .next (completed u) := by
  rw [exec_eq_completes, h]
  rfl

theorem State.withGeometry_of_legal {s : State} (hs : VersionLegal s)
    (body : Geometry → Except Raise State) : s.withGeometry body = body s.geom :=
  (State.withGeometry_eq s body).trans (if_pos hs)

theorem State.geom_size (s : State) : s.geom.size = side s := rfl

theorem maskOperand_of_lt {m : Nat} (h : m < 8) : maskOperand m = m := Nat.mod_eq_of_lt h

theorem exec_maskApply {s : State} {m : Nat} (hs : VersionLegal s) (hm : m < 8) :
    exec (.maskApply m) s =
      .next (completed { s with mod := maskPlane (side s) m s.func s.mod }) := by
  apply exec_eq_next
  rw [bodyOf, bodyMaskApply, State.withGeometry_of_legal hs, maskOperand_of_lt hm, State.geom_size]

theorem exec_formatWrite {s : State} {m : Nat} (hs : VersionLegal s) (hm : m < 8) :
    exec (.formatWrite m) s =
      .next (completed { s with mod := formatPlane (side s) s.ecl m s.mod }) := by
  apply exec_eq_next
  rw [bodyOf, bodyFormatWrite, State.withGeometry_of_legal hs, maskOperand_of_lt hm, State.geom_size]

theorem exec_score {s : State} (hs : VersionLegal s) :
    exec .score s =
      .next (completed { s with score := (planePenalty s.params (side s) s.mod).regs }) := by
  apply exec_eq_next
  rw [bodyOf, bodyScore, State.withGeometry_of_legal hs, State.geom_size]

/-- Off the format cells a candidate grid is the starting grid under the mask (R177, R182). -/
theorem cell_candidatePlane_of_not_isFormatCell {n : Nat} (hlo : 21 ≤ n) (hhi : n ≤ 177) (e m : Nat)
    (func : Plane .func) (p : Plane .mod) {x y : Nat} (h : ¬IsFormatCell n x y) :
    (candidatePlane n e m func p).cell x y =
      (p.cell x y ^^ (decide (x < n ∧ y < n) && !func.cell x y && maskPred m x y)) := by
  rw [candidatePlane, cell_formatPlane_of_not_isFormatCell hlo hhi e m _ h, cell_maskPlane hhi]

/-- MASK_APPLY m and FORMAT_WRITE m draw the candidate grid of `m` (R195). -/
theorem exists_exec_draw {s : State} {m : Nat} (hs : VersionLegal s) (hm : m < 8) :
    ∃ t u, exec (.maskApply m) s = .next t ∧ exec (.formatWrite m) t = .next u ∧
      u.mod = candidatePlane (side s) s.ecl m s.func s.mod :=
  ⟨_, _, exec_maskApply hs hm, exec_formatWrite hs hm, rfl⟩

/-- Settles O39: off the format cells a drawn grid is the starting grid, XOR the predicate where no function
cell stands. -/
theorem functionCellsAreTheSameForAllMasks : Obligations.FunctionCellsAreTheSameForAllMasks := by
  intro s m m' hm hm' hs
  obtain ⟨hlo, hhi⟩ := side_bounds hs
  obtain ⟨t, u, ht, hu, hmod⟩ := exists_exec_draw hs hm
  obtain ⟨t', u', ht', hu', hmod'⟩ := exists_exec_draw hs hm'
  refine ⟨t, t', u, u', ht, hu, ht', hu', fun x y hfunc hcell => ?_, fun x y hx hy hfunc hcell => ?_⟩
  · simp only [hmod, hmod', cell_candidatePlane_of_not_isFormatCell hlo hhi _ _ _ _ hcell, hfunc,
      Bool.not_true, Bool.and_false, Bool.false_and]
  · rw [hmod, cell_candidatePlane_of_not_isFormatCell hlo hhi _ _ _ _ hcell]
    simp [hx, hy, hfunc]

end Sys2Proof.Machine
end

section
/-! PROOFS. Bounds of the penalty terms (R187 to R191): every term is at most linear in the cells of the lines
it looks at, so a total of a symbol of side at most 177 is a 32-bit word's value. -/

namespace Sys2Proof.Machine

open Sys2Proof

/-! ### Runs of a line -/

theorem sum_length_runs (line : List Bool) : ((runs line).map Prod.snd).sum = line.length := by
  induction line with
  | nil => rfl
  | cons c rest ih =>
    rw [runs, List.length_cons, ← ih]
    split
    next h => simp [h]
    next d len more h =>
      split <;> simp only [h, List.map_cons, List.sum_cons] <;> omega

theorem length_runs_le (line : List Bool) : (runs line).length ≤ line.length := by
  induction line with
  | nil => exact Nat.le_refl 0
  | cons c rest ih =>
    rw [runs]
    split
    next h => simp
    next d len more h =>
      rw [h] at ih
      split <;> simp only [List.length_cons] at ih ⊢ <;> omega

/-! ### The penalty of a line -/

theorem n1Line_le (line : List Bool) : n1Line line ≤ line.length := by
  have hrun : ∀ r ∈ runs line, runPenalty r.2 ≤ r.2 := by
    intro r _
    unfold runPenalty
    split <;> omega
  calc n1Line line ≤ ((runs line).map Prod.snd).sum := List.sum_le_sum hrun
    _ = line.length := sum_length_runs line

theorem n3At_le (scaled : Bool) (prev : Option RunLength) (rs : List (Bool × RunLength)) :
    n3At scaled prev rs ≤ 2 := by
  unfold n3At
  split
  · split
    · omega
    · split
      · exact Nat.add_le_add (Bool.toNat_le _) (Bool.toNat_le _)
      · omega
  · omega

theorem n3From_le (scaled : Bool) (prev : Option RunLength) (rs : List (Bool × RunLength)) :
    n3From scaled prev rs ≤ 2 * rs.length := by
  induction rs generalizing prev with
  | nil => exact Nat.le_refl 0
  | cons r rest ih =>
    have hat := n3At_le scaled prev (r :: rest)
    have hrest := ih (some r.2)
    rw [n3From, List.length_cons]
    omega

theorem length_lightBefore_le (rs : List (Bool × RunLength)) :
    (lightBefore rs).length ≤ rs.length + 1 := by
  unfold lightBefore
  split <;> simp

theorem length_n3Runs_le (borderLight : Bool) (line : List Bool) :
    (n3Runs borderLight line).length ≤ line.length + 2 := by
  have hruns := length_runs_le line
  unfold n3Runs
  split
  · have hlast := length_lightBefore_le
      (lightBefore ((runs line).map fun (c, len) => (c, RunLength.cells len))).reverse
    have hfirst := length_lightBefore_le ((runs line).map fun (c, len) => (c, RunLength.cells len))
    simp only [List.length_reverse, List.length_map] at hlast hfirst ⊢
    omega
  · rw [List.length_map]
    omega

theorem n3Count_le (p : Params) (line : List Bool) : n3Count p line ≤ 2 * (line.length + 2) :=
  (n3From_le _ _ _).trans (Nat.mul_le_mul_left 2 (length_n3Runs_le _ line))

/-! ### The terms of a symbol -/

theorem sum_map_range_le {n b : Nat} {f : Nat → Nat} (h : ∀ i < n, f i ≤ b) :
    ((List.range n).map f).sum ≤ n * b := by
  have := List.sum_le_card_nsmul ((List.range n).map f) b (by simpa using h)
  simpa using this

theorem countP_range_le (n : Nat) (f : Nat → Bool) : (List.range n).countP f ≤ n :=
  List.countP_le_length.trans_eq List.length_range

/-- A bound of each line of `n` cells bounds the sum over the `2n` lines (R185). -/
theorem sum_map_gridLines_le {n b : Nat} {f : List Bool → Nat} (g : Nat → Nat → Bool)
    (h : ∀ line : List Bool, line.length = n → f line ≤ b) :
    ((gridLines n g).map f).sum ≤ 2 * n * b := by
  have hrows : ((List.range n).map fun y => f (rowLine n g y)).sum ≤ n * b :=
    sum_map_range_le fun y _ => h _ (by simp [rowLine])
  have hcols : ((List.range n).map fun x => f (colLine n g x)).sum ≤ n * b :=
    sum_map_range_le fun x _ => h _ (by simp [colLine])
  calc ((gridLines n g).map f).sum
    _ = ((List.range n).map fun y => f (rowLine n g y)).sum +
        ((List.range n).map fun x => f (colLine n g x)).sum := by
      simp [gridLines, Function.comp_def]
    _ ≤ n * b + n * b := Nat.add_le_add hrows hcols
    _ = 2 * n * b := by ring

theorem penaltyN1_le (n : Nat) (g : Nat → Nat → Bool) : penaltyN1 n g ≤ 2 * n * n :=
  sum_map_gridLines_le g fun line h => (n1Line_le line).trans_eq h

theorem penaltyN2_le (n : Nat) (g : Nat → Nat → Bool) : penaltyN2 n g ≤ 3 * ((n - 1) * (n - 1)) :=
  Nat.mul_le_mul_left 3 (sum_map_range_le fun _ _ => countP_range_le _ _)

theorem penaltyN3_le (p : Params) (n : Nat) (g : Nat → Nat → Bool) :
    penaltyN3 p n g ≤ 40 * (2 * n * (2 * (n + 2))) :=
  Nat.mul_le_mul_left 40 (sum_map_gridLines_le g fun line h => h ▸ n3Count_le p line)

theorem darkCells_le (n : Nat) (g : Nat → Nat → Bool) : darkCells n g ≤ n * n :=
  sum_map_range_le fun _ _ => countP_range_le _ _

theorem penaltyN4_le (r : N4Rounding) {dark total : Nat} (h : dark ≤ total) :
    penaltyN4 r dark total ≤ 100 := by
  have hq : (20 * (dark : Int) - 10 * (total : Int)).natAbs ≤ total * 10 := by omega
  have hfloor := Nat.div_le_of_le_mul hq
  unfold penaltyN4
  cases r with
  | floor => exact Nat.mul_le_mul_left 10 hfloor
  | ceilMinusOne =>
    have hceil : ((20 * (dark : Int) - 10 * (total : Int)).natAbs + total - 1) / total ≤ 11 :=
      Nat.div_le_of_le_mul (by omega)
    dsimp only
    omega

/-- No total of a symbol of side at most 177 wraps (R34). -/
theorem total_penalty_lt (p : Params) {n : Nat} (hn : n ≤ 177) (g : Nat → Nat → Bool) :
    (penalty p n g).total < 2 ^ 32 := by
  have h1 := penaltyN1_le n g
  have h2 := penaltyN2_le n g
  have h3 := penaltyN3_le p n g
  have h4 := penaltyN4_le p.n4Rounding (darkCells_le n g)
  have hn1 : 2 * n * n ≤ 2 * 177 * 177 := by gcongr
  have hn2 : (n - 1) * (n - 1) ≤ 177 * 177 := by gcongr <;> omega
  have hn3 : 2 * n * (2 * (n + 2)) ≤ 2 * 177 * (2 * (177 + 2)) := by gcongr
  simp only [Penalty.total, penalty]
  omega

end Sys2Proof.Machine
end

section
/-! PROOFS. MASK_SELECT (R195, R197): every candidate is drawn on a grid that differs from the command's
starting grid in format cells alone, which its own format information covers, so each total is that of the
candidate drawn on the starting grid, and the final grid's is the chosen one's. -/

namespace Sys2Proof.Machine

open Sys2Proof

/-! ### The evaluation of the candidates -/

/-- The grids agree off the format cells and the dark module. -/
def AgreeOffFormat (n : Nat) (p q : Plane .mod) : Prop :=
  ∀ x y, ¬IsFormatCell n x y → p.cell x y = q.cell x y

/-- The total of candidate `m` drawn on the grid `p` (R195). -/
def candidateTotal (params : Params) (n e : Nat) (func : Plane .func) (p : Plane .mod) (m : Nat) : Nat :=
  (planePenalty params n (candidatePlane n e m func p)).total

theorem evalCandidates_cons (params : Params) (n e : Nat) (func : Plane .func) (p : Plane .mod)
    (m : Nat) (ms : List Nat) :
    evalCandidates params n e func p (m :: ms) =
      let r := evalCandidates params n e func (maskPlane n m func (candidatePlane n e m func p)) ms
      (r.1, (m, candidateTotal params n e func p m) :: r.2) := by
  rw [evalCandidates, candidateTotal]

section
variable {n : Nat} (hlo : 21 ≤ n) (hhi : n ≤ 177)
include hlo hhi

/-- A candidate grid does not depend on the format cells it is drawn on. -/
theorem cell_candidatePlane_congr (e m : Nat) (func : Plane .func) {p q : Plane .mod}
    (h : AgreeOffFormat n p q) :
    (candidatePlane n e m func p).cell = (candidatePlane n e m func q).cell := by
  funext x y
  refine cell_formatPlane_congr hlo hhi e m fun hcell => ?_
  rw [cell_maskPlane hhi, cell_maskPlane hhi, h x y hcell]

theorem planePenalty_candidatePlane_congr (params : Params) (e m : Nat) (func : Plane .func)
    {p q : Plane .mod} (h : AgreeOffFormat n p q) :
    planePenalty params n (candidatePlane n e m func p) =
      planePenalty params n (candidatePlane n e m func q) := by
  rw [planePenalty, planePenalty, cell_candidatePlane_congr hlo hhi e m func h]

theorem candidateTotal_congr (params : Params) (e m : Nat) (func : Plane .func) {p q : Plane .mod}
    (h : AgreeOffFormat n p q) :
    candidateTotal params n e func p m = candidateTotal params n e func q m :=
  congrArg Penalty.total (planePenalty_candidatePlane_congr hlo hhi params e m func h)

/-- Undoing a candidate's mask leaves the grid it was drawn on, but for format cells (R176, R195). -/
theorem agreeOffFormat_maskPlane_candidatePlane (e m : Nat) (func : Plane .func) {p q : Plane .mod}
    (h : AgreeOffFormat n p q) :
    AgreeOffFormat n (maskPlane n m func (candidatePlane n e m func p)) q := by
  intro x y hcell
  rw [cell_maskPlane hhi, cell_candidatePlane_of_not_isFormatCell hlo hhi _ _ _ _ hcell]
  simpa using h x y hcell

/-- The loop scores every candidate as drawn on the starting grid, and leaves that grid but for format cells
(R195). -/
theorem evalCandidates_spec (params : Params) (e : Nat) (func : Plane .func) {p q : Plane .mod}
    (h : AgreeOffFormat n p q) (ms : List Nat) :
    AgreeOffFormat n (evalCandidates params n e func p ms).1 q ∧
      (evalCandidates params n e func p ms).2 =
        ms.map fun m => (m, candidateTotal params n e func q m) := by
  induction ms generalizing p with
  | nil => exact ⟨h, rfl⟩
  | cons m ms ih =>
    obtain ⟨hplane, htotals⟩ := ih (agreeOffFormat_maskPlane_candidatePlane hlo hhi e m func h)
    rw [evalCandidates_cons]
    refine ⟨hplane, ?_⟩
    rw [List.map_cons, ← candidateTotal_congr hlo hhi params e m func h, ← htotals]

end

/-! ### The choice -/

theorem bestOf_cons_cons (c d : Nat × Nat) (rest : List (Nat × Nat)) :
    bestOf (c :: d :: rest) = if c.2 ≤ (bestOf (d :: rest)).2 then c else bestOf (d :: rest) := rfl

theorem bestOf_mem {cs : List (Nat × Nat)} (h : cs ≠ []) : bestOf cs ∈ cs := by
  induction cs with
  | nil => exact absurd rfl h
  | cons c rest ih =>
    cases rest with
    | nil => exact List.mem_singleton_self c
    | cons d rest =>
      rw [bestOf_cons_cons]
      split
      · exact List.mem_cons_self
      · exact List.mem_cons_of_mem c (ih (List.cons_ne_nil d rest))

theorem bestOf_le {cs : List (Nat × Nat)} {c : Nat × Nat} (h : c ∈ cs) : (bestOf cs).2 ≤ c.2 := by
  induction cs with
  | nil => cases h
  | cons d rest ih =>
    cases rest with
    | nil => exact (List.mem_singleton.mp h) ▸ Nat.le_refl _
    | cons e rest =>
      rw [bestOf_cons_cons]
      obtain rfl | h := List.mem_cons.mp h
      · split <;> omega
      · have := ih h
        split <;> omega

theorem find?_map_fst_eq {ms : List Nat} (f : Nat → Nat) {m : Nat} (h : m ∈ ms) :
    (ms.map fun k => (k, f k)).find? (fun c => c.1 == m) = some (m, f m) := by
  induction ms with
  | nil => cases h
  | cons k ms ih =>
    rw [List.map_cons, List.find?_cons]
    by_cases hk : k = m
    · simp [hk]
    · rw [beq_false_of_ne hk]
      exact ih ((List.mem_cons.mp h).resolve_left (Ne.symm hk))

theorem penOf_map {ms : List Nat} (f : Nat → Nat) {m : Nat} (h : m ∈ ms) :
    penOf (ms.map fun k => (k, f k)) m = word (f m) := by
  rw [penOf, find?_map_fst_eq f h]

/-! ### MASK_SELECT at a legal version -/

/-- The total of mask `m` drawn on the command's starting grid (R195). -/
def State.totalOf (s : State) (m : Nat) : Nat :=
  candidateTotal s.params (side s) s.ecl s.func s.mod m

/-- The mask MASK_SELECT chooses, by the totals on its starting grid (R195). -/
def State.chosenMask (s : State) : Nat :=
  (bestOf (s.candidates.map fun m => (m, s.totalOf m))).1

theorem State.totalOf_lt (s : State) (hs : VersionLegal s) (m : Nat) : s.totalOf m < 2 ^ 32 :=
  total_penalty_lt s.params (side_bounds hs).2 _

/-- The chosen mask is a candidate of least total (R195). -/
theorem State.chosenMask_spec (s : State) (h : s.candidates ≠ []) :
    s.chosenMask ∈ s.candidates ∧ ∀ m ∈ s.candidates, s.totalOf s.chosenMask ≤ s.totalOf m := by
  have hne : (s.candidates.map fun m => (m, s.totalOf m)) ≠ [] := mt List.map_eq_nil_iff.mp h
  obtain ⟨best, hmem, hbest⟩ := List.mem_map.mp (bestOf_mem hne)
  have hchosen : s.chosenMask = best := congrArg Prod.fst hbest.symm
  rw [hchosen]
  refine ⟨hmem, fun m hm => ?_⟩
  have hle := bestOf_le (List.mem_map_of_mem (f := fun m => (m, s.totalOf m)) hm)
  rwa [← hbest] at hle

/-- MASK_SELECT draws the chosen mask on a grid that agrees with the starting grid off the format cells, and
writes the penalty of what it drew, the totals and the choice (R195). -/
theorem exists_exec_maskSelect {s : State} (hs : VersionLegal s) :
    ∃ p : Plane .mod, AgreeOffFormat (side s) p s.mod ∧
      exec .maskSelect s = .next (completed { s with
        mod := candidatePlane (side s) s.ecl s.chosenMask s.func p
        score := (planePenalty s.params (side s)
          (candidatePlane (side s) s.ecl s.chosenMask s.func s.mod)).regs
        pen := Vector.ofFn fun m => penOf (s.candidates.map fun m => (m, s.totalOf m)) m.val
        best := Best.of s.chosenMask s.candidates }) := by
  obtain ⟨hlo, hhi⟩ := side_bounds hs
  obtain ⟨hplane, htotals⟩ := evalCandidates_spec hlo hhi s.params s.ecl s.func
    (fun _ _ _ => rfl : AgreeOffFormat (side s) s.mod s.mod) s.candidates
  refine ⟨_, hplane, exec_eq_next ?_⟩
  rw [← planePenalty_candidatePlane_congr hlo hhi s.params s.ecl s.chosenMask s.func hplane, bodyOf,
    bodyMaskSelect, State.withGeometry_of_legal hs, State.geom_size]
  dsimp only
  rw [htotals]
  rfl

theorem toNat_word_of_lt {k : Nat} (h : k < 2 ^ 32) : (word k).toNat = k :=
  Nat.mod_eq_of_lt h

/-- Settles O38: the chosen mask's total is its PEN and the least of the eight, and the final grid's cells are
those of the chosen candidate. -/
theorem selectedScoreIsTheMinimum : Obligations.SelectedScoreIsTheMinimum := by
  intro s t hs hforce h
  have hcands : s.candidates = List.range 8 := by simp [State.candidates, hforce]
  obtain ⟨hmem, hleast⟩ := s.chosenMask_spec (by simp [hcands])
  simp only [hcands, List.mem_range] at hmem hleast
  obtain ⟨p, hp, hexec⟩ := exists_exec_maskSelect hs
  have ht := Host.Outcome.next.inj (h.symm.trans hexec)
  have htotal : t.score.total = word (s.totalOf s.chosenMask) := by rw [ht]; rfl
  have hpen (m : Fin 8) : t.pen[m] = word (s.totalOf m) := by
    rw [← penOf_map s.totalOf (List.mem_range.mpr m.isLt)]
    simp [ht, completed, hcands]
  have hbest : t.best.mask.toNat = s.chosenMask := by
    rw [ht]
    exact Nat.mod_eq_of_lt hmem
  refine ⟨fun m hm => ?chosen, fun m => ?least, ?rescore⟩
  case chosen => rw [htotal, hpen, hm, hbest]
  case least =>
    rw [htotal, hpen, toNat_word_of_lt (s.totalOf_lt hs _), toNat_word_of_lt (s.totalOf_lt hs _)]
    exact hleast m m.isLt
  case rescore =>
    obtain ⟨hlo, hhi⟩ := side_bounds hs
    subst ht
    exact ⟨_, exec_score hs, congrArg Penalty.regs
      (planePenalty_candidatePlane_congr hlo hhi s.params s.ecl s.chosenMask s.func hp)⟩

end Sys2Proof.Machine
end

section
/-! PROOFS. Errors and the interrupt (R210 to R220): which errors a command's body can raise, ILLEGAL_PARAM
in the cases of R212, ILLEGAL_OPCODE for the words R84 rejects, and the interrupt output. -/

namespace Sys2Proof.Machine

open Sys2Proof

/-! ### What a command's body raises -/

/-- A body with a range check fails when the check does, or as the rest of the body fails. -/
theorem ite_error_eq_error {p : Prop} [Decidable p] {e e' : Raise} {b : Except Raise State} :
    (if p then .error e else b) = .error e' ↔ (p ∧ e = e') ∨ (¬p ∧ b = .error e') := by
  split <;> simp [*]

/-- A body that needs a version fails at an illegal one, or as it does on the current geometry (R47). -/
theorem State.withGeometry_eq_error {s : State} {body : Geometry → Except Raise State} {e : Raise} :
    s.withGeometry body = .error e ↔
      (¬VersionLegal s ∧ .illegalParam = e) ∨ (VersionLegal s ∧ body s.geom = .error e) := by
  rw [State.withGeometry_eq]
  by_cases h : VersionLegal s
  · simp [h, show 1 ≤ s.version ∧ s.version ≤ 40 from h]
  · simp [h, show ¬(1 ≤ s.version ∧ s.version ≤ 40) from h]

theorem legalCount_eq_false_iff {n : Nat} : legalCount n = false ↔ 32 < n := by
  simp [legalCount]

theorem legalDegree_eq_false_iff {d : Nat} : legalDegree d = false ↔ d = 0 ∨ 30 < d := by
  unfold legalDegree Config.maxDeg
  simp only [Bool.and_eq_false_iff, decide_eq_false_iff_not]
  omega

/-- The cases of R212 are those in which a command's body raises ILLEGAL_PARAM. -/
theorem bodyOf_eq_illegalParam_iff (i : Instr) (s : State) :
    bodyOf i s = .error .illegalParam ↔ IllegalParam i s := by
  cases i with
  | nop | bpClear | gfMul | gfExp | gridClear =>
    simp [bodyOf, bodyBpClear, bodyGfMul, bodyGfExp, bodyGridClear, IllegalParam]
  | bpAppend n =>
    simp [bodyOf, bodyBpAppend, ite_error_eq_error, legalCount_eq_false_iff, IllegalParam]
  | rsGenpoly deg =>
    simp only [bodyOf, bodyRsGenpoly, ite_error_eq_error, Bool.not_eq_true', legalDegree_eq_false_iff,
      reduceCtorEq, and_true, and_false, or_false, IllegalParam]
  | rsEncode d | rsSyndrome d =>
    simp only [bodyOf, bodyRsEncode, bodyRsSyndrome, ite_error_eq_error, Bool.not_eq_true',
      legalDegree_eq_false_iff, reduceCtorEq, and_true, and_false, or_false, IllegalParam]
    unfold State.off State.len Config.dataBytes
    omega
  | bpFinalize | place =>
    simp [bodyOf, bodyBpFinalize, bodyPlace, State.withGeometry_eq_error, ite_error_eq_error, IllegalParam]
  | interleave | maskApply | formatWrite | score | maskSelect =>
    simp [bodyOf, bodyInterleave, bodyMaskApply, bodyFormatWrite, bodyScore, bodyMaskSelect,
      State.withGeometry_eq_error, IllegalParam]

/-- No command's body raises ILLEGAL_OPCODE: only a word that is no command does (R211). -/
theorem bodyOf_ne_illegalOpcode (i : Instr) (s : State) (c : Word) :
    bodyOf i s ≠ .error (.illegalOpcode c) := by
  cases i with
  | nop | bpClear | gfMul | gfExp | gridClear =>
    simp [bodyOf, bodyBpClear, bodyGfMul, bodyGfExp, bodyGridClear]
  | bpAppend | rsGenpoly | rsEncode | rsSyndrome =>
    simp [bodyOf, bodyBpAppend, bodyRsGenpoly, bodyRsEncode, bodyRsSyndrome, ite_error_eq_error]
  | bpFinalize | place | interleave | maskApply | formatWrite | score | maskSelect =>
    simp [bodyOf, bodyBpFinalize, bodyPlace, bodyInterleave, bodyMaskApply, bodyFormatWrite, bodyScore,
      bodyMaskSelect, State.withGeometry_eq_error, ite_error_eq_error]

/-! ### How a command completes -/

theorem exec_eq_next_failed {i : Instr} {s : State} {e : Raise} (h : bodyOf i s = .error e) :
    exec i s = .next (failed s (BitVec.ofNat 8 e.code) e.info0 e.info1) := by
  rw [exec_eq_completes, h]
  rfl

/-- A command's meaning answers what its body left, or the error its body raised, and completes
(R213, R214). -/
theorem exec_cases {i : Instr} {s t : State} (h : exec i s = .next t) :
    (∃ u, bodyOf i s = .ok u ∧ t = completed u) ∨
    (∃ e, bodyOf i s = .error e ∧ t = failed s (BitVec.ofNat 8 e.code) e.info0 e.info1) := by
  cases hb : bodyOf i s with
  | ok u => exact .inl ⟨u, rfl, Host.Outcome.next.inj (h.symm.trans (exec_eq_next hb))⟩
  | error e => exact .inr ⟨e, rfl, Host.Outcome.next.inj (h.symm.trans (exec_eq_next_failed hb))⟩

/-- ERRCODE after a command is what it was, or the code of the error its body raised (R213). -/
theorem errcode_exec_cases {i : Instr} {s t : State} (h : exec i s = .next t) :
    t.status.errcode = s.status.errcode ∨
    ∃ e, bodyOf i s = .error e ∧ t.status.errcode = BitVec.ofNat 8 e.code := by
  obtain ⟨u, hb, rfl⟩ | ⟨e, hb, rfl⟩ := exec_cases h
  · exact .inl (by simp [completed, (bodyOf_sameControl hb).status])
  · exact .inr ⟨e, hb, rfl⟩

theorem Raise.eq_illegalParam_of_code {e : Raise} (h : BitVec.ofNat 8 e.code = 4#8) :
    e = .illegalParam := by
  cases e <;> simp [Raise.code] at h ⊢

theorem Raise.eq_illegalOpcode_of_code {e : Raise} (h : BitVec.ofNat 8 e.code = 3#8) :
    ∃ c, e = .illegalOpcode c := by
  cases e <;> simp [Raise.code] at h ⊢

/-- Settles O11: the listed cases are those in which the body raises ILLEGAL_PARAM, and code 4 is no other
error's. -/
theorem illegalParamExactlyInTheListedCases : Obligations.IllegalParamExactlyInTheListedCases := by
  intro i s
  refine ⟨fun hill => exec_eq_next_failed ((bodyOf_eq_illegalParam_iff i s).mpr hill),
    fun hlegal t ht h4 => ?_⟩
  obtain hsame | ⟨e, hb, hcode⟩ := errcode_exec_cases ht
  · exact hsame ▸ h4
  · obtain rfl := Raise.eq_illegalParam_of_code (hcode ▸ h4)
    exact absurd ((bodyOf_eq_illegalParam_iff i s).mp hb) hlegal

/-! ### The words `decode` rejects -/

/-- The opcodes whose F1 is reserved (R81, R83). -/
theorem opcodeMap_eq_reserved_iff {opc : Nat} : (∃ i, opcodeMap opc = some (.reserved i)) ↔
    opc ∈ [0x00, 0x01, 0x03, 0x10, 0x11, 0x20, 0x21, 0x22, 0x32, 0x33] := by
  unfold opcodeMap
  split <;> simp_all

/-- The opcodes whose F1 is a mask index (R81, R83). -/
theorem opcodeMap_eq_mask_iff {opc : Nat} : (∃ mk, opcodeMap opc = some (.mask mk)) ↔
    opc ∈ [0x30, 0x31] := by
  unfold opcodeMap
  split <;> simp_all

/-- The opcodes R83 does not define (R85). -/
theorem opcodeMap_eq_none_iff {opc : Nat} : opcodeMap opc = none ↔
    opc ∉ [0x00, 0x01, 0x02, 0x03, 0x10, 0x11, 0x12, 0x13, 0x14, 0x20, 0x21, 0x22, 0x30, 0x31, 0x32,
      0x33] := by
  unfold opcodeMap
  split <;> simp_all

/-- `decode` rejects a word exactly for one of the causes R84 tests. -/
theorem decode_eq_error_iff {c : Word} : (∃ e, decode c = .error e) ↔
    opcodeMap (field c 0 8) = none ∨ field c 16 16 ≠ 0 ∨
    ((∃ i, opcodeMap (field c 0 8) = some (.reserved i)) ∧ field c 8 8 ≠ 0) ∨
    ((∃ mk, opcodeMap (field c 0 8) = some (.mask mk)) ∧ field c 8 8 / 8 ≠ 0) := by
  unfold decode
  cases hu : opcodeMap (field c 0 8) with
  | none => simp [hu]
  | some use =>
    by_cases hrsv : field c 16 16 = 0
    · cases use with
      | reserved i => by_cases hf : field c 8 8 = 0 <;> simp [hu, hrsv, hf]
      | byte mk => simp [hu, hrsv]
      | mask mk => by_cases hf : field c 8 8 / 8 = 0 <;> simp [hu, hrsv, hf]
    · simp [hu, hrsv]

/-- The illegal words of R211 are the words `decode` rejects. -/
theorem illegalWord_iff {c : Word} : IllegalWord c ↔ ∃ e, decode c = .error e := by
  have hrsv : c.toNat / 2 ^ 16 = field c 16 16 := by
    rw [field_eq_div_mod]
    omega
  have hopc : c.toNat % 2 ^ 8 = field c 0 8 := by simp [field_eq_div_mod]
  rw [decode_eq_error_iff, opcodeMap_eq_none_iff, opcodeMap_eq_reserved_iff, opcodeMap_eq_mask_iff]
  simp only [IllegalWord, hrsv, hopc, ← field_eq_div_mod]

/-- A rejected word completes with ILLEGAL_OPCODE, recording the word (R211). -/
theorem completeCommand_of_decode_error {c : Word} {r : DecodeError} (h : decode c = .error r)
    (s : State) : completeCommand c s = .next (failed s 3#8 c 0#32) := by
  simp only [completeCommand, h]
  rfl

theorem completeCommand_of_decode_ok {c : Word} {i : Instr} (h : decode c = .ok i) (s : State) :
    completeCommand c s = exec i s := by
  simp only [completeCommand, h]

/-- An idle write of CMD accepts the word, whatever it is (R25). -/
theorem State.writeTarget_cmd_of_idle {s : State} (h : s.eng = .idle) (v : Word) :
    s.writeTarget .cmd v = s.accept v := by
  simp [State.writeTarget, State.unlessBusy, State.busy, h]

/-- Settles O3: the illegal words are the rejected ones; a rejected word in flight completes with its error,
any other with its command's meaning, whose body raises no ILLEGAL_OPCODE. -/
theorem illegalOpcodeExactlyForRejectedWords : Obligations.IllegalOpcodeExactlyForRejectedWords := by
  intro s c
  refine ⟨illegalWord_iff, fun he hill => ?rejected, fun he hlegal => ?command, fun he => ?accepted⟩
  case rejected =>
    obtain ⟨r, hr⟩ := illegalWord_iff.mp hill
    rw [step_of_run_zero he, completeCommand_of_decode_error hr]
  case command =>
    cases hd : decode c with
    | error r => exact absurd (illegalWord_iff.mpr ⟨r, hd⟩) hlegal
    | ok i =>
      have hexec : exec i s = .next (s.finish (bodyOf i s)) := exec_eq_completes i s
      refine ⟨i, _, rfl, ?_, hexec, fun h3 => ?_⟩
      · rw [step_of_run_zero he, completeCommand_of_decode_ok hd, hexec]
      · obtain hsame | ⟨e, hb, hcode⟩ := errcode_exec_cases hexec
        · exact hsame ▸ h3
        · obtain ⟨w, rfl⟩ := Raise.eq_illegalOpcode_of_code (hcode ▸ h3)
          exact absurd hb (bodyOf_ne_illegalOpcode i s w)
  case accepted =>
    exact ⟨_, _, State.busWrite_of_target (tg := .cmd) rfl, by
      rw [State.writeTarget_cmd_of_idle he]; rfl⟩

/-! ### The interrupt output -/

/-- After any completion the interrupt output is IRQ_EN (R214, R220). -/
theorem irq_of_exec {i : Instr} {s t : State} (h : exec i s = .next t) : t.irq = s.irqEn := by
  obtain ⟨u, hb, rfl⟩ | ⟨e, -, rfl⟩ := exec_cases h
  · simp [State.irq, completed, (bodyOf_sameControl hb).irqEn]
  · simp [State.irq, failed]

/-- Acknowledging DONE and ERR together ends the interrupt (R23, R220). -/
theorem State.irq_writeTarget_status {s : State} {v : Word} (hdone : v.getLsbD 1 = true)
    (herr : v.getLsbD 2 = true) : (s.writeTarget .status v).irq = false := by
  simp [State.writeTarget, State.irq, Status.writeOneToClear, hdone, herr]

/-- A write of CTRL that leaves IRQ_EN at 0, as a soft reset does too, ends the interrupt (R22, R220). -/
theorem State.irq_writeTarget_ctrl {s : State} {v : Word} (h : v.getLsbD 0 = false) :
    (s.writeTarget .ctrl v).irq = false := by
  rw [State.writeTarget_ctrl]
  split
  · rfl
  · simp only [State.irq, h, Bool.false_and]

theorem State.irq_accept (s : State) (v : Word) : (s.accept v).irq = (s.irqEn && s.status.err) := by
  simp [State.irq]

/-- An answered write of an address that selects a target wrote that target (R62). -/
theorem State.eq_writeTarget_of_busWrite {s t : State} {a : Addr} {tg : Target} {v : Word}
    (ha : target a = some tg) (h : s.busWrite a v 0xF#4 = some t) : t = s.writeTarget tg v :=
  Option.some.inj (h.symm.trans (State.busWrite_of_target ha))

/-- Settles O50: the output by its definition, and each event by the output of the state it leaves. -/
theorem interruptFollowsDoneAndErr : Obligations.InterruptFollowsDoneAndErr := by
  intro s i v
  refine ⟨by simp [State.irq], fun t => irq_of_exec, fun hdone herr t h => ?status, fun h0 t h => ?ctrl,
    fun hi t h => ?cmd, rfl, rfl⟩
  case status =>
    rw [State.eq_writeTarget_of_busWrite (tg := .status) rfl h, State.irq_writeTarget_status hdone herr]
  case ctrl =>
    rw [State.eq_writeTarget_of_busWrite (tg := .ctrl) rfl h, State.irq_writeTarget_ctrl h0]
  case cmd =>
    rw [State.eq_writeTarget_of_busWrite (tg := .cmd) rfl h, State.writeTarget_cmd_of_idle hi,
      State.irq_accept]

end Sys2Proof.Machine
end

section
/-! PROOFS. Writes while a command is in flight (R250): which addresses select a target whose write BUSY = 1
turns away, and what such a write does. -/

namespace Sys2Proof.Machine

open Sys2Proof

/-! ### Which address selects a target of a writable window -/

section
variable {a : Addr} (h4 : a.toNat % 4 = 0)
include h4

theorem target_data (h : 0x1000 ≤ a.toNat) (h' : a.toNat < 0x2000) :
    target a = some (.data (a.toNat / 4 - 1024)) := by
  simp (disch := omega) only [target, if_neg, if_pos]

theorem target_cw (h : 0x2000 ≤ a.toNat) (h' : a.toNat < 0x3000) :
    target a = some (.cw (a.toNat / 4 - 2048)) := by
  simp (disch := omega) only [target, if_neg, if_pos]

theorem target_mod (h : 0x4000 ≤ a.toNat) (h' : a.toNat < 0x6000) :
    target a = some (.mod ((a.toNat - 0x4000) / 32) (a.toNat / 4 % 8)) := by
  simp (disch := omega) only [target, if_neg, if_pos]

theorem target_func (h : 0x6000 ≤ a.toNat) :
    target a = some (.func ((a.toNat - 0x6000) / 32) (a.toNat / 4 % 8)) := by
  simp (disch := omega) only [target, if_neg]

end

/-! ### Operand targets -/

/-- The targets whose writes BUSY = 1 turns away: CONFIG, CMD, ARG0, ARG1 and the writable windows (R250). -/
def Target.operand : Target → Bool
  | .config | .cmd | .arg0 | .arg1 | .data _ | .cw _ | .mod _ _ | .func _ _ => true
  | _ => false

/-- An address of CONFIG, CMD, ARG0 or ARG1 selects an operand target (R20). -/
theorem target_of_operandRegister {a : Addr} (h : a ∈ [0x00C#15, 0x010#15, 0x014#15, 0x018#15]) :
    ∃ tg, target a = some tg ∧ tg.operand = true := by
  simp only [List.mem_cons, List.not_mem_nil, or_false] at h
  obtain rfl | rfl | rfl | rfl := h
  · exact ⟨.config, rfl, rfl⟩
  · exact ⟨.cmd, rfl, rfl⟩
  · exact ⟨.arg0, rfl, rfl⟩
  · exact ⟨.arg1, rfl, rfl⟩

/-- An aligned address of the DATA, CW, MOD or FUNC window selects an operand target (R61). -/
theorem target_of_writableWindow {a : Addr} (h4 : a.toNat % 4 = 0)
    (h : (0x1000 ≤ a.toNat ∧ a.toNat ≤ 0x2FFF) ∨ 0x4000 ≤ a.toNat) :
    ∃ tg, target a = some tg ∧ tg.operand = true := by
  obtain ⟨hlo, hhi⟩ | hplane := h
  · by_cases hdata : a.toNat < 0x2000
    · exact ⟨_, target_data h4 hlo hdata, rfl⟩
    · exact ⟨_, target_cw h4 (by omega) (by omega), rfl⟩
  · by_cases hmod : a.toNat < 0x6000
    · exact ⟨_, target_mod h4 hplane hmod, rfl⟩
    · exact ⟨_, target_func h4 (by omega), rfl⟩

/-! ### Writes while BUSY = 1 -/

/-- With a command in flight a write that BUSY may turn away sets WBUSY and stores nothing (R250). -/
theorem State.unlessBusy_of_run {s : State} {c : Word} {left : Nat} (h : s.eng = .run c left)
    (u : State) : s.unlessBusy u = { s with status := { s.status with wbusy := true } } := by
  simp [State.unlessBusy, State.busy, h]

/-- With a command in flight a write of an operand target sets WBUSY and stores nothing (R250). -/
theorem State.writeTarget_operand_of_run {s : State} {c : Word} {left : Nat} {tg : Target}
    (h : s.eng = .run c left) (htg : tg.operand = true) (v : Word) :
    s.writeTarget tg v = { s with status := { s.status with wbusy := true } } := by
  cases tg with
  | config | cmd | arg0 | arg1 | data | cw | mod | func => exact State.unlessBusy_of_run h _
  | _ => cases htg

/-- Settles O47: an address of the first clause selects an operand target, whose write BUSY turns away; CTRL,
STATUS and the read-only targets are written without regard to BUSY. -/
theorem busyWritesAreIgnoredAndSetWbusy : Obligations.BusyWritesAreIgnoredAndSetWbusy := by
  intro s a v
  refine ⟨fun c left hrun ha => ?operand, fun h1 => ?irqEn, fun h1 => ?softReset,
    State.busWrite_of_target (tg := .status) rfl, readOnlyWritesAreIgnored s a v⟩
  case operand =>
    obtain ⟨tg, ht, htg⟩ : ∃ tg, target a = some tg ∧ tg.operand = true :=
      ha.elim target_of_operandRegister fun ⟨h4, hwindow⟩ => target_of_writableWindow h4 hwindow
    rw [State.busWrite_of_target ht, State.writeTarget_operand_of_run hrun htg]
  case irqEn =>
    rw [State.busWrite_of_target (tg := .ctrl) rfl, State.writeTarget_ctrl,
      if_neg (ne_true_of_eq_false h1)]
  case softReset =>
    rw [State.busWrite_of_target (tg := .ctrl) rfl, State.writeTarget_ctrl, if_pos h1]

end Sys2Proof.Machine
end

section
/-! PROOFS. The decoder (R80 to R86): a word decodes to a command exactly when the three fields of the word are
those of the command, from which both round trips and the rows of the opcode table follow. -/

namespace Sys2Proof.Machine

open Sys2Proof

/-! ### The opcode map and the operands -/

/-- An opcode with a reserved F1 is that of its one command (R81, R83). -/
theorem opc_f1_of_reserved {opc : Nat} {i : Instr} (h : opcodeMap opc = some (.reserved i)) :
    i.opc = opc ∧ i.f1 = 0 ∧ i.wf = true := by
  unfold opcodeMap at h
  split at h <;> cases h <;> exact ⟨rfl, rfl, rfl⟩

/-- An opcode with a byte operand is that of its command at every operand (R81, R83). -/
theorem opc_f1_of_byte {opc : Nat} {mk : Nat → Instr} (h : opcodeMap opc = some (.byte mk)) (n : Nat) :
    (mk n).opc = opc ∧ (mk n).f1 = n ∧ (mk n).wf = decide (n < 256) := by
  unfold opcodeMap at h
  split at h <;> cases h <;> exact ⟨rfl, rfl, rfl⟩

/-- An opcode with a mask index is that of its command at every index (R81, R83). -/
theorem opc_f1_of_mask {opc : Nat} {mk : Nat → Instr} (h : opcodeMap opc = some (.mask mk)) (n : Nat) :
    (mk n).opc = opc ∧ (mk n).f1 = n ∧ (mk n).wf = decide (n < 8) := by
  unfold opcodeMap at h
  split at h <;> cases h <;> exact ⟨rfl, rfl, rfl⟩

theorem field_lt {w : Nat} (v : BitVec w) (lo len : Nat) : field v lo len < 2 ^ len :=
  Nat.mod_lt _ (Nat.two_pow_pos len)

/-! ### The command a word decodes to -/

theorem fields_of_decode {c : Word} {i : Instr} (h : decode c = .ok i) :
    i.wf = true ∧ field c 0 8 = i.opc ∧ field c 8 8 = i.f1 ∧ field c 16 16 = 0 := by
  unfold decode at h
  cases hu : opcodeMap (field c 0 8) with
  | none => simp [hu] at h
  | some use =>
    by_cases hrsv : field c 16 16 = 0
    · cases use with
      | reserved j =>
        by_cases hf : field c 8 8 = 0
        · obtain rfl : j = i := by simpa [hu, hrsv, hf] using h
          obtain ⟨hopc, hf1, hwf⟩ := opc_f1_of_reserved hu
          exact ⟨hwf, hopc.symm, hf.trans hf1.symm, hrsv⟩
        · simp [hu, hrsv, hf] at h
      | byte mk =>
        obtain rfl : mk (field c 8 8) = i := by simpa [hu, hrsv] using h
        obtain ⟨hopc, hf1, hwf⟩ := opc_f1_of_byte hu (field c 8 8)
        exact ⟨hwf.trans (decide_eq_true (field_lt c 8 8)), hopc.symm, hf1.symm, hrsv⟩
      | mask mk =>
        by_cases hf : field c 8 8 / 8 = 0
        · obtain rfl : mk (field c 8 8) = i := by simpa [hu, hrsv, hf] using h
          obtain ⟨hopc, hf1, hwf⟩ := opc_f1_of_mask hu (field c 8 8)
          exact ⟨hwf.trans (decide_eq_true (by omega)), hopc.symm, hf1.symm, hrsv⟩
        · simp [hu, hrsv, hf] at h
    · simp [hu, hrsv] at h

/-- A word decodes to a command exactly when its fields are those of the command, which is well formed
(R80 to R84). -/
theorem decode_eq_ok_iff {c : Word} {i : Instr} :
    decode c = .ok i ↔ i.wf = true ∧ field c 0 8 = i.opc ∧ field c 8 8 = i.f1 ∧ field c 16 16 = 0 := by
  refine ⟨fields_of_decode, fun ⟨hwf, hopc, hf1, hrsv⟩ => ?_⟩
  unfold decode
  rw [hopc, hf1, hrsv]
  cases i with
  | maskApply m | formatWrite m =>
    have hm : m / 8 = 0 := Nat.div_eq_of_lt (of_decide_eq_true hwf)
    simp [Instr.opc, Instr.f1, opcodeMap, hm]
  | _ => rfl

/-! ### The two round trips -/

theorem opc_lt (i : Instr) : i.opc < 256 := by
  cases i <;> simp [Instr.opc]

theorem f1_lt {i : Instr} (h : i.wf = true) : i.f1 < 256 := by
  cases i with
  | bpAppend n | rsGenpoly n | rsEncode n | rsSyndrome n => exact of_decide_eq_true h
  | maskApply m | formatWrite m => exact (of_decide_eq_true h : m < 8).trans (by decide)
  | _ => exact Nat.zero_lt_succ _

theorem decode_encode {i : Instr} (h : i.wf = true) : decode (encode i) = .ok i :=
  decode_eq_ok_iff.mpr ⟨h, Laws.fields_of_lt i.f1 i.opc (f1_lt h) (opc_lt i)⟩

theorem encode_of_decode {c : Word} {i : Instr} (h : decode c = .ok i) : encode i = c := by
  obtain ⟨-, hopc, hf1, hrsv⟩ := fields_of_decode h
  rw [field_eq_div_mod] at hopc hf1 hrsv
  apply BitVec.eq_of_toNat_eq
  simp only [encode, BitVec.toNat_ofNat]
  omega

/-- Settles O1: the fields of the word are those of the command, so the word decodes to it. -/
theorem decodeOfEncodeIsTheCommand : Obligations.DecodeOfEncodeIsTheCommand :=
  fun _ => decode_encode

/-- Settles O2: the fields of a word that decodes are its command's, and they are all of its bits. -/
theorem encodeOfDecodeIsTheWord : Obligations.EncodeOfDecodeIsTheWord :=
  fun _ _ h => ⟨(fields_of_decode h).1, encode_of_decode h⟩

/-! ### The opcode table -/

theorem decode_eq_ok_iff_encode {c : Word} {i : Instr} (hwf : i.wf = true) :
    decode c = .ok i ↔ c &&& 0xFFFFFFFF#32 = encode i := by
  rw [show (0xFFFFFFFF#32 : Word) = BitVec.allOnes 32 from rfl, BitVec.and_allOnes]
  exact ⟨fun h => (encode_of_decode h).symm, fun h => h ▸ decode_encode hwf⟩

/-- A field of a masked word is the field of the word, masked. -/
theorem field_and {w : Nat} (v m : BitVec w) (lo len : Nat) :
    field (v &&& m) lo len = field v lo len &&& field m lo len := by
  refine Nat.eq_of_testBit_eq fun i => ?_
  rw [Nat.testBit_and, testBit_field, testBit_field, testBit_field, BitVec.getLsbD_and]
  cases decide (i < len) <;> simp

/-- A word is its OPC, F1 and RSV fields (R80). -/
theorem word_eq_iff_fields {c d : Word} : c = d ↔
    field c 0 8 = field d 0 8 ∧ field c 8 8 = field d 8 8 ∧ field c 16 16 = field d 16 16 := by
  refine ⟨by rintro rfl; exact ⟨rfl, rfl, rfl⟩, fun ⟨hopc, hf1, hrsv⟩ => BitVec.eq_of_toNat_eq ?_⟩
  simp only [field_eq_div_mod] at hopc hf1 hrsv
  omega

/-- A masked word is an opcode's word when its OPC and RSV are, and the mask clears its F1. -/
theorem and_eq_opc_iff {c m : Word} {opc : Nat} (hopc : opc < 256) (hm : field m 0 8 = 2 ^ 8 - 1)
    (hm' : field m 16 16 = 2 ^ 16 - 1) :
    c &&& m = BitVec.ofNat 32 opc ↔
      field c 0 8 = opc ∧ field c 8 8 &&& field m 8 8 = 0 ∧ field c 16 16 = 0 := by
  have hword : field (BitVec.ofNat 32 opc) 0 8 = opc ∧ field (BitVec.ofNat 32 opc) 8 8 = 0 ∧
      field (BitVec.ofNat 32 opc) 16 16 = 0 := by
    simpa using Laws.fields_of_lt 0 opc (by decide) hopc
  obtain ⟨h0, h8, h16⟩ := hword
  rw [word_eq_iff_fields, field_and, field_and, field_and, hm, hm', h0, h8, h16,
    Nat.and_two_pow_sub_one_of_lt_two_pow (field_lt c 0 8),
    Nat.and_two_pow_sub_one_of_lt_two_pow (field_lt c 16 16)]

/-- The words of a command with an operand, by their fields. -/
theorem exists_decode_iff {c : Word} {mk : Nat → Instr} {opc bound : Nat}
    (hmk : ∀ n, (mk n).opc = opc ∧ (mk n).f1 = n ∧ (mk n).wf = decide (n < bound)) :
    (∃ n, decode c = .ok (mk n)) ↔ field c 0 8 = opc ∧ field c 8 8 < bound ∧ field c 16 16 = 0 := by
  simp only [decode_eq_ok_iff, hmk, decide_eq_true_eq]
  constructor
  · rintro ⟨n, hn, hopc, rfl, hrsv⟩
    exact ⟨hopc, hn, hrsv⟩
  · rintro ⟨hopc, hn, hrsv⟩
    exact ⟨_, hn, hopc, rfl, hrsv⟩

/-- A row whose mask leaves F1 open is that of a byte operand. -/
theorem exists_decode_byte_iff {c : Word} {opc : Nat} {mk : Nat → Instr}
    (h : opcodeMap opc = some (.byte mk)) (hopc : opc < 256) :
    (∃ n, decode c = .ok (mk n)) ↔ c &&& 0xFFFF00FF#32 = BitVec.ofNat 32 opc := by
  have hf1 : field c 8 8 < 256 := field_lt c 8 8
  rw [exists_decode_iff (opc_f1_of_byte h), and_eq_opc_iff hopc rfl rfl]
  simp [show field 0xFFFF00FF#32 8 8 = 0 from rfl, hf1]

/-- A row whose mask leaves F1[2:0] open is that of a mask index. -/
theorem exists_decode_mask_iff {c : Word} {opc : Nat} {mk : Nat → Instr}
    (h : opcodeMap opc = some (.mask mk)) (hopc : opc < 256) :
    (∃ n, decode c = .ok (mk n)) ↔ c &&& 0xFFFFF8FF#32 = BitVec.ofNat 32 opc := by
  have hf1 : ∀ f1 < 2 ^ 8, f1 < 8 ↔ f1 &&& 0xF8 = 0 := by decide +kernel
  rw [exists_decode_iff (opc_f1_of_mask h), and_eq_opc_iff hopc rfl rfl, hf1 _ (field_lt c 8 8),
    show field 0xFFFFF8FF#32 8 8 = 0xF8 from rfl]

/-- Settles O4: a row without an operand names one word, the command's; the others by the fields their masks
leave open. -/
theorem decoderAgreesWithTheTable : Obligations.DecoderAgreesWithTheTable := fun _ =>
  ⟨decode_eq_ok_iff_encode rfl, decode_eq_ok_iff_encode rfl, exists_decode_byte_iff rfl (by decide),
    decode_eq_ok_iff_encode rfl, decode_eq_ok_iff_encode rfl, decode_eq_ok_iff_encode rfl,
    exists_decode_byte_iff rfl (by decide), exists_decode_byte_iff rfl (by decide),
    exists_decode_byte_iff rfl (by decide), decode_eq_ok_iff_encode rfl, decode_eq_ok_iff_encode rfl,
    decode_eq_ok_iff_encode rfl, exists_decode_mask_iff rfl (by decide),
    exists_decode_mask_iff rfl (by decide), decode_eq_ok_iff_encode rfl, decode_eq_ok_iff_encode rfl⟩

/-- Settles O5: each word by evaluation of the decoder. -/
theorem writtenOutWordsDecode : Obligations.WrittenOutWordsDecode := by
  unfold Obligations.WrittenOutWordsDecode
  decide

end Sys2Proof.Machine
end

section
/-! PROOFS. The completion of a command (R70, R213, R214): which step it is, what it keeps, which places each
command writes, and how it fails. -/

namespace Sys2Proof.Machine

open Sys2Proof

/-! ### The step that completes a command, and the others -/

/-- Settles O6: such a step completes the word in flight, and the word decodes to the command. -/
theorem stepRunsTheDecodedCommand : Obligations.StepRunsTheDecodedCommand := by
  intro s c i left he hend hd
  rw [← completeCommand_of_decode_ok hd]
  obtain rfl | hhost := hend
  · exact step_of_run_zero he
  · exact step_of_run_no_host he hhost

/-- Settles O7: by the step's cases with a transfer to make, and of the idle block. -/
theorem otherStepsAreHostTransfers : Obligations.OtherStepsAreHostTransfers := by
  refine fun s c left op rest => ⟨step_of_run_host, fun he hh => ?_, fun he hh => ?_⟩
  · rw [step_of_idle he, hh]
  · rw [step_of_idle he, hh]

/-- Settles O8: a body leaves everything named, and so does taking an error; both end with completion. -/
theorem everyCommandCompletes : Obligations.EveryCommandCompletes := by
  intro i s
  have hexec : exec i s = .next (s.finish (bodyOf i s)) := exec_eq_completes i s
  refine ⟨_, hexec, ?_⟩
  obtain ⟨u, hb, ht⟩ | ⟨e, -, ht⟩ := exec_cases hexec
  · obtain ⟨hirq, hstatus, hconfig, hcmd, harg0, harg1, -, -, -, hparams, hdraws, hhost, hread⟩ :=
      bodyOf_sameControl hb
    rw [ht]
    exact ⟨rfl, rfl, (congrArg Status.wbusy hstatus :), hirq, hconfig, hcmd, harg0, harg1, hparams, hdraws,
      hhost, hread⟩
  · rw [ht]
    exact ⟨rfl, rfl, rfl, rfl, rfl, rfl, rfl, rfl, rfl, rfl, rfl, rfl⟩

/-! ### The places each command writes -/

/-- The places that differ between two states are ones command `i` writes (10_state.md, section 3). -/
def WritesOnlyItsPlaces (i : Instr) (s t : State) : Prop :=
  (t.data ≠ s.data ∨ t.bitlen ≠ s.bitlen → i = .bpClear ∨ (∃ n, i = .bpAppend n) ∨ i = .bpFinalize) ∧
  (t.cw ≠ s.cw → i = .interleave) ∧
  (t.func ≠ s.func → i = .gridClear) ∧
  (t.mod ≠ s.mod → i = .gridClear ∨ i = .place ∨ (∃ m, i = .maskApply m) ∨
    (∃ m, i = .formatWrite m) ∨ i = .maskSelect) ∧
  (t.gen ≠ s.gen → ∃ d, i = .rsGenpoly d) ∧
  (t.rsout ≠ s.rsout → ∃ d, i = .rsEncode d ∨ i = .rsSyndrome d) ∧
  (t.result ≠ s.result → i = .gfMul ∨ i = .gfExp ∨ ∃ d, i = .rsSyndrome d) ∧
  (t.score ≠ s.score → i = .score ∨ i = .maskSelect) ∧
  (t.best ≠ s.best ∨ t.pen ≠ s.pen → i = .maskSelect)

theorem bodyOf_writesOnlyItsPlaces {i : Instr} {s u : State} (h : bodyOf i s = .ok u) :
    WritesOnlyItsPlaces i s u := by
  cases i with
  | nop | bpClear | gfMul | gfExp | gridClear =>
    obtain rfl := Except.ok.inj h
    simp [WritesOnlyItsPlaces]
  | bpAppend | rsEncode | rsSyndrome =>
    obtain ⟨-, h⟩ := ite_error_eq_ok.mp h
    obtain ⟨-, h⟩ := ite_error_eq_ok.mp h
    obtain rfl := Except.ok.inj h
    simp [WritesOnlyItsPlaces]
  | rsGenpoly =>
    obtain ⟨-, h⟩ := ite_error_eq_ok.mp h
    obtain rfl := Except.ok.inj h
    simp [WritesOnlyItsPlaces]
  | bpFinalize | place =>
    simp only [bodyOf, bodyBpFinalize, bodyPlace, State.withGeometry_eq_ok, ite_error_eq_ok] at h
    obtain ⟨-, -, h⟩ := h
    obtain rfl := Except.ok.inj h
    simp [WritesOnlyItsPlaces]
  | interleave | maskApply | formatWrite | score | maskSelect =>
    simp only [bodyOf, bodyInterleave, bodyMaskApply, bodyFormatWrite, bodyScore, bodyMaskSelect,
      State.withGeometry_eq_ok] at h
    obtain ⟨-, h⟩ := h
    obtain rfl := Except.ok.inj h
    simp [WritesOnlyItsPlaces]

/-- Settles O9: completion writes none of the places, a body only its own, and an error none. -/
theorem onlyNamedCommandsWriteEachPlace : Obligations.OnlyNamedCommandsWriteEachPlace := by
  intro i s t h
  obtain ⟨u, hb, rfl⟩ | ⟨e, -, rfl⟩ := exec_cases h
  · exact (bodyOf_writesOnlyItsPlaces hb :)
  · simp [failed]

/-! ### How a command fails -/

/-- A completion leaves ERR, ERRCODE, ERRINFO0 and ERRINFO1 alone (R213). -/
def KeepsError (s t : State) : Prop :=
  t.status.err = s.status.err ∧ t.status.errcode = s.status.errcode ∧
    t.errinfo0 = s.errinfo0 ∧ t.errinfo1 = s.errinfo1

theorem keepsError_completed {i : Instr} {s u : State} (h : bodyOf i s = .ok u) :
    KeepsError s (completed u) := by
  have hsame := bodyOf_sameControl h
  exact ⟨(congrArg Status.err hsame.status :), (congrArg Status.errcode hsame.status :), hsame.errinfo0,
    hsame.errinfo1⟩

/-- The code of an error a command's body raises is any but ILLEGAL_OPCODE's (R211). -/
theorem code_mem_of_bodyOf {i : Instr} {s : State} {e : Raise} (h : bodyOf i s = .error e) :
    BitVec.ofNat 8 e.code ∈ [1#8, 2#8, 4#8, 5#8] := by
  cases e with
  | illegalOpcode c => exact absurd h (bodyOf_ne_illegalOpcode i s c)
  | _ => simp [Raise.code]

/-- A command keeps the error registers, or fails with a code of its own. -/
theorem exec_keepsError_or_fails {i : Instr} {s t : State} (h : exec i s = .next t) :
    KeepsError s t ∨ ∃ code i0 i1, code ∈ [1#8, 2#8, 4#8, 5#8] ∧ t = failed s code i0 i1 := by
  obtain ⟨u, hb, rfl⟩ | ⟨e, hb, rfl⟩ := exec_cases h
  · exact .inl (keepsError_completed hb)
  · exact .inr ⟨_, _, _, code_mem_of_bodyOf hb, rfl⟩

/-- A word in flight keeps the error registers, or fails with one of the five codes (R210). -/
theorem completeCommand_keepsError_or_fails {c : Word} {s t : State} (h : completeCommand c s = .next t) :
    KeepsError s t ∨ ∃ code i0 i1, code ∈ [1#8, 2#8, 3#8, 4#8, 5#8] ∧ t = failed s code i0 i1 := by
  cases hd : decode c with
  | error r =>
    rw [completeCommand_of_decode_error hd] at h
    exact .inr ⟨3#8, c, 0#32, by simp, (Host.Outcome.next.inj h).symm⟩
  | ok i =>
    rw [completeCommand_of_decode_ok hd] at h
    refine (exec_keepsError_or_fails h).imp_right fun ⟨code, i0, i1, hcode, ht⟩ => ⟨code, i0, i1, ?_, ht⟩
    simp only [List.mem_cons] at hcode ⊢
    tauto

/-- The commands R216 says cannot fail. -/
theorem exec_keepsError_of_mem {i : Instr} {s t : State}
    (hi : i ∈ [Instr.nop, .bpClear, .gfMul, .gfExp, .gridClear]) (h : exec i s = .next t) :
    KeepsError s t := by
  obtain ⟨u, hb⟩ : ∃ u, bodyOf i s = .ok u := by
    simp only [List.mem_cons, List.not_mem_nil, or_false] at hi
    obtain rfl | rfl | rfl | rfl | rfl := hi <;> exact ⟨_, rfl⟩
  rw [exec_eq_next hb] at h
  exact Host.Outcome.next.inj h ▸ keepsError_completed hb

/-- Settles O10: by the two ways a completion ends, and the bodies that raise nothing. -/
theorem failedCommandChangesOnlyStatus : Obligations.FailedCommandChangesOnlyStatus :=
  fun _ _ => ⟨fun _ => completeCommand_keepsError_or_fails, fun _ => exec_keepsError_or_fails,
    fun _ hi h => .inl (exec_keepsError_of_mem hi h)⟩

/-! ### NOP and the clear commands -/

/-- Settles O13: NOP's body answers the state itself. -/
theorem nopOnlyCompletes : Obligations.NopOnlyCompletes :=
  fun s => exec_eq_next (u := s) rfl

theorem Memory.cell_fill_zero {id : MemId} (p : Plane id) (x : Nat) {y : Nat} (hy : y < 177) :
    (p.fill 177 0#177).cell x y = false := by
  rw [Memory.cell, Memory.read_fill _ _ _ _ hy, BitVec.getLsbD_zero]

/-- Settles O14: both bodies fill their memories with 0. -/
theorem clearCommandsZeroTheirMemories : Obligations.ClearCommandsZeroTheirMemories := fun s =>
  ⟨⟨s.data.fill 4096 0#8, exec_eq_next (i := .bpClear) rfl, fun _ hi => Memory.read_fill _ _ _ _ hi⟩,
    s.mod.fill 177 0#177, s.func.fill 177 0#177, exec_eq_next (i := .gridClear) rfl,
    fun x _ _ hy => ⟨Memory.cell_fill_zero _ x hy, Memory.cell_fill_zero _ x hy⟩⟩

end Sys2Proof.Machine
end

section
/-! PROOFS. The address map (R61): the mapped addresses select the targets inside the map, one each. -/

namespace Sys2Proof.Machine

open Sys2Proof

/-- The targets the map has: words of a window inside it (R61, R64, R65). -/
def Target.InMap : Target → Prop
  | .data k | .cw k => k < 1024
  | .mod y w | .func y w => y < 256 ∧ w < 8
  | _ => True

theorem registerAt_eq_some {k : Nat} {tg : Target} (h : registerAt k = some tg) :
    k ≤ 20 ∧ tg.InMap ∧ tg.addr = BitVec.ofNat 15 (4 * k) := by
  unfold registerAt at h
  split at h <;> cases h <;> exact ⟨by decide, trivial, rfl⟩

theorem exists_registerAt : ∀ k ≤ 20, ∃ tg, registerAt k = some tg := by
  have h : ∀ k ≤ 20, (registerAt k).isSome = true := by decide
  exact fun k hk => Option.isSome_iff_exists.mp (h k hk)

theorem ofNat_eq_addr {a : Addr} {n : Nat} (h : n = a.toNat) : BitVec.ofNat 15 n = a := by
  rw [h, BitVec.ofNat_toNat, BitVec.setWidth_eq]

theorem toNat_ofNat_addr {n : Nat} (h : n < 0x8000) : (BitVec.ofNat 15 n).toNat = n :=
  Nat.mod_eq_of_lt h

theorem target_of_mapped {a : Addr} (h : Mapped a) : ∃ tg, target a = some tg ∧ tg.InMap ∧ tg.addr = a := by
  have hlt := a.isLt
  obtain ⟨h4, h | ⟨h, h'⟩ | ⟨h, h'⟩ | ⟨h, h'⟩ | h⟩ := h
  · obtain ⟨tg, htg⟩ := exists_registerAt (a.toNat / 4) (by omega)
    obtain ⟨-, hmap, haddr⟩ := registerAt_eq_some htg
    rw [target_of_lt_0x60 h4 (by omega)]
    exact ⟨tg, htg, hmap, haddr.trans (ofNat_eq_addr (by omega))⟩
  · refine ⟨_, target_pen h4 h (by omega), trivial, ofNat_eq_addr ?_⟩
    simp only [Fin.val_ofNat]
    omega
  · by_cases hg : a.toNat < 0x120
    · refine ⟨_, target_gen h4 h hg, trivial, ofNat_eq_addr ?_⟩
      simp only [Fin.val_ofNat]
      omega
    · refine ⟨_, target_rsout h4 (by omega) (by omega), trivial, ofNat_eq_addr ?_⟩
      simp only [Fin.val_ofNat]
      omega
  · by_cases hd : a.toNat < 0x2000
    · exact ⟨_, target_data h4 h hd, by simp only [Target.InMap]; omega, ofNat_eq_addr (by omega)⟩
    · exact ⟨_, target_cw h4 (by omega) (by omega), by simp only [Target.InMap]; omega, ofNat_eq_addr (by omega)⟩
  · by_cases hm : a.toNat < 0x6000
    · exact ⟨_, target_mod h4 h hm, by simp only [Target.InMap]; omega, ofNat_eq_addr (by omega)⟩
    · exact ⟨_, target_func h4 (by omega), by simp only [Target.InMap]; omega, ofNat_eq_addr (by omega)⟩

theorem target_addr {tg : Target} (h : tg.InMap) : target tg.addr = some tg := by
  cases tg with
  | pen m | gen m | rsout m => clear h; revert m; decide
  | data k =>
    have hk : k < 1024 := h
    have ha := toNat_ofNat_addr (n := 0x1000 + 4 * k) (by omega)
    rw [Target.addr, target_data (by omega) (by omega) (by omega), ha,
      show (0x1000 + 4 * k) / 4 - 1024 = k by omega]
  | cw k =>
    have hk : k < 1024 := h
    have ha := toNat_ofNat_addr (n := 0x2000 + 4 * k) (by omega)
    rw [Target.addr, target_cw (by omega) (by omega) (by omega), ha,
      show (0x2000 + 4 * k) / 4 - 2048 = k by omega]
  | mod y w =>
    obtain ⟨hy, hw⟩ : y < 256 ∧ w < 8 := h
    have ha := toNat_ofNat_addr (n := 0x4000 + 32 * y + 4 * w) (by omega)
    rw [Target.addr, target_mod (by omega) (by omega) (by omega), ha,
      show (0x4000 + 32 * y + 4 * w - 0x4000) / 32 = y by omega,
      show (0x4000 + 32 * y + 4 * w) / 4 % 8 = w by omega]
  | func y w =>
    obtain ⟨hy, hw⟩ : y < 256 ∧ w < 8 := h
    have ha := toNat_ofNat_addr (n := 0x6000 + 32 * y + 4 * w) (by omega)
    rw [Target.addr, target_func (by omega) (by omega), ha,
      show (0x6000 + 32 * y + 4 * w - 0x6000) / 32 = y by omega,
      show (0x6000 + 32 * y + 4 * w) / 4 % 8 = w by omega]
  | _ => rfl

/-- An unaligned address, or one between the ranges of R61, selects nothing. -/
theorem target_of_not_mapped {a : Addr} (h : ¬Mapped a) : target a = none := by
  unfold Mapped at h
  by_cases h4 : a.toNat % 4 = 0
  · by_cases hreg : a.toNat < 0x60
    · rw [target_of_lt_0x60 h4 hreg]
      by_contra hne
      obtain ⟨tg, htg⟩ := Option.ne_none_iff_exists'.mp hne
      have := (registerAt_eq_some htg).1
      omega
    · obtain hgap | hgap | hgap : a.toNat < 0x100 ∧ 0x80 ≤ a.toNat ∨
          (0x140 ≤ a.toNat ∧ a.toNat < 0x1000) ∨ (0x3000 ≤ a.toNat ∧ a.toNat < 0x4000) := by omega
      all_goals simp (disch := omega) only [target, if_neg, if_pos]
  · simp [target, h4]

/-- An address selects a target exactly when it is the address of that target, inside the map. -/
theorem target_eq_some_iff {a : Addr} {tg : Target} : target a = some tg ↔ tg.InMap ∧ tg.addr = a := by
  constructor
  · intro h
    by_cases hm : Mapped a
    · obtain ⟨tg', h', hmap, haddr⟩ := target_of_mapped hm
      obtain rfl := Option.some.inj (h.symm.trans h')
      exact ⟨hmap, haddr⟩
    · simp [target_of_not_mapped hm] at h
  · rintro ⟨hmap, rfl⟩
    exact target_addr hmap

theorem target_eq_none_iff {a : Addr} : target a = none ↔ ¬Mapped a := by
  refine ⟨fun h hm => ?_, target_of_not_mapped⟩
  obtain ⟨tg, htg, -, -⟩ := target_of_mapped hm
  simp [h] at htg

/-! ### The ERROR response -/

theorem State.busRead_eq_none {s : State} {a : Addr} : s.busRead a = none ↔ ¬Mapped a := by
  rw [State.busRead, Option.map_eq_none_iff, target_eq_none_iff]

theorem State.busWrite_eq_none {s : State} {a : Addr} {v : Word} {strobes : BitVec 4} :
    s.busWrite a v strobes = none ↔ strobes ≠ 0xF#4 ∨ ¬Mapped a := by
  by_cases h : strobes = 0xF#4
  · simp [State.busWrite, h, target_eq_none_iff]
  · simp [State.busWrite, h]

/-- Settles O40: the map selects a target exactly at the mapped addresses, and a transfer without one is a fault
of the host's program. -/
theorem busErrorExactlyWhen : Obligations.BusErrorExactlyWhen := by
  refine fun s a v strobes rest =>
    ⟨State.busRead_eq_none, State.busWrite_eq_none, fun h => ?_, fun h => ?_⟩
  · simp only [hostStep, State.busRead_eq_none.mpr h]
  · simp only [hostStep, State.hostValue, State.busWrite_eq_none.mpr h]

end Sys2Proof.Machine
end

section
/-! PROOFS. Transfers of registers and windows (R20 to R35, R62 to R70): what a read gives idle and busy, and
that an idle write of a window word or an operand register stores it and reads back. -/

namespace Sys2Proof.Machine

open Sys2Proof

/-! ### Reads, idle and busy -/

theorem State.busRead_of_idle {s : State} {a : Addr} {tg : Target} (ht : target a = some tg)
    (h : s.eng = .idle) : s.busRead a = some (s.view tg, s) :=
  State.busRead_eq_some.mpr ⟨tg, ht, State.readTarget_of_idle h⟩

theorem State.busRead_of_stable {s : State} {a : Addr} {tg : Target} (ht : target a = some tg)
    (h : tg.stable = true) : s.busRead a = some (s.view tg, s) :=
  State.busRead_eq_some.mpr ⟨tg, ht, State.readTarget_of_stable h⟩

/-- While BUSY = 1 a read of a target a command may write is a fresh draw (R70; assumption 3). -/
theorem State.busRead_of_run {s : State} {a : Addr} {tg : Target} {c : Word} {left : Nat}
    (ht : target a = some tg) (he : s.eng = .run c left) (h : tg.stable = false) :
    s.busRead a = some (Config.busyRead s.draws, { s with draws := s.draws + 1 }) :=
  State.busRead_eq_some.mpr ⟨tg, ht, by simp [State.readTarget, State.busy, he, h]⟩

/-- The addresses whose reads are defined while BUSY = 1 (R70). -/
theorem target_stable_iff {a : Addr} {tg : Target} (h : target a = some tg) :
    tg.stable = true ↔ a ∈ [0x000#15, 0x004#15, 0x008#15, 0x00C#15, 0x010#15, 0x014#15, 0x018#15, 0x024#15,
      0x028#15, 0x02C#15] := by
  constructor
  · obtain ⟨-, rfl⟩ := target_eq_some_iff.mp h
    intro hs
    cases tg with
    | id | ctrl | status | config | cmd | arg0 | arg1 | geom0 | geom1 | geom2 => simp [Target.addr]
    | _ => cases hs
  · simp only [List.mem_cons, List.not_mem_nil, or_false]
    rintro (rfl | rfl | rfl | rfl | rfl | rfl | rfl | rfl | rfl | rfl) <;>
      obtain rfl := Option.some.inj h <;> rfl

/-! ### Bytes of a bus word -/

theorem extractLsb'_wordOfBytes (b0 b1 b2 b3 : Byte) :
    (wordOfBytes b0 b1 b2 b3).extractLsb' 0 8 = b0 ∧ (wordOfBytes b0 b1 b2 b3).extractLsb' 8 8 = b1 ∧
    (wordOfBytes b0 b1 b2 b3).extractLsb' 16 8 = b2 ∧ (wordOfBytes b0 b1 b2 b3).extractLsb' 24 8 = b3 := by
  have hnat : (wordOfBytes b0 b1 b2 b3).toNat =
      b0.toNat + 2 ^ 8 * b1.toNat + 2 ^ 16 * b2.toNat + 2 ^ 24 * b3.toNat := by
    simp only [wordOfBytes, toNat_append_eq_add]
    omega
  refine ⟨?_, ?_, ?_, ?_⟩ <;>
  · apply BitVec.eq_of_toNat_eq
    rw [BitVec.extractLsb'_toNat, hnat, Nat.shiftRight_eq_div_pow]
    omega

theorem wordOfBytes_extractLsb' (v : Word) :
    wordOfBytes (v.extractLsb' 0 8) (v.extractLsb' 8 8) (v.extractLsb' 16 8) (v.extractLsb' 24 8) = v := by
  apply BitVec.eq_of_toNat_eq
  simp only [wordOfBytes, toNat_append_eq_add, BitVec.extractLsb'_toNat, Nat.shiftRight_eq_div_pow]
  omega

/-- Byte `j` of a word of four bytes (R65). -/
theorem extractLsb'_wordOfBytes_of (byte : Nat → Byte) {j : Nat} (hj : j < 4) :
    (wordOfBytes (byte 0) (byte 1) (byte 2) (byte 3)).extractLsb' (8 * j) 8 = byte j := by
  obtain ⟨h0, h1, h2, h3⟩ := extractLsb'_wordOfBytes (byte 0) (byte 1) (byte 2) (byte 3)
  match j, hj with
  | 0, _ => exact h0
  | 1, _ => exact h1
  | 2, _ => exact h2
  | 3, _ => exact h3

theorem getD_bytesOfWord (v : Word) {j : Nat} (hj : j < 4) :
    (bytesOfWord v).getD j 0#8 = v.extractLsb' (8 * j) 8 := by
  match j, hj with
  | 0, _ | 1, _ | 2, _ | 3, _ => rfl

theorem extractLsb'_windowWord {id : MemId} (m : Memory id 8) (k : Nat) {j : Nat} (hj : j < 4) :
    (m.windowWord k).extractLsb' (8 * j) 8 = m.read (4 * k + j) :=
  extractLsb'_wordOfBytes_of (fun j => m.read (4 * k + j)) hj

theorem extractLsb'_fileWord (f : Vector Byte 32) (k : Fin 8) {j : Nat} (hj : j < 4) :
    (fileWord f k).extractLsb' (8 * j) 8 = f.toList.getD (4 * k.val + j) 0#8 := by
  have hget (i : Nat) (hi : i < 4) : f.toList.getD (4 * k.val + i) 0#8 = f[4 * k.val + i]'(by omega) := by
    rw [List.getD_eq_getElem _ _ (by simp; omega), Vector.getElem_toList]
  have hword : fileWord f k = wordOfBytes (f.toList.getD (4 * k.val + 0) 0#8)
      (f.toList.getD (4 * k.val + 1) 0#8) (f.toList.getD (4 * k.val + 2) 0#8)
      (f.toList.getD (4 * k.val + 3) 0#8) := by
    rw [hget 0 (by decide), hget 1 (by decide), hget 2 (by decide), hget 3 (by decide)]
    rfl
  rw [hword]
  exact extractLsb'_wordOfBytes_of (fun i => f.toList.getD (4 * k.val + i) 0#8) hj

/-! ### What reads give -/

/-- STATUS reads with BUSY set while a command is in flight, and else the same as idle (R23, R39). -/
theorem State.statusWord_of_run {s : State} {c : Word} {left : Nat} (h : s.eng = .run c left) :
    s.statusWord = { s with eng := .idle }.statusWord ||| 1#32 := by
  have hidle := State.toNat_statusWord { s with eng := .idle }
  have hrun := State.toNat_statusWord s
  simp only [State.busy, h, Bool.toNat_true, Bool.toNat_false] at hidle hrun
  have heven : 2 ∣ ({ s with eng := .idle } : State).statusWord.toNat := by omega
  obtain ⟨m, hm⟩ := heven
  have hor : 2 * m ||| 1 = 2 * m + 1 := (Nat.two_pow_add_eq_or_of_lt (i := 1) (b := 1) (by decide) m).symm
  apply BitVec.eq_of_toNat_eq
  rw [BitVec.toNat_or, hm, show (1#32).toNat = 1 from rfl, hor]
  omega

/-- No value but STATUS shows the engine (R23, R39). -/
theorem State.view_eng_idle {s : State} {tg : Target} (h : tg ≠ .status) :
    { s with eng := .idle }.view tg = s.view tg := by
  cases tg with
  | status => exact absurd rfl h
  | _ => rfl

/-- Settles O41: a mapped address selects one target; idle, its read is the target's value, and while a command
is in flight the same for a stable target, a draw for the others. -/
theorem readsAreDefinedWhereTheSpecDefinesThem : Obligations.ReadsAreDefinedWhereTheSpecDefinesThem := by
  intro s
  refine ⟨fun hi => ?idle, fun c left a he hm => ?run⟩
  case idle =>
    have hread {tg : Target} (h : tg.InMap := by trivial) : s.busRead tg.addr = some (s.view tg, s) :=
      State.busRead_of_idle (target_addr h) hi
    have hgives {tg : Target} {n : Nat} (hn : (s.view tg).toNat = n) (h : tg.InMap := by trivial) :
        ∃ v, s.busRead tg.addr = some (v, s) ∧ v.toNat = n := ⟨_, hread h, hn⟩
    have hbytes {tg : Target} {byte : Nat → Byte} (h : tg.InMap)
        (hn : ∀ j, j < 4 → (s.view tg).extractLsb' (8 * j) 8 = byte j) :
        ∃ v, s.busRead tg.addr = some (v, s) ∧ ∀ j, j < 4 → v.extractLsb' (8 * j) 8 = byte j :=
      ⟨_, hread h, hn⟩
    refine ⟨fun a hm => ?_, hgives (tg := .ctrl) s.toNat_ctrlWord, hgives (tg := .status) ?_,
      hgives (tg := .config) s.config.toNat_toWord, hread (tg := .cmd), hread (tg := .arg0),
      hread (tg := .arg1), hread (tg := .result), hgives (tg := .bitlen) ?_, hread (tg := .errinfo0),
      hread (tg := .errinfo1), hgives (tg := .best) s.best.toNat_toWord, hread (tg := .scoreTotal),
      hread (tg := .scoreN1), hread (tg := .scoreN2), hread (tg := .scoreN3), hread (tg := .scoreN4),
      hread (tg := .scoreDark), fun m => hread (tg := .pen m), fun k hk => ⟨?_, ?_⟩,
      fun k hk => ⟨?_, ?_⟩⟩
    · obtain ⟨tg, htg, -, -⟩ := target_of_mapped hm
      exact ⟨_, State.busRead_of_idle htg hi⟩
    · rw [State.view, State.toNat_statusWord, State.busy, hi]
      exact Nat.zero_add _ ▸ rfl
    · rw [State.view, BitVec.toNat_setWidth]
      omega
    · exact hbytes (tg := .gen ⟨k, hk⟩) trivial fun j hj => extractLsb'_fileWord s.gen ⟨k, hk⟩ hj
    · exact hbytes (tg := .rsout ⟨k, hk⟩) trivial fun j hj => extractLsb'_fileWord s.rsout ⟨k, hk⟩ hj
    · exact hbytes (tg := .data k) hk fun j hj => extractLsb'_windowWord s.data k hj
    · exact hbytes (tg := .cw k) hk fun j hj => extractLsb'_windowWord s.cw k hj
  case run =>
    obtain ⟨tg, htg, -, -⟩ := target_of_mapped hm
    refine ⟨fun ha => ?_, fun ha => ?_, fun ha => ?_⟩
    · have hstable : tg.stable = true := (target_stable_iff htg).mpr (by
        simp only [List.mem_cons] at ha ⊢
        tauto)
      have hstatus : tg ≠ .status := by
        rintro rfl
        obtain ⟨-, rfl⟩ := target_eq_some_iff.mp htg
        exact absurd ha (by decide)
      refine ⟨s.view tg, State.busRead_of_stable htg hstable, ?_⟩
      rw [← State.view_eng_idle hstatus]
      exact State.busRead_of_stable htg hstable
    · subst ha
      refine ⟨{ s with eng := .idle }.statusWord, ?_, State.busRead_of_stable (tg := .status) rfl rfl⟩
      rw [← State.statusWord_of_run he]
      exact State.busRead_of_stable (tg := .status) rfl rfl
    · refine State.busRead_of_run htg he (Bool.eq_false_iff.mpr ?_)
      exact mt (target_stable_iff htg).mp ha

end Sys2Proof.Machine
end

section
/-! PROOFS. Idle writes (R22 to R27, R64, R65): each stores its value, keeps the rest, and reads back; acceptance
of a command word (R25) and soft reset (R241). -/

namespace Sys2Proof.Machine

open Sys2Proof

theorem State.unlessBusy_of_idle {s : State} (h : s.eng = .idle) (u : State) : s.unlessBusy u = u := by
  simp [State.unlessBusy, State.busy, h]

theorem State.busWrite_of_idle {s u : State} {a : Addr} {tg : Target} {v : Word} (ht : target a = some tg)
    (hi : s.eng = .idle) (h : s.writeTarget tg v = s.unlessBusy u) : s.busWrite a v 0xF#4 = some u := by
  rw [State.busWrite_of_target ht, h, State.unlessBusy_of_idle hi]

theorem State.busRead_of_idle_eq {s : State} {a : Addr} {tg : Target} {v : Word} (ht : target a = some tg)
    (hi : s.eng = .idle) (hv : s.view tg = v) : s.busRead a = some (v, s) :=
  hv ▸ State.busRead_of_idle ht hi

/-! ### The byte windows -/

theorem Memory.read_writeBlock_bytesOfWord {id : MemId} (m : Memory id 8) (k : Nat) (v : Word) {j : Nat}
    (hj : j < 4) : (m.writeBlock k (bytesOfWord v)).read (k + j) = v.extractLsb' (8 * j) 8 := by
  rw [Memory.read_writeBlock, if_pos (by simp only [bytesOfWord, List.length_cons, List.length_nil]; omega),
    Nat.add_sub_cancel_left, getD_bytesOfWord v hj]

theorem Memory.read_writeBlock_bytesOfWord_of_ne {id : MemId} (m : Memory id 8) (v : Word) {k i : Nat}
    (h : i < k ∨ k + 4 ≤ i) : (m.writeBlock k (bytesOfWord v)).read i = m.read i := by
  rw [Memory.read_writeBlock, if_neg (by simp only [bytesOfWord, List.length_cons, List.length_nil]; omega)]

/-- A word written to a byte window reads back (R65). -/
theorem Memory.windowWord_writeBlock {id : MemId} (m : Memory id 8) (k : Nat) (v : Word) :
    (m.writeBlock (4 * k) (bytesOfWord v)).windowWord k = v := by
  have h0 := m.read_writeBlock_bytesOfWord (4 * k) v (j := 0) (by decide)
  have h1 := m.read_writeBlock_bytesOfWord (4 * k) v (j := 1) (by decide)
  have h2 := m.read_writeBlock_bytesOfWord (4 * k) v (j := 2) (by decide)
  have h3 := m.read_writeBlock_bytesOfWord (4 * k) v (j := 3) (by decide)
  rw [Nat.add_zero] at h0
  rw [Memory.windowWord, h0, h1, h2, h3]
  exact wordOfBytes_extractLsb' v

/-- Settles O42: the write is a block of the word's four bytes, which are the word the window reads. -/
theorem byteWindowsStoreLittleEndian : Obligations.ByteWindowsStoreLittleEndian := by
  intro s k v hi hk
  refine ⟨⟨_, ?_, fun j hj => Memory.read_writeBlock_bytesOfWord _ _ v hj,
    fun i h => Memory.read_writeBlock_bytesOfWord_of_ne _ v h, ?_⟩,
    _, ?_, fun j hj => Memory.read_writeBlock_bytesOfWord _ _ v hj,
    fun i h => Memory.read_writeBlock_bytesOfWord_of_ne _ v h, ?_⟩
  · exact State.busWrite_of_idle (target_addr (tg := .data k) hk) hi rfl
  · exact State.busRead_of_idle_eq (target_addr (tg := .data k) hk) hi (Memory.windowWord_writeBlock _ k v)
  · exact State.busWrite_of_idle (target_addr (tg := .cw k) hk) hi rfl
  · exact State.busRead_of_idle_eq (target_addr (tg := .cw k) hk) hi (Memory.windowWord_writeBlock _ k v)

/-! ### The plane windows -/

/-- The mask of a window word at the start of a row: its 32 bits. -/
theorem getLsbD_windowMask (i : Nat) : ((~~~(0#32)).setWidth 177).getLsbD i = decide (i < 32) := by
  rw [BitVec.getLsbD_setWidth, BitVec.getLsbD_not, BitVec.getLsbD_zero]
  by_cases h : i < 32
  · simp [h, show i < 177 by omega]
  · simp [h]

/-- A cell after a word of a plane window was written: the word's bit, where the word holds it (R64). -/
theorem Memory.cell_writeRowWord {id : MemId} (p : Plane id) (y w : Nat) (v : Word) {x z : Nat}
    (hx : x < 177) (hz : z < 177) :
    (p.writeRowWord y w v).cell x z = if z = y ∧ x / 32 = w then v.getLsbD (x % 32) else p.cell x z := by
  unfold Memory.writeRowWord Memory.cell Config.grid
  split
  · rw [Memory.read_write]
    by_cases hzy : y = z
    · subst hzy
      rw [if_pos rfl, BitVec.getLsbD_or, BitVec.getLsbD_and, BitVec.getLsbD_not, BitVec.getLsbD_shiftLeft,
        BitVec.getLsbD_shiftLeft, getLsbD_windowMask, BitVec.getLsbD_setWidth]
      by_cases hxw : x / 32 = w
      · have hmod : x - 32 * w = x % 32 := by omega
        simp [hx, hxw, hmod, show ¬x < 32 * w by omega, show x % 32 < 32 by omega,
          show x % 32 < 177 by omega]
      · obtain hlt | hge : x < 32 * w ∨ 32 ≤ x - 32 * w := by omega
        · simp [hx, hxw, hlt]
        · simp [hx, hxw, Nat.not_lt.mpr hge, BitVec.getLsbD_of_ge v _ hge]
    · simp [hzy, Ne.symm hzy]
  · rw [if_neg (by omega)]

/-- Bit `b` of a word of a plane window is its cell, 0 outside the storage (R64). -/
theorem Memory.getLsbD_rowWord {id : MemId} (p : Plane id) (y w : Nat) {b : Nat} (hb : b < 32) :
    (p.rowWord y w).getLsbD b = (decide (32 * w + b < 177 ∧ y < 177) && p.cell (32 * w + b) y) := by
  unfold Memory.rowWord Memory.cell Config.grid
  by_cases hy : y < 177
  · by_cases hx : 32 * w + b < 177
    · simp [hy, hx, hb]
    · simp [hy, hx, BitVec.getLsbD_of_ge _ _ (Nat.le_of_not_lt hx)]
  · simp [hy]

/-- Settles O43: a write of a window word by the cells it leaves, a read by the bits it shows. -/
theorem planeWindowsHoldCells : Obligations.PlaneWindowsHoldCells := by
  intro s y w v hi hy hw
  refine ⟨⟨_, ?_, fun x z hx hz => Memory.cell_writeRowWord _ y w v hx hz, _,
      State.busRead_of_idle (target_addr (tg := .mod y w) ⟨hy, hw⟩) hi,
      fun b hb => Memory.getLsbD_rowWord _ y w hb⟩,
    _, ?_, fun x z hx hz => Memory.cell_writeRowWord _ y w v hx hz, _,
      State.busRead_of_idle (target_addr (tg := .func y w) ⟨hy, hw⟩) hi,
      fun b hb => Memory.getLsbD_rowWord _ y w hb⟩
  · exact State.busWrite_of_idle (target_addr (tg := .mod y w) ⟨hy, hw⟩) hi rfl
  · exact State.busWrite_of_idle (target_addr (tg := .func y w) ⟨hy, hw⟩) hi rfl

/-! ### Operand registers and acceptance -/

theorem ConfigReg.toNat_ofWord (v : Word) :
    (ConfigReg.ofWord v).version.toNat = v.toNat % 64 ∧ (ConfigReg.ofWord v).ecl.toNat = v.toNat / 2 ^ 8 % 4 ∧
    (ConfigReg.ofWord v).fmask.toNat = v.toNat / 2 ^ 16 % 8 := by
  simp only [ConfigReg.ofWord, BitVec.toNat_ofNat, field_eq_div_mod]
  omega

/-- A word as the fields of CONFIG, FMASK and FORCE as one, and the reserved fields between them (R24). -/
theorem toNat_eq_config_fields (v : Word) : v.toNat = field v 0 6 + 2 ^ 6 * field v 6 2 + 2 ^ 8 * field v 8 2 +
    2 ^ 10 * field v 10 6 + 2 ^ 16 * field v 16 4 + 2 ^ 20 * field v 20 12 := by
  simp only [field_eq_div_mod]
  omega

/-- CONFIG shows what was written but for its reserved bits (R24, R36). -/
theorem ConfigReg.toWord_ofWord (v : Word) : (ConfigReg.ofWord v).toWord = v &&& 0x000F033F#32 := by
  have hkept (lo len : Nat) (h : ∀ i < len, (0x000F033F#32).getLsbD (lo + i) = true) :
      field (v &&& 0x000F033F#32) lo len = field v lo len := field_and_of_covers h
  have hzero (lo len : Nat) (h : field 0x000F033F#32 lo len = 0) :
      field (v &&& 0x000F033F#32) lo len = 0 := by rw [field_and, h, Nat.and_zero]
  obtain ⟨hversion, hecl, hfmask⟩ := ConfigReg.toNat_ofWord v
  have hforce : (ConfigReg.ofWord v).force.toNat = v.toNat / 2 ^ 19 % 2 := Nat.toNat_testBit v.toNat 19
  apply BitVec.eq_of_toNat_eq
  rw [ConfigReg.toNat_toWord, hversion, hecl, hfmask, hforce, toNat_eq_config_fields (v &&& _),
    hkept 0 6 (by decide), hzero 6 2 rfl, hkept 8 2 (by decide), hzero 10 6 rfl, hkept 16 4 (by decide),
    hzero 20 12 rfl]
  simp only [field_eq_div_mod]
  omega

/-- Settles O46: the write stores CONFIG's fields or the value, and the read shows what is stored. -/
theorem operandRegistersReadBack : Obligations.OperandRegistersReadBack := by
  intro s v hi
  obtain ⟨hversion, hecl, hfmask⟩ := ConfigReg.toNat_ofWord v
  refine ⟨⟨ConfigReg.ofWord v, State.busWrite_of_idle (tg := .config) rfl hi rfl,
      State.busRead_of_idle_eq (tg := .config) rfl hi (ConfigReg.toWord_ofWord v), hversion, hecl, hfmask, rfl⟩,
    State.busWrite_of_idle (tg := .arg0) rfl hi rfl, State.busRead_of_stable (tg := .arg0) rfl rfl,
    State.busWrite_of_idle (tg := .arg1) rfl hi rfl, State.busRead_of_stable (tg := .arg1) rfl rfl⟩

/-- Settles O48: the write is acceptance, whose latency is within the bound, and CMD shows the word. -/
theorem commandWriteIsAccepted : Obligations.CommandWriteIsAccepted := by
  intro s v hi
  obtain ⟨hlo, hhi⟩ := Config.latency_bounds s.draws
  refine ⟨_, hlo, hhi, s.accept v, ?_, rfl, State.busRead_of_stable (tg := .cmd) rfl rfl⟩
  rw [State.busWrite_of_target (tg := .cmd) rfl, State.writeTarget_cmd_of_idle hi]

/-! ### Reset -/

/-- Command `i` is in flight, so that a soft reset aborts it (R241). -/
def State.Aborts (s : State) (i : Instr) : Prop := ∃ c k, s.eng = .run c k ∧ decode c = .ok i

/-- The memories a soft reset loses, by the command it aborts (R241). -/
theorem State.mem_lost_iff (s : State) :
    (.data ∈ s.lost ↔ s.Aborts .bpClear ∨ (∃ n, s.Aborts (.bpAppend n)) ∨ s.Aborts .bpFinalize) ∧
    (.cw ∈ s.lost ↔ s.Aborts .interleave) ∧
    (.mod ∈ s.lost ↔ s.Aborts .gridClear ∨ s.Aborts .place ∨ (∃ m, s.Aborts (.maskApply m)) ∨
      (∃ m, s.Aborts (.formatWrite m)) ∨ s.Aborts .maskSelect) ∧
    (.func ∈ s.lost ↔ s.Aborts .gridClear) := by
  cases he : s.eng with
  | idle => simp [State.lost, State.Aborts, he]
  | run c k =>
    cases hd : decode c with
    | error r => simp [State.lost, abortLoses, State.Aborts, he, hd]
    | ok i =>
      have haborts (j : Instr) : s.Aborts j ↔ i = j := by simp [State.Aborts, he, hd]
      simp only [State.lost, abortLoses, he, hd, haborts]
      cases i <;> simp

/-- A memory after a soft reset: under a new epoch and unwritten if the abort loses it, else kept (R241). -/
theorem Memory.afterAbort_spec {id : MemId} {w : Nat} (m : Memory id w) {lost : List MemId} {p : Prop}
    (h : id ∈ lost ↔ p) :
    (p → (m.afterAbort lost).cells = [] ∧ (m.afterAbort lost).epoch = m.epoch + 1) ∧
    (¬p → m.afterAbort lost = m) := by
  obtain ⟨hmem, heq⟩ | ⟨hmem, heq⟩ := m.afterAbort_cases lost
  · rw [heq]
    exact ⟨fun _ => ⟨rfl, rfl⟩, fun hp => absurd (h.mp hmem) hp⟩
  · exact ⟨fun hp => absurd (h.mpr hp) hmem, fun _ => heq⟩

/-- Settles O49: such a write is a soft reset, which loses the memories of the command it aborts. -/
theorem softResetResetsTheBlock : Obligations.SoftResetResetsTheBlock := by
  intro s v hv
  obtain ⟨hdata, hcw, hmod, hfunc⟩ := s.mem_lost_iff
  obtain ⟨hdataLost, hdataKept⟩ := s.data.afterAbort_spec hdata
  obtain ⟨hcwLost, hcwKept⟩ := s.cw.afterAbort_spec hcw
  obtain ⟨hmodLost, hmodKept⟩ := s.mod.afterAbort_spec hmod
  obtain ⟨hfuncLost, hfuncKept⟩ := s.func.afterAbort_spec hfunc
  refine ⟨s.softReset, ?_, rfl, hdataLost, hdataKept, hcwLost, hcwKept, hmodLost, hmodKept, hfuncLost,
    hfuncKept⟩
  rw [State.busWrite_of_target (tg := .ctrl) rfl, State.writeTarget_ctrl, if_pos hv]

theorem fileWord_replicate_zero (k : Fin 8) : fileWord (Vector.replicate 32 0#8) k = 0#32 := by
  simp [fileWord, wordOfBytes]

/-- Settles O53: the reset state is idle, so each read gives the value of its target. -/
theorem resetValuesOnTheBus : Obligations.ResetValuesOnTheBus := by
  have hread {a : Addr} {tg : Target} {v : Word} (ht : target a = some tg) (hv : State.reset.view tg = v) :
      State.reset.busRead a = some (v, State.reset) := State.busRead_of_idle_eq ht rfl hv
  have hgeom0 : State.reset.view .geom0 = 0x01070115#32 := by decide +kernel
  have hgeom1 : State.reset.view .geom1 = 0x0013001A#32 := by decide +kernel
  have hgeom2 : State.reset.view .geom2 = 0x00000013#32 := by decide +kernel
  refine ⟨rfl, rfl, hread (tg := .id) rfl rfl, hread (tg := .config) rfl rfl,
    hread (tg := .geom0) rfl hgeom0, hread (tg := .geom1) rfl hgeom1, hread (tg := .geom2) rfl hgeom2, ?_,
    fun k => ⟨?_, ?_, ?_⟩⟩
  · simp only [List.forall_mem_cons, List.not_mem_nil, false_imp_iff, implies_true, and_true]
    exact ⟨hread (tg := .ctrl) rfl rfl, hread (tg := .status) rfl rfl, hread (tg := .cmd) rfl rfl,
      hread (tg := .arg0) rfl rfl, hread (tg := .arg1) rfl rfl, hread (tg := .result) rfl rfl,
      hread (tg := .bitlen) rfl rfl, hread (tg := .errinfo0) rfl rfl, hread (tg := .errinfo1) rfl rfl,
      hread (tg := .best) rfl rfl, hread (tg := .scoreTotal) rfl rfl, hread (tg := .scoreN1) rfl rfl,
      hread (tg := .scoreN2) rfl rfl, hread (tg := .scoreN3) rfl rfl, hread (tg := .scoreN4) rfl rfl,
      hread (tg := .scoreDark) rfl rfl⟩
  · exact hread (target_addr (tg := .pen k) trivial) (Vector.getElem_replicate k.isLt)
  · exact hread (target_addr (tg := .gen k) trivial) (fileWord_replicate_zero k)
  · exact hread (target_addr (tg := .rsout k) trivial) (fileWord_replicate_zero k)

end Sys2Proof.Machine
end

section
/-! PROOFS. The geometry of a well-formed block table (R30): its bounds, the blocks that tile the data codewords
(R150), and what GEOM0 to GEOM2 show (R31). -/

namespace Sys2Proof.Machine

open Sys2Proof

/-- The bounds of R30 on a geometry of a well-formed table, and its data codewords as those of the blocks. -/
structure GeometryFits (g : Geometry) : Prop where
  nb : 1 ≤ g.nb ∧ g.nb ≤ 255
  el : 1 ≤ g.el ∧ g.el ≤ 30
  sdl : 1 ≤ g.sdl ∧ g.sdl ≤ 254
  ns : 1 ≤ g.ns ∧ g.ns ≤ g.nb
  tot : g.tot ≤ 4096
  dcw_add : g.dcw + g.nb * g.el = g.tot
  dcw_eq : g.dcw = g.nb * g.sdl + (g.nb - g.ns)

/-- The checks of `Geometry.wf` do not look at the version. -/
theorem fits_of_wf {r : VersionRow} {e : Nat} (h : (r.geometry 1 e).wf = true) (v : Nat) :
    GeometryFits (r.geometry v e) := by
  simp only [Geometry.wf, Bool.and_eq_true, decide_eq_true_eq] at h
  simp only [VersionRow.geometry, Config.maxDeg, Config.cwBytes] at h
  obtain ⟨⟨⟨⟨⟨⟨hnb, hel⟩, hel'⟩, hsdl⟩, htot⟩, hnb'⟩, hsdl'⟩ := h
  have hmod := Nat.mod_lt r.tot (show 0 < (r.shape e).nb by omega)
  have hdiv := Nat.div_add_mod r.tot (r.shape e).nb
  have hmul : (r.shape e).nb * (r.tot / (r.shape e).nb) =
      (r.shape e).nb * (r.tot / (r.shape e).nb - (r.shape e).el) + (r.shape e).nb * (r.shape e).el := by
    rw [← Nat.mul_add, Nat.sub_add_cancel (by omega)]
  constructor <;> simp only [VersionRow.geometry] <;> omega

theorem geometry_fits {p : Params} {v e : Nat} (hp : p.wf = true) (hv : 1 ≤ v) (hv' : v ≤ 40) (he : e < 4) :
    GeometryFits (geometry p v e) := by
  simp only [Params.wf, Bool.and_eq_true, decide_eq_true_eq, List.all_eq_true, List.mem_range] at hp
  obtain ⟨hlen, hrows⟩ := hp
  have hlt : v - 1 < p.blockTable.length := by
    rw [hlen, Config.maxVersion]
    omega
  rw [geometry, List.getD_eq_getElem _ _ hlt]
  exact fits_of_wf (hrows _ (List.getElem_mem hlt) e he) v

theorem State.geom_fits {s : State} (hp : s.params.wf = true) (hs : VersionLegal s) : GeometryFits s.geom :=
  geometry_fits hp hs.1 hs.2 s.config.ecl.isLt

/-! ### The blocks -/

@[simp] theorem blockStart_zero (g : Geometry) : blockStart g 0 = 0 := by
  simp [blockStart]

/-- Each block starts where the one before it ends (R150). -/
theorem blockStart_succ (g : Geometry) (b : Nat) : blockStart g (b + 1) = blockStart g b + blockLen g b := by
  unfold blockStart blockLen
  rw [Nat.add_mul]
  split <;> omega

/-- Settles O25: the recurrence of the starts, and the data codewords as the sum of the blocks. -/
theorem blocksTileTheDataCodewords : Obligations.BlocksTileTheDataCodewords := by
  intro p v e hp hv hv' he
  have h := geometry_fits hp hv hv' he
  exact ⟨blockStart_zero _, fun b _ => blockStart_succ _ b, h.dcw_eq.symm, h.dcw_add, h.ns⟩

/-! ### The geometry registers -/

theorem legalVersion_iff {s : State} : legalVersion s.version = true ↔ VersionLegal s := by
  rw [legalVersion, Bool.and_eq_true, decide_eq_true_eq, decide_eq_true_eq]
  exact Iff.rfl

theorem State.geom_eq_zero_of_illegal {s : State} (h : ¬VersionLegal s) :
    s.geom0 = 0#32 ∧ s.geom1 = 0#32 ∧ s.geom2 = 0#32 := by
  have hlegal := mt legalVersion_iff.mp h
  exact ⟨if_neg hlegal, if_neg hlegal, if_neg hlegal⟩

theorem State.toNat_geom0 {s : State} (hp : s.params.wf = true) (hs : VersionLegal s) :
    s.geom0.toNat = side s + 2 ^ 8 * s.geom.nb + 2 ^ 16 * s.geom.el + 2 ^ 24 * s.geom.ns := by
  obtain ⟨hnb, hel, -, hns, -, -, -⟩ := State.geom_fits hp hs
  obtain ⟨hlo, hhi⟩ := side_bounds hs
  rw [State.geom0, if_pos (legalVersion_iff.mpr hs)]
  simp only [toNat_append_eq_add, BitVec.toNat_ofNat, State.geom_size]
  omega

/-- Settles O51: the registers are stable, and their fields hold the geometry without being cut. -/
theorem geometryRegistersShowTheGeometry : Obligations.GeometryRegistersShowTheGeometry := by
  intro s hp
  refine ⟨s.geom0, s.geom1, s.geom2, State.busRead_of_stable (tg := .geom0) rfl rfl,
    State.busRead_of_stable (tg := .geom1) rfl rfl, State.busRead_of_stable (tg := .geom2) rfl rfl,
    fun hs => ⟨State.toNat_geom0 hp hs, ?_, ?_⟩, State.geom_eq_zero_of_illegal⟩
  all_goals
    obtain ⟨hnb, hel, hsdl, -, htot, hdcw, -⟩ := State.geom_fits hp hs
    have hecc : 1 ≤ s.geom.nb * s.geom.el := Nat.mul_pos hnb.1 hel.1
  · rw [State.toNat_geom1, if_pos (legalVersion_iff.mpr hs)]
    omega
  · rw [State.toNat_geom2, if_pos (legalVersion_iff.mpr hs)]
    omega

/-- Settles O52: every entry of GK1's table by evaluation. -/
theorem defaultTableCapacities : Obligations.DefaultTableCapacities := by
  unfold Obligations.DefaultTableCapacities
  decide +kernel

end Sys2Proof.Machine
end

section
/-! PROOFS. What a host transfer does to the block, and from it what a step does to the error registers (R219) and
to the engine (R39), and how a WAIT ends (R87). -/

namespace Sys2Proof.Machine

open Sys2Proof

/-! ### Host transfers -/

/-- A host transfer writes one target, or changes nothing but the model's own draws, host and read data. -/
theorem hostStep_effect {op : HostOp} {rest : List HostOp} {s t : State}
    (h : hostStep op rest s = .next t) :
    (∃ addr val strobes v tg, op = .write addr val strobes ∧ s.hostValue val = .ok v ∧
      target addr = some tg ∧ t = { s.writeTarget tg v with host := rest }) ∨
    ∃ draws host readData, t = { s with draws := draws, host := host, readData := readData } := by
  obtain ⟨addr, val, strobes, v, u, rfl, hv, hu, rfl⟩ | ⟨addr, v, u, -, hu, rfl⟩ | ⟨-, -, rfl⟩ | ⟨-, rfl⟩ :=
    hostStep_cases h
  · obtain ⟨-, tg, htg, rfl⟩ := State.busWrite_eq_some.mp hu
    exact .inl ⟨addr, val, strobes, v, tg, rfl, hv, htg, rfl⟩
  · obtain ⟨tg, -, hr⟩ := State.busRead_eq_some.mp hu
    unfold State.readTarget at hr
    split at hr
    · obtain ⟨-, rfl⟩ := Prod.mk.inj hr
      exact .inr ⟨s.draws + 1, rest, s.readData ++ [v], rfl⟩
    · obtain ⟨-, rfl⟩ := Prod.mk.inj hr
      exact .inr ⟨s.draws, rest, s.readData ++ [v], rfl⟩
  · exact .inr ⟨t.draws, t.host, t.readData, rfl⟩
  · exact .inr ⟨s.draws, rest, s.readData, rfl⟩

/-- `t` agrees with `s` in everything no host store writes: a store of an operand, a window word or IRQ_EN leaves
the engine, the results and the error registers alone (R22 to R27, R250). -/
structure SameButStores (s t : State) : Prop where
  cmd : t.cmd = s.cmd
  bitlen : t.bitlen = s.bitlen
  errinfo0 : t.errinfo0 = s.errinfo0
  errinfo1 : t.errinfo1 = s.errinfo1
  score : t.score = s.score
  pen : t.pen = s.pen
  eng : t.eng = s.eng
  err : t.status.err = s.status.err
  errcode : t.status.errcode = s.status.errcode

theorem sameButStores_unlessBusy {s u : State} (h : SameButStores s u) : SameButStores s (s.unlessBusy u) := by
  unfold State.unlessBusy
  split
  · constructor <;> rfl
  · exact h

/-- A write is a soft reset, the acceptance of a command, an acknowledgement through STATUS, or a store
(R22 to R27, R37, R250). -/
theorem State.writeTarget_cases (s : State) (tg : Target) (v : Word) :
    (tg = .ctrl ∧ v.getLsbD 1 = true ∧ s.writeTarget tg v = s.softReset) ∨
    (tg = .cmd ∧ s.eng = .idle ∧ s.writeTarget tg v = s.accept v) ∨
    (tg = .status ∧ s.writeTarget tg v = { s with status := s.status.writeOneToClear v }) ∨
    SameButStores s (s.writeTarget tg v) := by
  cases tg with
  | ctrl =>
    rw [State.writeTarget_ctrl]
    by_cases hv : v.getLsbD 1 = true
    · exact .inl ⟨rfl, hv, if_pos hv⟩
    · rw [if_neg hv]
      exact .inr (.inr (.inr (by constructor <;> rfl)))
  | cmd =>
    cases he : s.eng with
    | idle => exact .inr (.inl ⟨rfl, rfl, State.writeTarget_cmd_of_idle he v⟩)
    | run c left =>
      rw [State.writeTarget_operand_of_run he rfl]
      exact .inr (.inr (.inr (by constructor <;> rfl)))
  | status => exact .inr (.inr (.inl ⟨rfl, rfl⟩))
  | config | arg0 | arg1 | data | cw | mod | func =>
    exact .inr (.inr (.inr (sameButStores_unlessBusy (by constructor <;> rfl))))
  | _ => exact .inr (.inr (.inr (by constructor <;> rfl)))

/-- The error registers after a host transfer: as before, but for an acknowledgement of ERR and a soft reset, each
a write with its bit set (R219, R241). -/
theorem hostStep_error {op : HostOp} {rest : List HostOp} {s t : State} (h : hostStep op rest s = .next t) :
    (∃ val strobes v, op = .write 0x004#15 val strobes ∧ s.hostValue val = .ok v ∧ v.getLsbD 1 = true) ∨
    ((t.status.err = s.status.err ∨
      ∃ val strobes v, op = .write 0x008#15 val strobes ∧ s.hostValue val = .ok v ∧ v.getLsbD 2 = true) ∧
      t.status.errcode = s.status.errcode ∧ t.errinfo0 = s.errinfo0 ∧ t.errinfo1 = s.errinfo1) := by
  obtain ⟨addr, val, strobes, v, tg, rfl, hv, htg, rfl⟩ | ⟨draws, host, readData, rfl⟩ := hostStep_effect h
  · obtain ⟨-, rfl⟩ := target_eq_some_iff.mp htg
    obtain ⟨rfl, hbit, -⟩ | ⟨rfl, -, heq⟩ | ⟨rfl, heq⟩ | hstore := s.writeTarget_cases tg v
    · exact .inl ⟨val, strobes, v, rfl, hv, hbit⟩
    · rw [heq]
      exact .inr ⟨.inl rfl, rfl, rfl, rfl⟩
    · rw [heq]
      refine .inr ⟨?_, rfl, rfl, rfl⟩
      by_cases hbit : v.getLsbD 2 = true
      · exact .inr ⟨val, strobes, v, rfl, hv, hbit⟩
      · exact .inl (by simp only [Status.writeOneToClear, Bool.eq_false_iff.mpr hbit, Bool.not_false, Bool.and_true])
    · exact .inr ⟨.inl hstore.err, hstore.errcode, hstore.errinfo0, hstore.errinfo1⟩
  · exact .inr ⟨.inl rfl, rfl, rfl, rfl⟩

/-- Settles O55: a completion sets ERR or keeps the error registers, and a transfer changes them only by the two
writes. -/
theorem errorStaysUntilAcknowledged : Obligations.ErrorStaysUntilAcknowledged := by
  intro s t h wrote
  have htransfer {op : HostOp} {rest : List HostOp} {eng : Engine} (hh : s.host = op :: rest)
      (h : hostStep op rest { s with eng := eng } = .next t) :
      wrote 0x004#15 1 ∨ ((t.status.err = s.status.err ∨ wrote 0x008#15 2) ∧
        t.status.errcode = s.status.errcode ∧ t.errinfo0 = s.errinfo0 ∧ t.errinfo1 = s.errinfo1) := by
    refine (hostStep_error h).imp ?_ (And.imp_left (Or.imp_right ?_))
    all_goals
      rintro ⟨val, strobes, v, rfl, hv, hbit⟩
      exact ⟨val, strobes, rest, v, hh, hv, hbit⟩
  obtain ⟨c, left, he, -, hc⟩ | ⟨c, left, op, rest, -, hh, h⟩ | ⟨op, rest, -, hh, h⟩ | ⟨-, -, rfl⟩ :=
    step_cases h
  · obtain ⟨herr, hcode, h0, h1⟩ | ⟨code, i0, i1, -, ht⟩ := completeCommand_keepsError_or_fails hc
    · exact ⟨fun hs ht => by simp [hs, ht] at herr, fun hne => by simp [hcode, h0, h1] at hne⟩
    · exact ⟨fun _ herr => by simp [ht, failed] at herr, fun _ => .inl ⟨c, left, code, i0, i1, he, hc, ht⟩⟩
  case inr.inr.inr => exact ⟨fun hs ht => by simp [hs] at ht, fun hne => by simp at hne⟩
  all_goals
    obtain hreset | ⟨herr, hcode, h0, h1⟩ := htransfer hh h
    · exact ⟨fun _ _ => .inr hreset, fun _ => .inr hreset⟩
    · refine ⟨fun hs ht => .inl (herr.resolve_left ?_), fun hne => by simp [hcode, h0, h1] at hne⟩
      simp [hs, ht]

/-! ### The engine -/

/-- The engine after a host transfer: as before, but for the acceptance of a command and a soft reset (R39). -/
theorem hostStep_engine {op : HostOp} {rest : List HostOp} {s t : State} (h : hostStep op rest s = .next t) :
    t.eng = s.eng ∨
    (s.eng = .idle ∧ ∃ val strobes v k, op = .write 0x010#15 val strobes ∧ s.hostValue val = .ok v ∧
      t.eng = .run v k ∧ t.cmd = v) ∨
    (t.eng = .idle ∧ t.status.done = false ∧ ∃ val strobes v, op = .write 0x004#15 val strobes ∧
      s.hostValue val = .ok v ∧ v.getLsbD 1 = true) := by
  obtain ⟨addr, val, strobes, v, tg, rfl, hv, htg, rfl⟩ | ⟨draws, host, readData, rfl⟩ := hostStep_effect h
  · obtain ⟨-, rfl⟩ := target_eq_some_iff.mp htg
    obtain ⟨rfl, hbit, heq⟩ | ⟨rfl, he, heq⟩ | ⟨rfl, heq⟩ | hstore := s.writeTarget_cases tg v
    · rw [heq]
      exact .inr (.inr ⟨rfl, rfl, val, strobes, v, rfl, hv, hbit⟩)
    · rw [heq]
      exact .inr (.inl ⟨he, val, strobes, v, _, rfl, hv, rfl, rfl⟩)
    · rw [heq]
      exact .inl rfl
    · exact .inl hstore.eng
  · exact .inl rfl

theorem completeCommand_eng_done {c : Word} {s t : State} (h : completeCommand c s = .next t) :
    t.eng = .idle ∧ t.status.done = true := by
  obtain ⟨i, u, -, -, rfl⟩ | ⟨i, e, -, -, rfl⟩ | ⟨r, -, rfl⟩ := completeCommand_cases h <;> simp

/-- Settles O56: by the step's cases, with the engine after a transfer and after a completion. -/
theorem engineMovesOnlyByAcceptanceCompletionAndReset :
    Obligations.EngineMovesOnlyByAcceptanceCompletionAndReset := by
  intro s t h
  obtain ⟨c, left, he, -, hc⟩ | ⟨c, left, op, rest, he, hh, h⟩ | ⟨op, rest, he, hh, h⟩ | ⟨he, -, rfl⟩ :=
    step_cases h
  · obtain ⟨hidle, hdone⟩ := completeCommand_eng_done hc
    refine ⟨fun _ => .inl hidle, fun c' left' he' => .inr (.inl ⟨hidle, hdone, ?_⟩)⟩
    obtain ⟨rfl, -⟩ := Engine.run.inj (he.symm.trans he')
    exact hc
  · refine ⟨fun hi => by simp [hi] at he, fun c' left' he' => ?_⟩
    obtain ⟨rfl, rfl⟩ := Engine.run.inj (he.symm.trans he')
    obtain hsame | ⟨hi, -⟩ | ⟨hidle, hdone, val, strobes, v, rfl, hv, hbit⟩ := hostStep_engine h
    · exact .inl ⟨left, hsame, rfl⟩
    · cases hi
    · exact .inr (.inr ⟨hidle, hdone, val, strobes, rest, v, hh, hv, hbit⟩)
  · refine ⟨fun _ => ?_, fun c left he' => by simp [he] at he'⟩
    obtain hsame | ⟨-, val, strobes, v, k, rfl, hv, heng, hcmd⟩ | ⟨hidle, -⟩ := hostStep_engine h
    · exact .inl (hsame.trans he)
    · exact .inr ⟨v, k, val, strobes, rest, heng, hcmd, hh, hv⟩
    · exact .inl hidle
  · exact ⟨fun _ => .inl he, fun c left he' => by simp [he] at he'⟩

/-! ### A WAIT behind a command -/

theorem run_succ {s t : State} (h : step s = .next t) (k : Nat) :
    Host.Core.run core (k + 1) s = Host.Core.run core k t := by
  simp only [Host.Core.run, show core.step s = .next t from h]

/-- While a command is in flight a WAIT reads STATUS once for each transfer of its latency (R87, R260). -/
theorem run_wait {s : State} {c : Word} {left : Nat} {rest : List HostOp} (he : s.eng = .run c left)
    (hh : s.host = .wait :: rest) (k : Nat) :
    Host.Core.run core (left + k) s = Host.Core.run core k { s with eng := .run c 0 } := by
  induction left generalizing s with
  | zero => rw [Nat.zero_add, ← he]
  | succ left ih =>
    have hstep : step s = .next { s with eng := .run c left } := by
      rw [step_of_run_host he hh]
      rfl
    rw [Nat.succ_add]
    exact (run_succ hstep _).trans (ih (s := { s with eng := .run c left }) rfl hh)

theorem completeCommand_host {c : Word} {s t : State} (h : completeCommand c s = .next t) :
    t.host = s.host := by
  obtain ⟨i, u, -, hb, rfl⟩ | ⟨i, e, -, -, rfl⟩ | ⟨r, -, rfl⟩ := completeCommand_cases h
  · simpa using (bodyOf_sameControl hb).host
  · simp
  · simp

/-- An idle block's WAIT ends at its first read (R87). -/
theorem step_wait_of_idle {s : State} {rest : List HostOp} (he : s.eng = .idle) (hh : s.host = .wait :: rest) :
    step s = .next { s with host := rest } := by
  rw [step_of_idle he, hh]
  simp [hostStep, State.busy, he]

/-- Settles O57: the WAIT's reads use up the latency, the command completes, and the next read ends the WAIT. -/
theorem waitEndsWithinTheLatency : Obligations.WaitEndsWithinTheLatency := by
  intro s c left rest he hh
  have hc : completeCommand c { s with eng := .run c 0 } = .next _ := completeCommand_eq c _
  obtain ⟨hidle, hdone⟩ := completeCommand_eng_done hc
  refine ⟨_, hc, ?_, hidle, hdone⟩
  calc Host.Core.run core (left + 2) s
    _ = Host.Core.run core 2 { s with eng := .run c 0 } := run_wait he hh 2
    _ = Host.Core.run core 1 _ := run_succ ((step_of_run_zero rfl).trans hc) 1
    _ = Host.Core.run core 0 _ := run_succ (step_wait_of_idle hidle ((completeCommand_host hc).trans hh)) 0

end Sys2Proof.Machine
end

section
/-! PROOFS. The runs of a line (R186), and the bound of N3 on a line (R189): cores share at most a run, so a line
of n cells has at most n / 6 of them, each counted at most twice; every total of a symbol is then below 2^20. -/

namespace Sys2Proof.Machine

open Sys2Proof

/-! ### The runs of a line -/

theorem flatMap_runs (line : List Bool) :
    ((runs line).flatMap fun r => List.replicate r.2 r.1) = line := by
  induction line with
  | nil => rfl
  | cons c rest ih =>
    rw [runs]
    split
    next h => simpa [h] using ih
    next d len more h =>
      rw [h] at ih
      split
      next hc => simp [← ih, hc, List.replicate_succ]
      next hc => simp [← ih]

theorem one_le_of_mem_runs {line : List Bool} : ∀ r ∈ runs line, 1 ≤ r.2 := by
  induction line with
  | nil => simp [runs]
  | cons c rest ih =>
    rw [runs]
    split
    next h => simp
    next d len more h =>
      rw [h, List.forall_mem_cons] at ih
      split
      next => exact List.forall_mem_cons.mpr ⟨by simp, ih.2⟩
      next => exact List.forall_mem_cons.mpr ⟨by simp, List.forall_mem_cons.mpr ih⟩

theorem isChain_runs (line : List Bool) :
    List.IsChain (fun r q : Bool × Nat => r.1 ≠ q.1) (runs line) := by
  induction line with
  | nil => exact .nil
  | cons c rest ih =>
    rw [runs]
    split
    next h => exact .singleton _
    next d len more h =>
      rw [h] at ih
      split
      next hc =>
        subst hc
        cases more with
        | nil => exact .singleton _
        | cons r more => exact List.isChain_cons_cons.mpr (List.isChain_cons_cons.mp ih)
      next hc => exact .cons_cons hc ih

/-- Settles O34: each by induction on the line, the next cell extending the first run or starting one. -/
theorem runsPartitionTheLine : Obligations.RunsPartitionTheLine :=
  fun line => ⟨flatMap_runs line, one_le_of_mem_runs, isChain_runs line⟩

/-! ### The cores of a line -/

/-- The cells of a run, none of the unbounded run outside the symbol. -/
def RunLength.size : RunLength → Nat
  | .cells n => n
  | .unbounded => 0

/-- The cells of a list of runs inside the symbol. -/
def cellsOf (rs : List (Bool × RunLength)) : Nat := (rs.map fun r => r.2.size).sum

/-- No run is empty. -/
def NoEmptyRun (rs : List (Bool × RunLength)) : Prop := ∀ r ∈ rs, r.2 ≠ .cells 0

/-- Where N3 counts, the core of scale `w` stands (R189). -/
theorem n3At_ne_zero {scaled : Bool} {prev : Option RunLength} {rs : List (Bool × RunLength)}
    (h : n3At scaled prev rs ≠ 0) : ∃ w rest, rs = (true, .cells w) :: (false, .cells w) ::
      (true, .cells (3 * w)) :: (false, .cells w) :: (true, .cells w) :: rest := by
  unfold n3At at h
  split at h
  next w b c d e rest =>
    split at h
    · exact absurd rfl h
    · split at h
      next heq =>
        obtain ⟨rfl, rfl, rfl, rfl⟩ := heq
        exact ⟨w, rest, rfl⟩
      · exact absurd rfl h
  · exact absurd rfl h

/-- The next core can start at the last dark run of a core at the earliest: six cells further on (R189). -/
theorem three_mul_n3From_le (scaled : Bool) (prev : Option RunLength) {rs : List (Bool × RunLength)}
    (h : NoEmptyRun rs) : 3 * n3From scaled prev rs ≤ cellsOf rs := by
  induction hn : rs.length using Nat.strong_induction_on generalizing prev rs with
  | _ n ih =>
  cases rs with
  | nil => exact Nat.zero_le _
  | cons r rs =>
    by_cases hat : n3At scaled prev (r :: rs) = 0
    · have hrest := ih rs.length (by simp [← hn]) (some r.2) (List.forall_mem_cons.mp h).2 rfl
      rw [n3From, hat, Nat.zero_add, cellsOf, List.map_cons, List.sum_cons]
      exact hrest.trans (Nat.le_add_left _ _)
    · obtain ⟨w, rest, heq⟩ := n3At_ne_zero hat
      have hle := n3At_le scaled prev (r :: rs)
      rw [heq] at hle hn h ⊢
      have hw : w ≠ 0 := by
        rintro rfl
        exact (List.forall_mem_cons.mp h).1 rfl
      have hlast : NoEmptyRun ((true, .cells w) :: rest) := fun q hq => h q (by simp_all)
      have hrest := ih _ (by simp [← hn]) (some (.cells w)) hlast rfl
      have hlight (p : Option RunLength) (b : RunLength) (qs : List (Bool × RunLength)) :
          n3At scaled p ((false, b) :: qs) = 0 := rfl
      have hmiddle (p : Option RunLength) : n3At scaled p
          ((true, .cells (3 * w)) :: (false, .cells w) :: (true, .cells w) :: rest) = 0 := by
        by_contra hne
        obtain ⟨w', rest', heq'⟩ := n3At_ne_zero hne
        simp only [List.cons.injEq, Prod.mk.injEq, RunLength.cells.injEq] at heq'
        omega
      rw [n3From, n3From, n3From, n3From, hlight, hmiddle, hlight]
      simp only [cellsOf, List.map_cons, List.sum_cons, RunLength.size] at hrest ⊢
      omega

theorem cellsOf_lightBefore_le (rs : List (Bool × RunLength)) : cellsOf (lightBefore rs) ≤ cellsOf rs := by
  unfold lightBefore
  split <;> simp [cellsOf, RunLength.size]

theorem noEmptyRun_lightBefore {rs : List (Bool × RunLength)} (h : NoEmptyRun rs) :
    NoEmptyRun (lightBefore rs) := by
  unfold lightBefore
  split
  · exact List.forall_mem_cons.mpr ⟨by simp, (List.forall_mem_cons.mp h).2⟩
  · exact List.forall_mem_cons.mpr ⟨by simp, h⟩

theorem cellsOf_reverse (rs : List (Bool × RunLength)) : cellsOf rs.reverse = cellsOf rs := by
  simp [cellsOf]

theorem noEmptyRun_reverse {rs : List (Bool × RunLength)} (h : NoEmptyRun rs) : NoEmptyRun rs.reverse :=
  fun r hr => h r (List.mem_reverse.mp hr)

/-- N3 looks at the cells of the line at most, in runs none of which is empty (R189). -/
theorem n3Runs_spec (borderLight : Bool) (line : List Bool) :
    NoEmptyRun (n3Runs borderLight line) ∧ cellsOf (n3Runs borderLight line) ≤ line.length := by
  have hruns : NoEmptyRun ((runs line).map fun (c, len) => (c, RunLength.cells len)) := by
    intro r hr
    obtain ⟨q, hq, rfl⟩ := List.mem_map.mp hr
    have := one_le_of_mem_runs q hq
    simp only [ne_eq, RunLength.cells.injEq]
    omega
  have hcells : cellsOf ((runs line).map fun (c, len) => (c, RunLength.cells len)) = line.length := by
    rw [← sum_length_runs line, cellsOf, List.map_map]
    rfl
  unfold n3Runs
  split
  · refine ⟨noEmptyRun_reverse (noEmptyRun_lightBefore (noEmptyRun_reverse
      (noEmptyRun_lightBefore hruns))), ?_⟩
    rw [cellsOf_reverse]
    exact (cellsOf_lightBefore_le _).trans
      ((cellsOf_reverse _).trans_le ((cellsOf_lightBefore_le _).trans_eq hcells))
  · exact ⟨hruns, hcells.le⟩

theorem three_mul_n3Count_le (p : Params) (line : List Bool) : 3 * n3Count p line ≤ line.length := by
  obtain ⟨hempty, hcells⟩ := n3Runs_spec p.n3BorderLight line
  exact (three_mul_n3From_le p.n3Scaled none hempty).trans hcells

/-! ### The bound of every penalty register -/

/-- Every penalty term is below 2^20 (R199). -/
def Penalty.Below (t : Penalty) : Prop := t.total < 2 ^ 20 ∧ t.dark < 2 ^ 20

/-- On a symbol of side at most 177 N1 to N4 are at most 62658, 92928, 835440 and 100. -/
theorem below_penalty (p : Params) {n : Nat} (hn : n ≤ 177) (g : Nat → Nat → Bool) : (penalty p n g).Below := by
  have h1 := penaltyN1_le n g
  have h2 := penaltyN2_le n g
  have h3 : penaltyN3 p n g ≤ 40 * (2 * n * 59) :=
    Nat.mul_le_mul_left 40 (sum_map_gridLines_le g fun line hline => by
      have := three_mul_n3Count_le p line
      omega)
  have h4 := penaltyN4_le p.n4Rounding (darkCells_le n g)
  have hdark := darkCells_le n g
  have hn1 : 2 * n * n ≤ 2 * 177 * 177 := by gcongr
  have hn2 : (n - 1) * (n - 1) ≤ 176 * 176 := by gcongr <;> omega
  have hn' : n * n ≤ 177 * 177 := by gcongr
  simp only [Penalty.Below, Penalty.total, penalty]
  omega

theorem toNat_word_lt {k : Nat} (hk : k < 2 ^ 20) : (word k).toNat < 2 ^ 20 := (Nat.mod_le k _).trans_lt hk

/-- A state whose accumulator shows a bounded penalty and whose PEN registers are bounded. -/
theorem scoresBounded_of_below {t : State} {p : Penalty} (hp : p.Below) (hscore : t.score = p.regs)
    (hpen : ∀ m : Fin 8, t.pen[m].toNat < 2 ^ 20) : ScoresBounded t := by
  obtain ⟨htotal, hdark⟩ := hp
  unfold Penalty.total at htotal
  rw [ScoresBounded, hscore]
  exact ⟨toNat_word_lt htotal, toNat_word_lt (by omega), toNat_word_lt (by omega), toNat_word_lt (by omega),
    toNat_word_lt (by omega), toNat_word_lt hdark, hpen⟩

theorem scoresBounded_congr {s t : State} (hscore : t.score = s.score) (hpen : t.pen = s.pen)
    (h : ScoresBounded s) : ScoresBounded t := by
  rw [ScoresBounded, hscore, hpen]
  exact h

theorem toNat_penOf_lt {pens : List (Nat × Nat)} (h : ∀ c ∈ pens, c.2 < 2 ^ 20) (m : Nat) :
    (penOf pens m).toNat < 2 ^ 20 := by
  unfold penOf
  split
  next c hc => exact toNat_word_lt (h c (List.mem_of_find?_eq_some hc))
  next => decide

/-! ### Every step keeps the bound -/

theorem exec_scoresBounded {i : Instr} {s t : State} (h : ScoresBounded s) (hexec : exec i s = .next t) :
    ScoresBounded t := by
  by_cases hill : IllegalParam i s
  · have ht := (illegalParamExactlyInTheListedCases i s).1 hill
    obtain rfl := Host.Outcome.next.inj (hexec.symm.trans ht)
    exact scoresBounded_congr rfl rfl h
  · by_cases hscore : i = .score
    · subst hscore
      have hs : VersionLegal s := not_not.mp hill
      obtain rfl := Host.Outcome.next.inj (hexec.symm.trans (exec_score hs))
      exact scoresBounded_of_below (below_penalty s.params (side_bounds hs).2 _) rfl h.2.2.2.2.2.2
    · by_cases hselect : i = .maskSelect
      · subst hselect
        have hs : VersionLegal s := not_not.mp hill
        obtain ⟨p, -, hmask⟩ := exists_exec_maskSelect hs
        obtain rfl := Host.Outcome.next.inj (hexec.symm.trans hmask)
        refine scoresBounded_of_below (below_penalty s.params (side_bounds hs).2 _) rfl fun m => ?_
        simp only [completed, Fin.getElem_fin, Vector.getElem_ofFn]
        refine toNat_penOf_lt (fun c hc => ?_) m
        obtain ⟨k, -, rfl⟩ := List.mem_map.mp hc
        exact (below_penalty s.params (side_bounds hs).2 _).1
      · obtain ⟨-, -, -, -, -, -, -, hkeep, hkeep'⟩ := onlyNamedCommandsWriteEachPlace i s t hexec
        refine scoresBounded_congr ?_ ?_ h
        · by_contra hne
          exact (hkeep hne).elim hscore hselect
        · by_contra hne
          exact hselect (hkeep' (.inr hne))

theorem completeCommand_scoresBounded {c : Word} {s t : State} (h : ScoresBounded s)
    (hc : completeCommand c s = .next t) : ScoresBounded t := by
  cases hd : decode c with
  | error r =>
    rw [completeCommand_of_decode_error hd] at hc
    obtain rfl := Host.Outcome.next.inj hc
    exact scoresBounded_congr rfl rfl h
  | ok i => exact exec_scoresBounded h (completeCommand_of_decode_ok hd s ▸ hc)

theorem scoresBounded_softReset (s : State) : ScoresBounded s.softReset := by
  simp [ScoresBounded, ScoreRegs.reset]

theorem hostStep_scoresBounded {op : HostOp} {rest : List HostOp} {s t : State} (h : ScoresBounded s)
    (hstep : hostStep op rest s = .next t) : ScoresBounded t := by
  obtain ⟨addr, val, strobes, v, tg, -, -, -, rfl⟩ | ⟨draws, host, readData, rfl⟩ := hostStep_effect hstep
  · obtain ⟨-, -, heq⟩ | ⟨-, -, heq⟩ | ⟨-, heq⟩ | hstore := s.writeTarget_cases tg v
    · rw [heq]
      exact scoresBounded_congr rfl rfl (scoresBounded_softReset s)
    · rw [heq]
      exact scoresBounded_congr rfl rfl h
    · rw [heq]
      exact scoresBounded_congr rfl rfl h
    · exact scoresBounded_congr hstore.score hstore.pen h
  · exact scoresBounded_congr rfl rfl h

/-- Settles O60: SCORE and MASK_SELECT write bounded penalties, a reset zeros, and nothing else writes the
registers. -/
theorem stepKeepsScoresBelowTwentyBits : Obligations.StepKeepsScoresBelowTwentyBits := by
  intro s t h hstep
  obtain ⟨c, left, -, -, hc⟩ | ⟨c, left, op, rest, -, -, hh⟩ | ⟨op, rest, -, -, hh⟩ | ⟨-, -, rfl⟩ :=
    step_cases hstep
  · exact completeCommand_scoresBounded h hc
  · exact hostStep_scoresBounded (scoresBounded_congr (s := s) (t := { s with eng := .run c left }) rfl rfl h) hh
  · exact hostStep_scoresBounded h hh
  · exact h

end Sys2Proof.Machine
end

section
/-! PROOFS. The placement walk (R157): its column pairs in order, each cell by its place in the walk, and that it
visits each cell outside column 6 once, since it has as many cells as there are. -/

namespace Sys2Proof.Machine

open Sys2Proof

/-! ### Lists of pieces of one length -/

section
variable {α : Type} {f : Nat → List α} {len count : Nat}

theorem length_flatMap_range (h : ∀ j < count, (f j).length = len) :
    ((List.range count).flatMap f).length = len * count := by
  have hmap : (List.range count).map (fun j => (f j).length) = (List.range count).map fun _ => len :=
    List.map_congr_left fun j hj => h j (List.mem_range.mp hj)
  simp [List.length_flatMap, hmap, Nat.mul_comm]

/-- Element `i` of piece `k`, when the pieces are all `len` long. -/
theorem getElem?_flatMap_range {k i : Nat} (h : ∀ j < count, (f j).length = len) (hk : k < count)
    (hi : i < len) : ((List.range count).flatMap f)[len * k + i]? = (f k)[i]? := by
  induction count with
  | zero => omega
  | succ count ih =>
    have hlen : ((List.range count).flatMap f).length = len * count :=
      length_flatMap_range fun j hj => h j (by omega)
    rw [List.range_succ, List.flatMap_append]
    obtain hlt | rfl := Nat.lt_succ_iff_lt_or_eq.mp hk
    · have hbound : len * k + i < len * count := by
        have := Nat.mul_le_mul_left len (show k + 1 ≤ count from hlt)
        rw [Nat.mul_succ] at this
        omega
      rw [List.getElem?_append_left (hlen ▸ hbound)]
      exact ih (fun j hj => h j (by omega)) hlt
    · rw [List.getElem?_append_right (by omega), hlen, Nat.add_sub_cancel_left]
      simp

end

/-! ### The column pairs -/

/-- The right column of the `k`-th column pair of a symbol whose last column is `last` (R157). -/
def pairRight (last k : Nat) : Nat := if 6 < last - 2 * k then last - 2 * k else last - 1 - 2 * k

/-- From an even column at least 6 on, one pair of columns for every two columns (R157). -/
theorem pairColumns_eq {j : Nat} (hj : 3 ≤ j) :
    ∀ fuel, j ≤ fuel → pairColumns fuel (2 * j) = (List.range j).map (pairRight (2 * j)) := by
  induction j, hj using Nat.le_induction with
  | base =>
    intro fuel hfuel
    obtain ⟨f, rfl⟩ := Nat.exists_eq_add_of_le' hfuel
    cases f <;> rfl
  | succ j hj ih =>
    intro fuel hfuel
    obtain ⟨f, rfl⟩ := Nat.exists_eq_add_of_le' (show 1 ≤ fuel by omega)
    have hnext (k : Nat) : pairRight (2 * (j + 1)) (k + 1) = pairRight (2 * j) k := by
      unfold pairRight
      split <;> split <;> omega
    have hfirst : pairRight (2 * (j + 1)) 0 = 2 * (j + 1) := if_pos (by omega)
    rw [pairColumns, if_neg (by omega), if_neg (by omega)]
    dsimp only
    rw [show 2 * (j + 1) - 2 = 2 * j by omega, ih f (by omega), List.range_succ_eq_map, List.map_cons, hfirst, List.map_map]
    simp only [Function.comp_def, hnext, Nat.succ_eq_add_one]

/-! ### The cells of a pair -/

theorem length_pairCells (n right : Nat) : (pairCells n right).length = 2 * n := by
  rw [pairCells, length_flatMap_range (len := 2) fun _ _ => rfl]

/-- The `r`-th row of a pair, from where the pair begins (R157). -/
def pairRow (n right r : Nat) : Nat := if upward right then n - 1 - r else r

theorem getElem?_pairCells {n r : Nat} (right : Nat) (hr : r < n) :
    (pairCells n right)[2 * r]? = some (right, pairRow n right r) ∧
    (pairCells n right)[2 * r + 1]? = some (right - 1, pairRow n right r) := by
  have hpiece {i : Nat} (hi : i < 2) := getElem?_flatMap_range (k := r) (i := i) (count := n) (len := 2)
    (f := fun vert => let y := if upward right then n - 1 - vert else vert; [(right, y), (right - 1, y)])
    (fun _ _ => rfl) hr hi
  exact ⟨hpiece (i := 0) (by decide), hpiece (i := 1) (by decide)⟩

theorem mem_pairCells {n right x y : Nat} : (x, y) ∈ pairCells n right ↔ y < n ∧ (x = right ∨ x = right - 1) := by
  simp only [pairCells, List.mem_flatMap, List.mem_range, List.mem_cons, Prod.mk.injEq, List.not_mem_nil,
    or_false]
  constructor
  · rintro ⟨vert, hvert, h⟩
    split at h <;> omega
  · rintro ⟨hy, hx⟩
    refine ⟨if upward right then n - 1 - y else y, by split <;> omega, ?_⟩
    split <;> omega

theorem upward_iff (right : Nat) : upward right = true ↔ (right + 1) / 2 % 2 = 0 := by
  have hbit : (right + 1) &&& 2 = ((right + 1).testBit 1).toNat * 2 := Nat.and_two_pow (right + 1) 1
  rw [upward, hbit, Nat.testBit_eq_decide_div_mod_eq]
  simp

/-! ### The walk of a symbol -/

/-- The walk of a symbol, pair by pair (R157). -/
theorem walk_eq {n : Nat} (hodd : n % 2 = 1) (hn : 7 ≤ n) :
    walk n = (List.range ((n - 1) / 2)).flatMap fun k => pairCells n (pairRight (n - 1) k) := by
  have hlast : 2 * ((n - 1) / 2) = n - 1 := by omega
  have hcolumns := pairColumns_eq (j := (n - 1) / 2) (by omega) n (by omega)
  rw [hlast] at hcolumns
  rw [walk, hcolumns, List.flatMap_map]

theorem length_walk {n : Nat} (hodd : n % 2 = 1) (hn : 7 ≤ n) : (walk n).length = n * (n - 1) := by
  rw [walk_eq hodd hn, length_flatMap_range fun k _ => length_pairCells n _, Nat.mul_comm 2 n, Nat.mul_assoc]
  congr 1
  omega

theorem mem_walk {n : Nat} (hodd : n % 2 = 1) (hn : 7 ≤ n) {x y : Nat} :
    (x, y) ∈ walk n ↔ x < n ∧ y < n ∧ x ≠ 6 := by
  simp only [walk_eq hodd hn, List.mem_flatMap, List.mem_range, mem_pairCells, pairRight]
  constructor
  · rintro ⟨k, hk, hy, hx⟩
    split at hx <;> omega
  · rintro ⟨hx, hy, h6⟩
    by_cases hright : 6 < x
    · refine ⟨(n - 1 - x) / 2, by omega, hy, ?_⟩
      rw [if_pos (by omega)]
      omega
    · refine ⟨(n - 2 - x) / 2, by omega, hy, ?_⟩
      rw [if_neg (by omega)]
      omega

/-- As many cells as the walk is long, so none twice. -/
theorem nodup_walk {n : Nat} (hodd : n % 2 = 1) (hn : 7 ≤ n) : (walk n).Nodup := by
  have hcells : (walk n).toFinset = ((Finset.range n).erase 6) ×ˢ Finset.range n := by
    ext ⟨x, y⟩
    simp only [List.mem_toFinset, mem_walk hodd hn, Finset.mem_product, Finset.mem_erase, Finset.mem_range]
    tauto
  have hcard : (walk n).toFinset.card = (walk n).length := by
    rw [hcells, Finset.card_product, Finset.card_erase_of_mem (Finset.mem_range.mpr hn), Finset.card_range,
      length_walk hodd hn, Nat.mul_comm]
  exact Multiset.toFinset_card_eq_card_iff_nodup.mp hcard

/-- Settles O27: the order by the pieces of the walk, one for each column pair, and of a pair, one for each row. -/
theorem walkVisitsEachCellOnce : Obligations.WalkVisitsEachCellOnce := by
  intro v hv hv' n right row
  have hodd : n % 2 = 1 := by omega
  have hn : 7 ≤ n := by omega
  refine ⟨length_walk hodd hn, fun k r hk hr => ?_, nodup_walk hodd hn, fun x y => mem_walk hodd hn⟩
  have hright : pairRight (n - 1) k = right k := rfl
  have hrow : pairRow n (right k) r = row k r := by
    have hup : upward (right k) = true ↔ k % 2 = 0 := by
      rw [upward_iff]
      simp only [right]
      split <;> omega
    simp only [pairRow, row, hup]
  have hpair {i : Nat} (hi : i < 2 * n) : (walk n)[2 * n * k + i]? = (pairCells n (right k))[i]? := by
    rw [walk_eq hodd hn]
    exact getElem?_flatMap_range (fun j _ => length_pairCells n _) hk hi
  obtain ⟨hfirst, hsecond⟩ := getElem?_pairCells (right k) hr
  rw [hrow] at hfirst hsecond
  exact ⟨(hpair (by omega)).trans hfirst, (hpair (i := 2 * r + 1) (by omega)).trans hsecond⟩

end Sys2Proof.Machine
end

section
/-! PROOFS. PLACE (R156, R159): its loop writes the non-function cells of the walk, the slots, one after another;
no slot comes twice, so each holds its own bit. What does not fit fails (R102, R103, R156). -/

namespace Sys2Proof.Machine

open Sys2Proof

/-! ### The slots -/

theorem side_odd (s : State) : side s % 2 = 1 := by
  rw [side]
  omega

theorem mem_slots {n : Nat} (hodd : n % 2 = 1) (hn : 7 ≤ n) {func : Plane .func} {x y : Nat} :
    (x, y) ∈ slots n func ↔ (x < n ∧ y < n ∧ x ≠ 6) ∧ func.cell x y = false := by
  simp [slots, List.mem_filter, mem_walk hodd hn]

theorem nodup_slots {n : Nat} (hodd : n % 2 = 1) (hn : 7 ≤ n) (func : Plane .func) : (slots n func).Nodup :=
  (nodup_walk hodd hn).filter _

/-- A count over the cells of a rectangle, row by row, is the number of its cells that pass. -/
theorem sum_countP_eq_card (m n : Nat) (f : Nat → Nat → Bool) :
    ((List.range n).map fun y => (List.range m).countP fun x => f x y).sum =
      ((Finset.range m ×ˢ Finset.range n).filter fun c => f c.1 c.2 = true).card := by
  have hrow (y : Nat) : (List.range m).countP (fun x => f x y) =
      ((Finset.range m).filter fun x => f x y = true).card := by
    rw [List.countP_eq_length_filter]
    simp [Finset.card, Finset.filter, Finset.range, Multiset.range]
  rw [Finset.card_filter, Finset.sum_product_right]
  simp only [← Finset.card_filter, ← hrow]
  rfl

/-- PLACE's count of the cells outside column 6 is the number of slots (R156). -/
theorem availCells_eq {n : Nat} (hodd : n % 2 = 1) (hn : 7 ≤ n) (func : Plane .func) :
    availCells n func = (slots n func).length := by
  have hslots : (slots n func).toFinset = (Finset.range n ×ˢ Finset.range n).filter fun c =>
      (decide (c.1 ≠ 6) && !func.cell c.1 c.2) = true := by
    ext ⟨x, y⟩
    simp [mem_slots hodd hn, and_assoc]
  rw [availCells, sum_countP_eq_card n n fun x y => decide (x ≠ 6) && !func.cell x y, ← hslots,
    List.toFinset_card_of_nodup (nodup_slots hodd hn func)]

/-! ### The loop -/

/-- The writes of PLACE's loop over the slots `cs` from stream bit `i` on: bits of the stream, 0 past its `n` bits. -/
def placeWrites (cw : Memory .cw 8) (n i : Nat) (cs : List (Nat × Nat)) : List ((Nat × Nat) × Bool) :=
  (cs.zipIdx i).map fun c => (c.1, decide (c.2 < n) && streamBit cw c.2)

/-- Past the end of the stream the position does not matter. -/
theorem placeWrites_of_le {cw : Memory .cw 8} {n i j : Nat} (hi : n ≤ i) (hj : n ≤ j) (cs : List (Nat × Nat)) :
    placeWrites cw n i cs = placeWrites cw n j cs := by
  induction cs generalizing i j with
  | nil => rfl
  | cons c cs ih =>
    have htail := ih (i := i + 1) (j := j + 1) (by omega) (by omega)
    simp only [placeWrites] at htail
    simp [placeWrites, htail, Nat.not_lt.mpr hi, Nat.not_lt.mpr hj]

/-- PLACE's loop skips the function cells and writes the others in order (R156). -/
theorem placeFrom_eq_writeCells (cw : Memory .cw 8) (func : Plane .func) (n i : Nat) (p : Plane .mod)
    (cells : List (Nat × Nat)) :
    placeFrom cw func n i p cells =
      writeCells (placeWrites cw n i (cells.filter fun c => !func.cell c.1 c.2)) p := by
  induction cells generalizing i p with
  | nil => rfl
  | cons c cells ih =>
    obtain ⟨x, y⟩ := c
    by_cases hf : func.cell x y = true
    · rw [placeFrom, if_pos hf, ih, List.filter_cons_of_neg (by simp [hf])]
    · rw [placeFrom, if_neg hf, List.filter_cons_of_pos (by simp [hf])]
      by_cases hi : i < n
      · rw [if_pos hi, ih]
        simp [placeWrites, writeCells, hi]
      · rw [if_neg hi, ih, placeWrites_of_le (Nat.not_lt.mp hi) (j := i + 1) (by omega)]
        simp [placeWrites, writeCells, hi]

@[simp] theorem map_fst_placeWrites (cw : Memory .cw 8) (n i : Nat) (cs : List (Nat × Nat)) :
    (placeWrites cw n i cs).map Prod.fst = cs := by
  simp [placeWrites, Function.comp_def]

/-! ### Cells after writes of distinct cells -/

/-- A cell written once holds what was written. -/
theorem cell_writeCells_of_mem {id : MemId} {ws : List ((Nat × Nat) × Bool)} {x y : Nat} {b : Bool}
    (hx : ∀ c ∈ ws, c.1.1 < 177) (hnodup : (ws.map Prod.fst).Nodup) (h : ((x, y), b) ∈ ws) (p : Plane id) :
    (writeCells ws p).cell x y = b := by
  induction ws generalizing p with
  | nil => cases h
  | cons c ws ih =>
    rw [List.map_cons, List.nodup_cons] at hnodup
    obtain ⟨hcx, hwsx⟩ := List.forall_mem_cons.mp hx
    obtain rfl | hmem := List.mem_cons.mp h
    · refine (cell_writeCells_of_notMem hwsx hnodup.1 _).trans ?_
      rw [Memory.cell_setCell _ _ _ _ _ _ hcx, if_pos ⟨rfl, rfl⟩]
    · exact ih hwsx hnodup.2 hmem _

/-! ### PLACE at a legal version -/

section
variable {s : State} (hs : VersionLegal s)
include hs

theorem lt_177_of_mem_placeWrites {cw : Memory .cw 8} {n i : Nat} :
    ∀ c ∈ placeWrites cw n i (slots (side s) s.func), c.1.1 < 177 := by
  obtain ⟨hlo, hhi⟩ := side_bounds hs
  rintro ⟨⟨x, y⟩, b⟩ hc
  have hslot : (x, y) ∈ slots (side s) s.func := by
    rw [← map_fst_placeWrites cw n i (slots (side s) s.func)]
    exact List.mem_map_of_mem hc
  obtain ⟨⟨hx, -⟩, -⟩ := (mem_slots (side_odd s) (by omega)).mp hslot
  exact hx.trans_le hhi

/-- What PLACE leaves in MOD when the stream fits (R156). -/
theorem exec_place (hfit : 8 * s.geom.tot ≤ (slots (side s) s.func).length) :
    exec .place s = .next { completed s with
      mod := writeCells (placeWrites s.cw (8 * s.geom.tot) 0 (slots (side s) s.func)) s.mod } := by
  have hlo := (side_bounds hs).1
  have hbody : bodyOf .place s = .ok { s with
      mod := writeCells (placeWrites s.cw (8 * s.geom.tot) 0 (slots (side s) s.func)) s.mod } := by
    rw [bodyOf, bodyPlace, State.withGeometry_of_legal hs, State.geom_size,
      availCells_eq (side_odd s) (by omega)]
    dsimp only
    rw [if_neg (Nat.not_lt.mpr hfit), placeFrom_eq_writeCells]
    rfl
  exact exec_eq_next hbody

theorem cell_place_of_getElem? {k x y : Nat} (h : (slots (side s) s.func)[k]? = some (x, y)) (p : Plane .mod) :
    (writeCells (placeWrites s.cw (8 * s.geom.tot) 0 (slots (side s) s.func)) p).cell x y =
      (decide (k < 8 * s.geom.tot) && streamBit s.cw k) := by
  have hlo := (side_bounds hs).1
  refine cell_writeCells_of_mem (lt_177_of_mem_placeWrites hs) ?_ ?_ p
  · rw [map_fst_placeWrites]
    exact nodup_slots (side_odd s) (by omega) _
  · refine List.mem_map.mpr ⟨((x, y), k), ?_, rfl⟩
    exact List.mem_zipIdx_iff_getElem?.mpr h

theorem cell_place_of_notMem {x y : Nat} (h : (x, y) ∉ slots (side s) s.func) (p : Plane .mod) :
    (writeCells (placeWrites s.cw (8 * s.geom.tot) 0 (slots (side s) s.func)) p).cell x y = p.cell x y :=
  cell_writeCells_of_notMem (lt_177_of_mem_placeWrites hs) (by rwa [map_fst_placeWrites]) p

end

/-- Settles O28: the slots are written once each, in the order of the walk, with the bits of the stream. -/
theorem placeWritesTheStreamAlongTheWalk : Obligations.PlaceWritesTheStreamAlongTheWalk :=
  fun s hs hfit => ⟨_, exec_place hs hfit, fun _ _ _ h => cell_place_of_getElem? hs h s.mod,
    fun _ _ h => cell_place_of_notMem hs h s.mod⟩

/-- Settles O29: PLACE writes the same list of cells from either state and again, and the cells it writes do not
depend on what they held. -/
theorem placeIgnoresOldModules : Obligations.PlaceIgnoresOldModules := by
  intro s p hs hfit
  refine ⟨_, _, _, exec_place hs hfit, exec_place (s := { s with mod := p }) hs hfit,
    exec_place (s := { completed s with mod := _ }) hs hfit, fun x y h => ?_, fun x y => ?_⟩
  · obtain ⟨k, hk⟩ := List.mem_iff_getElem?.mp h
    exact (cell_place_of_getElem? hs hk p).trans (cell_place_of_getElem? hs hk s.mod).symm
  · by_cases h : (x, y) ∈ slots (side s) s.func
    · obtain ⟨k, hk⟩ := List.mem_iff_getElem?.mp h
      exact (cell_place_of_getElem? hs hk _).trans (cell_place_of_getElem? hs hk s.mod).symm
    · exact cell_place_of_notMem hs h _

/-! ### What does not fit -/

/-- Settles O12: each body reaches its capacity check, which fails. -/
theorem whatDoesNotFitFails : Obligations.WhatDoesNotFitFails := by
  intro s
  refine ⟨fun n hn hover => ?append, fun hs hover => ?finalize, fun hs hover => ?place⟩
  case append =>
    refine exec_eq_next_failed (e := .segTooLong (s.bitlen.toNat + n) 32768) ?_
    have hcount : legalCount n = true := decide_eq_true hn
    rw [bodyOf, bodyBpAppend, hcount]
    exact if_pos hover
  case finalize =>
    refine exec_eq_next_failed (e := .dataOverCapacity s.bitlen.toNat (8 * s.geom.dcw)) ?_
    rw [bodyOf, bodyBpFinalize, State.withGeometry_of_legal hs]
    exact if_pos hover
  case place =>
    have hlo := (side_bounds hs).1
    refine exec_eq_next_failed
      (e := .placeOverflow (8 * s.geom.tot) (slots (side s) s.func).length) ?_
    rw [bodyOf, bodyPlace, State.withGeometry_of_legal hs, State.geom_size,
      availCells_eq (side_odd s) (by omega)]
    exact if_pos hover

end Sys2Proof.Machine
end

section
/-! PROOFS. The machine's invariant (R29, R30, R39, R210; assumption 1): every command's body writes inside its
memories, and completions, host transfers and resets keep the rest. -/

namespace Sys2Proof.Machine

open Sys2Proof

/-! ### Planes stay canonical -/

theorem wf_writeCells {id : MemId} {ws : List ((Nat × Nat) × Bool)} (hy : ∀ c ∈ ws, c.1.2 < 177)
    {p : Plane id} (h : p.wf 177 = true) : (writeCells ws p).wf 177 = true := by
  induction ws generalizing p with
  | nil => exact h
  | cons c ws ih =>
    obtain ⟨hcy, hwsy⟩ := List.forall_mem_cons.mp hy
    exact ih hwsy (Memory.wf_write _ _ hcy h)

theorem wf_writeRowWord {id : MemId} {p : Plane id} (y w : Nat) (v : Word) (h : p.wf 177 = true) :
    (p.writeRowWord y w v).wf 177 = true := by
  unfold Memory.writeRowWord
  split
  next hy => exact Memory.wf_write _ _ hy h
  next => exact h

theorem wf_placeFrom {n : Nat} (hodd : n % 2 = 1) (hlo : 7 ≤ n) (hhi : n ≤ 177) (cw : Memory .cw 8)
    (func : Plane .func) (bits : Nat) {p : Plane .mod} (h : p.wf 177 = true) :
    (placeFrom cw func bits 0 p (walk n)).wf 177 = true := by
  rw [placeFrom_eq_writeCells]
  refine wf_writeCells (fun c hc => ?_) h
  have hslot : c.1 ∈ slots n func := by
    rw [← map_fst_placeWrites cw bits 0 (slots n func)]
    exact List.mem_map_of_mem hc
  exact ((mem_slots hodd hlo).mp hslot).1.2.1.trans_le hhi

theorem wf_maskPlane {n : Nat} (hhi : n ≤ 177) (m : Nat) (func : Plane .func) {p : Plane .mod}
    (h : p.wf 177 = true) : (maskPlane n m func p).wf 177 = true := by
  rw [maskPlane]
  exact Memory.wf_mapSquare n _ hhi h

section
variable {n : Nat} (hlo : 21 ≤ n) (hhi : n ≤ 177)
include hlo hhi

theorem wf_formatPlane (e m : Nat) {p : Plane .mod} (h : p.wf 177 = true) :
    (formatPlane n e m p).wf 177 = true := by
  rw [formatPlane_eq_writeCells]
  refine wf_writeCells ?_ h
  rintro ⟨⟨x, y⟩, b⟩ hc
  have hcell := (mem_map_fst_formatWrites hlo e m).mp (List.mem_map_of_mem hc)
  simp only [IsFormatCell] at hcell ⊢
  omega

theorem wf_candidatePlane (e m : Nat) (func : Plane .func) {p : Plane .mod} (h : p.wf 177 = true) :
    (candidatePlane n e m func p).wf 177 = true := by
  rw [candidatePlane]
  exact wf_formatPlane hlo hhi e m (wf_maskPlane hhi m func h)

theorem wf_evalCandidates (params : Params) (e : Nat) (func : Plane .func) (ms : List Nat) {p : Plane .mod}
    (h : p.wf 177 = true) : (evalCandidates params n e func p ms).1.wf 177 = true := by
  induction ms generalizing p with
  | nil => exact h
  | cons m ms ih =>
    rw [evalCandidates_cons]
    exact ih (wf_maskPlane hhi m func (wf_candidatePlane hlo hhi e m func h))

end

/-! ### A command's body -/

/-- The bits BP_FINALIZE pushes end at the capacity, inside the buffer (R103). -/
theorem State.bitlen_finalize {s : State} (hp : s.params.wf = true) (hs : VersionLegal s)
    (hfit : s.bitlen.toNat ≤ 8 * s.geom.dcw) :
    s.bitlen.toNat + (finalizeBits s.bitlen.toNat (8 * s.geom.dcw)).length = 8 * s.geom.dcw ∧
      8 * s.geom.dcw ≤ 32768 := by
  obtain ⟨-, -, -, -, htot, hdcw, -⟩ := State.geom_fits hp hs
  rw [length_finalizeBits _ _ hfit]
  omega

/-- Pushing inside the buffer keeps DATA canonical and BITLEN at most 32768 (R29, R100). -/
theorem State.pushAll_keeps {s : State} {bs : List Bool} (h : s.data.wf 4096 = true)
    (hfit : s.bitlen.toNat + bs.length ≤ 32768) :
    (s.pushAll bs).data.wf 4096 = true ∧ (s.pushAll bs).bitlen.toNat ≤ 32768 := by
  refine ⟨wf_pushBits bs s.data _ hfit h, ?_⟩
  rw [State.pushAll, BitVec.toNat_ofNat]
  exact (Nat.mod_le _ _).trans hfit

/-- A command's body keeps the memories canonical and BITLEN within the buffer. -/
theorem bodyOf_keeps {i : Instr} {s u : State} (h : Inv s) (hb : bodyOf i s = .ok u) :
    MemoriesWf u ∧ u.bitlen.toNat ≤ Config.maxBits := by
  obtain ⟨hparams, ⟨hdata, hcw, hmod, hfunc⟩, -, hbitlen, -⟩ := h
  cases i with
  | nop | gfMul | gfExp =>
    obtain rfl := Except.ok.inj hb
    exact ⟨⟨hdata, hcw, hmod, hfunc⟩, hbitlen⟩
  | rsGenpoly =>
    obtain ⟨-, hb⟩ := ite_error_eq_ok.mp hb
    obtain rfl := Except.ok.inj hb
    exact ⟨⟨hdata, hcw, hmod, hfunc⟩, hbitlen⟩
  | rsEncode | rsSyndrome =>
    obtain ⟨-, hb⟩ := ite_error_eq_ok.mp hb
    obtain ⟨-, hb⟩ := ite_error_eq_ok.mp hb
    obtain rfl := Except.ok.inj hb
    exact ⟨⟨hdata, hcw, hmod, hfunc⟩, hbitlen⟩
  | bpClear =>
    obtain rfl := Except.ok.inj hb
    exact ⟨⟨Memory.wf_fill _ _ _, hcw, hmod, hfunc⟩, Nat.zero_le _⟩
  | gridClear =>
    obtain rfl := Except.ok.inj hb
    exact ⟨⟨hdata, hcw, Memory.wf_fill _ _ _, Memory.wf_fill _ _ _⟩, hbitlen⟩
  | bpAppend n =>
    obtain ⟨-, hb⟩ := ite_error_eq_ok.mp hb
    obtain ⟨hfit, hb⟩ := ite_error_eq_ok.mp hb
    obtain rfl := Except.ok.inj hb
    obtain ⟨hdata', hbitlen'⟩ := State.pushAll_keeps (bs := s.appendBits n) hdata
      (by rw [length_appendBits]; exact Nat.not_lt.mp hfit)
    exact ⟨⟨hdata', hcw, hmod, hfunc⟩, hbitlen'⟩
  | bpFinalize =>
    simp only [bodyOf, bodyBpFinalize, State.withGeometry_eq_ok] at hb
    obtain ⟨hs, hb⟩ := hb
    obtain ⟨hfit, hb⟩ := ite_error_eq_ok.mp hb
    obtain rfl := Except.ok.inj hb
    obtain ⟨hlen, hcap⟩ := State.bitlen_finalize hparams hs (Nat.not_lt.mp hfit)
    obtain ⟨hdata', hbitlen'⟩ := State.pushAll_keeps hdata (hlen.trans_le hcap)
    exact ⟨⟨hdata', hcw, hmod, hfunc⟩, hbitlen'⟩
  | interleave =>
    simp only [bodyOf, bodyInterleave, State.withGeometry_eq_ok] at hb
    obtain ⟨hs, hb⟩ := hb
    obtain rfl := Except.ok.inj hb
    have htot := (State.geom_fits hparams hs).tot
    refine ⟨⟨hdata, Memory.wf_writeBlock 0 _ ?_ hcw, hmod, hfunc⟩, hbitlen⟩
    rw [Nat.zero_add]
    exact (List.length_take_le _ _).trans htot
  | place =>
    simp only [bodyOf, bodyPlace, State.withGeometry_eq_ok] at hb
    obtain ⟨hs, hb⟩ := hb
    obtain ⟨-, hb⟩ := ite_error_eq_ok.mp hb
    obtain rfl := Except.ok.inj hb
    obtain ⟨hlo, hhi⟩ := side_bounds hs
    exact ⟨⟨hdata, hcw, wf_placeFrom (side_odd s) (by omega) hhi _ _ _ hmod, hfunc⟩, hbitlen⟩
  | maskApply m =>
    simp only [bodyOf, bodyMaskApply, State.withGeometry_eq_ok] at hb
    obtain ⟨hs, hb⟩ := hb
    obtain rfl := Except.ok.inj hb
    exact ⟨⟨hdata, hcw, wf_maskPlane (side_bounds hs).2 _ _ hmod, hfunc⟩, hbitlen⟩
  | formatWrite m =>
    simp only [bodyOf, bodyFormatWrite, State.withGeometry_eq_ok] at hb
    obtain ⟨hs, hb⟩ := hb
    obtain rfl := Except.ok.inj hb
    obtain ⟨hlo, hhi⟩ := side_bounds hs
    exact ⟨⟨hdata, hcw, wf_formatPlane hlo hhi _ _ hmod, hfunc⟩, hbitlen⟩
  | score =>
    simp only [bodyOf, bodyScore, State.withGeometry_eq_ok] at hb
    obtain ⟨-, hb⟩ := hb
    obtain rfl := Except.ok.inj hb
    exact ⟨⟨hdata, hcw, hmod, hfunc⟩, hbitlen⟩
  | maskSelect =>
    simp only [bodyOf, bodyMaskSelect, State.withGeometry_eq_ok] at hb
    obtain ⟨hs, hb⟩ := hb
    obtain rfl := Except.ok.inj hb
    obtain ⟨hlo, hhi⟩ := side_bounds hs
    exact ⟨⟨hdata, hcw, wf_candidatePlane hlo hhi _ _ _ (wf_evalCandidates hlo hhi _ _ _ _ hmod), hfunc⟩,
      hbitlen⟩

/-! ### Completions -/

theorem completeCommand_inv {c : Word} {s t : State} (h : Inv s) (hc : completeCommand c s = .next t) :
    Inv t := by
  have hparams := (completeCommand_params hc).symm ▸ h.params
  have hfail (e : Raise) (ht : t = (s.fail e).complete) : Inv t := by
    subst ht
    refine ⟨h.params, h.memories, trivial, h.bitlen, ?_⟩
    have hcode := e.code_le
    simp only [State.complete_fields, State.fail_fields, BitVec.toNat_ofNat]
    exact (Nat.mod_le _ _).trans hcode
  obtain ⟨i, u, -, hb, rfl⟩ | ⟨i, e, -, -, ht⟩ | ⟨r, -, ht⟩ := completeCommand_cases hc
  · obtain ⟨hmem, hbitlen⟩ := bodyOf_keeps h hb
    refine ⟨hparams, hmem, trivial, hbitlen, ?_⟩
    simp only [State.complete_fields, (bodyOf_sameControl hb).status]
    exact h.errcode
  · exact hfail e ht
  · exact hfail _ ht

/-! ### Host transfers -/

theorem memoriesWf_softReset {s : State} (h : MemoriesWf s) : MemoriesWf s.softReset := by
  have hkeep {id : MemId} {w size : Nat} {m : Memory id w} (hm : m.wf size = true) (lost : List MemId) :
      (m.afterAbort lost).wf size = true := by
    obtain ⟨-, heq⟩ | ⟨-, heq⟩ := m.afterAbort_cases lost
    · rw [heq, Memory.wf_lose]
    · rw [heq, hm]
  obtain ⟨hdata, hcw, hmod, hfunc⟩ := h
  exact ⟨hkeep hdata _, hkeep hcw _, hkeep hmod _, hkeep hfunc _⟩

theorem memoriesWf_unlessBusy {s u : State} (hs : MemoriesWf s) (hu : MemoriesWf u) :
    MemoriesWf (s.unlessBusy u) := by
  unfold State.unlessBusy
  split
  · exact hs
  · exact hu

theorem memoriesWf_writeTarget {s : State} (h : MemoriesWf s) {tg : Target} (htg : tg.InMap) (v : Word) :
    MemoriesWf (s.writeTarget tg v) := by
  obtain ⟨hdata, hcw, hmod, hfunc⟩ := h
  have hblock {id : MemId} {m : Memory id 8} (hm : m.wf 4096 = true) {k : Nat} (hk : k < 1024) :
      (m.writeBlock (4 * k) (bytesOfWord v)).wf 4096 = true :=
    Memory.wf_writeBlock _ _ (by simp only [bytesOfWord, List.length_cons, List.length_nil]; omega) hm
  cases tg with
  | ctrl =>
    rw [State.writeTarget_ctrl]
    split
    · exact memoriesWf_softReset ⟨hdata, hcw, hmod, hfunc⟩
    · exact ⟨hdata, hcw, hmod, hfunc⟩
  | config | cmd | arg0 | arg1 =>
    exact memoriesWf_unlessBusy ⟨hdata, hcw, hmod, hfunc⟩ ⟨hdata, hcw, hmod, hfunc⟩
  | data k => exact memoriesWf_unlessBusy ⟨hdata, hcw, hmod, hfunc⟩ ⟨hblock hdata htg, hcw, hmod, hfunc⟩
  | cw k => exact memoriesWf_unlessBusy ⟨hdata, hcw, hmod, hfunc⟩ ⟨hdata, hblock hcw htg, hmod, hfunc⟩
  | mod y w =>
    exact memoriesWf_unlessBusy ⟨hdata, hcw, hmod, hfunc⟩ ⟨hdata, hcw, wf_writeRowWord y w v hmod, hfunc⟩
  | func y w =>
    exact memoriesWf_unlessBusy ⟨hdata, hcw, hmod, hfunc⟩ ⟨hdata, hcw, hmod, wf_writeRowWord y w v hfunc⟩
  | _ => exact ⟨hdata, hcw, hmod, hfunc⟩

theorem writeTarget_inv {s : State} (h : Inv s) {tg : Target} (htg : tg.InMap) (v : Word) :
    Inv (s.writeTarget tg v) := by
  have hparams := (s.writeTarget_params tg v).symm ▸ h.params
  have hmem := memoriesWf_writeTarget h.memories htg v
  obtain ⟨-, -, heq⟩ | ⟨-, -, heq⟩ | ⟨-, heq⟩ | hstore := s.writeTarget_cases tg v
  · rw [heq] at hparams hmem ⊢
    exact ⟨hparams, hmem, trivial, Nat.zero_le _, Nat.zero_le _⟩
  · rw [heq] at hparams hmem ⊢
    exact ⟨hparams, hmem, ⟨rfl, (Config.latency_bounds s.draws).2⟩, h.bitlen, h.errcode⟩
  · rw [heq] at hparams hmem ⊢
    exact ⟨hparams, hmem, h.engine, h.bitlen, h.errcode⟩
  · refine ⟨hparams, hmem, ?_, hstore.bitlen.symm ▸ h.bitlen, hstore.errcode.symm ▸ h.errcode⟩
    rw [EngineOk, hstore.eng, hstore.cmd]
    exact h.engine

theorem hostStep_inv {op : HostOp} {rest : List HostOp} {s t : State} (h : Inv s)
    (hstep : hostStep op rest s = .next t) : Inv t := by
  obtain ⟨addr, val, strobes, v, tg, -, -, htg, rfl⟩ | ⟨draws, host, readData, rfl⟩ := hostStep_effect hstep
  · obtain ⟨hparams, hmem, heng, hbitlen, hcode⟩ := writeTarget_inv h (target_eq_some_iff.mp htg).1 v
    exact ⟨hparams, hmem, heng, hbitlen, hcode⟩
  · exact ⟨h.params, h.memories, h.engine, h.bitlen, h.errcode⟩

/-- Settles O58: completions and host transfers keep the invariant, and so does a transfer fewer to wait. -/
theorem stepKeepsTheInvariant : Obligations.StepKeepsTheInvariant := by
  intro s t h hstep
  obtain ⟨c, left, -, -, hc⟩ | ⟨c, left, op, rest, he, -, hh⟩ | ⟨op, rest, -, -, hh⟩ | ⟨-, -, rfl⟩ :=
    step_cases hstep
  · exact completeCommand_inv h hc
  · have heng : s.cmd = c ∧ left + 1 ≤ Config.pLatency := by
      have := h.engine
      rwa [EngineOk, he] at this
    refine hostStep_inv (s := { s with eng := .run c left }) ?_ hh
    exact ⟨h.params, h.memories, ⟨heng.1, by omega⟩, h.bitlen, h.errcode⟩
  · exact hostStep_inv h hh
  · exact h

/-- Settles O59: the default table is well formed, the memories list nothing, and the registers are 0. -/
theorem resetHasTheInvariant : Obligations.ResetHasTheInvariant :=
  ⟨defaultTableCapacities.1, ⟨rfl, rfl, rfl, rfl⟩, trivial, Nat.zero_le _, Nat.zero_le _⟩

end Sys2Proof.Machine
end

section
/-! PROOFS. MASK_APPLY, FORMAT_WRITE, SCORE and MASK_SELECT at a legal version (R171 to R195): the cells they leave
and the values they write. -/

namespace Sys2Proof.Machine

open Sys2Proof

/-! ### MASK_APPLY -/

/-- The eight mask formulas, as R171 writes them. -/
def MaskFormula (m x y : Nat) : Prop :=
  (m = 0 ∧ (y + x) % 2 = 0) ∨ (m = 1 ∧ y % 2 = 0) ∨ (m = 2 ∧ x % 3 = 0) ∨ (m = 3 ∧ (x + y) % 3 = 0) ∨
  (m = 4 ∧ (y / 2 + x / 3) % 2 = 0) ∨ (m = 5 ∧ x * y % 2 + x * y % 3 = 0) ∨
  (m = 6 ∧ (x * y % 2 + x * y % 3) % 2 = 0) ∨ (m = 7 ∧ ((x + y) % 2 + x * y % 3) % 2 = 0)

theorem maskPred_iff {m : Nat} (hm : m < 8) (x y : Nat) : maskPred m x y = true ↔ MaskFormula m x y := by
  match m, hm with
  | 0, _ => simp [maskPred, MaskFormula, Nat.add_comm]
  | 1, _ | 2, _ | 3, _ | 4, _ | 5, _ | 6, _ | 7, _ => simp [maskPred, MaskFormula]

/-- The mask is undone by applying it again (R176). -/
theorem cell_maskPlane_maskPlane {n : Nat} (hn : n ≤ 177) (m : Nat) (func : Plane .func) (p : Plane .mod)
    (x y : Nat) : (maskPlane n m func (maskPlane n m func p)).cell x y = p.cell x y := by
  rw [cell_maskPlane hn, cell_maskPlane hn, Bool.xor_assoc, Bool.xor_self, Bool.xor_false]

/-- Settles O31: the mask is XORed into the cells where its formula holds, and XOR twice is nothing. -/
theorem maskApplyInvertsTheMaskedCells : Obligations.MaskApplyInvertsTheMaskedCells := by
  unfold Obligations.MaskApplyInvertsTheMaskedCells
  intro masked s m hm hs
  have hmask (x y : Nat) : maskPred m x y = true ↔ masked m x y := maskPred_iff hm x y
  obtain ⟨-, hhi⟩ := side_bounds hs
  refine ⟨_, _, exec_maskApply hs hm, fun x y hx hy hf hmk => ?_, fun x y hno => ?_,
    exec_maskApply (s := { completed s with mod := _ }) hs hm,
    cell_maskPlane_maskPlane hhi m s.func s.mod⟩
  · rw [cell_maskPlane hhi, (hmask x y).mpr hmk, hf]
    simp [hx, hy]
  · have hkept : (decide (x < side s ∧ y < side s) && !s.func.cell x y && maskPred m x y) = false := by
      rw [← Bool.not_eq_true, Bool.and_eq_true, Bool.and_eq_true, hmask, Bool.not_eq_true',
        decide_eq_true_eq, and_assoc, and_assoc]
      exact hno
    rw [cell_maskPlane hhi, hkept, Bool.xor_false]

/-! ### The format word -/

/-- The format words are those of R179's table. -/
theorem formatBits_eq : ∀ e < 4, ∀ m < 8, formatBits e m = (formatTable.getD e []).getD m 0 := by
  decide +kernel

/-- The cells FORMAT_WRITE writes are distinct (R180, R181). -/
theorem nodup_formatWrites {n : Nat} (hn : 21 ≤ n) (e m : Nat) :
    ((formatWrites n e m).map Prod.fst).Nodup := by
  have hcells : (formatWrites n e m).map Prod.fst =
      (List.range 15).map formatCell1 ++ ((List.range 15).map (formatCell2 n) ++ [(8, n - 8)]) := by
    simp [formatWrites, Function.comp_def]
  have hfirst : ((List.range 15).map formatCell1).Nodup := by decide
  have hsecond : ((List.range 15).map (formatCell2 n)).Nodup := by
    refine List.nodup_range.map_on fun i hi j hj h => ?_
    rw [List.mem_range] at hi hj
    simp only [formatCell2, Prod.ext_iff] at h
    split at h <;> split at h <;> omega
  have hdark : (8, n - 8) ∉ (List.range 15).map (formatCell2 n) := by
    intro hmem
    obtain ⟨i, hi, h⟩ := List.mem_map.mp hmem
    simp only [formatCell2, Prod.ext_iff] at h
    split at h <;> omega
  rw [hcells, List.nodup_append, List.nodup_append]
  refine ⟨hfirst, ⟨hsecond, List.nodup_singleton _, fun a ha b hb => ?_⟩, ?_⟩
  · obtain rfl := List.mem_singleton.mp hb
    exact fun heq => hdark (heq ▸ ha)
  · rintro ⟨x, y⟩ hc _ hc' rfl
    have h := exists_formatCell1_eq_iff.mp (by simpa using hc)
    have h' := (exists_formatCell2_eq_or_dark_iff hn).mp (by simpa using hc')
    omega

section
variable {n : Nat} (hlo : 21 ≤ n) (hhi : n ≤ 177)
include hlo hhi

/-- Each cell FORMAT_WRITE writes holds its bit of the format word, and the dark module 1 (R180 to R182). -/
theorem cell_formatPlane_of_mem {e m x y : Nat} {b : Bool} (h : ((x, y), b) ∈ formatWrites n e m)
    (p : Plane .mod) : (formatPlane n e m p).cell x y = b := by
  rw [formatPlane_eq_writeCells]
  exact cell_writeCells_of_mem (lt_177_of_mem_formatWrites hlo hhi) (nodup_formatWrites hlo e m) h p

theorem cell_formatPlane_copies (e m : Nat) (p : Plane .mod) {i : Nat} (hi : i < 15) :
    (formatPlane n e m p).cell (formatCell1 i).1 (formatCell1 i).2 = (formatBits e m).testBit i ∧
    (formatPlane n e m p).cell (formatCell2 n i).1 (formatCell2 n i).2 = (formatBits e m).testBit i := by
  have hmem := List.mem_range.mpr hi
  exact ⟨cell_formatPlane_of_mem hlo hhi
      (List.mem_append_left _ (List.mem_append_left _ (List.mem_map_of_mem hmem))) p,
    cell_formatPlane_of_mem hlo hhi
      (List.mem_append_left _ (List.mem_append_right _ (List.mem_map_of_mem hmem))) p⟩

end

/-- Settles O32: the format cells are written once each, with the bits of the word, and the dark module with 1. -/
theorem formatWriteDrawsBothCopies : Obligations.FormatWriteDrawsBothCopies := by
  intro s m hm hs
  obtain ⟨hlo, hhi⟩ := side_bounds hs
  have hcopies {i : Nat} (hi : i < 15) := cell_formatPlane_copies hlo hhi s.ecl m s.mod hi
  refine ⟨_, formatBits s.ecl m, exec_formatWrite hs hm, formatBits_eq s.ecl s.config.ecl.isLt m hm,
    fun i hi => ?_, (hcopies (i := 6) (by decide)).1, (hcopies (i := 7) (by decide)).1,
    (hcopies (i := 8) (by decide)).1, fun i h9 h14 => ?_, fun i hi => ?_, fun i h8 h14 => ?_, ?_,
    fun x y h => cell_formatPlane_of_not_isFormatCell hlo hhi _ _ _ h⟩
  · have h := (hcopies (i := i) (by omega)).1
    rwa [formatCell1, if_pos hi] at h
  · have h := (hcopies (i := i) (by omega)).1
    rwa [formatCell1, if_neg (by omega), if_neg (by omega), if_neg (by omega), if_neg (by omega)] at h
  · have h := (hcopies (i := i) (by omega)).2
    rwa [formatCell2, if_pos hi] at h
  · have h := (hcopies (i := i) (by omega)).2
    rwa [formatCell2, if_neg (by omega)] at h
  · exact cell_formatPlane_of_mem hlo hhi (by simp [formatWrites]) s.mod

end Sys2Proof.Machine
end

section
/-! PROOFS. Numbers as polynomials over GF(2), and the format word as a BCH codeword (R178, R179, R183): each step
of the division multiplies by X and subtracts the generator where a bit leaves the register. -/

namespace Sys2Proof.Machine

open Sys2Proof Polynomial

/-! ### Bits as coefficients -/

/-- The polynomial over GF(2) whose coefficient of `X^i` is bit `i` of a number, for its low `w` bits. -/
noncomputable def bitPoly (w n : Nat) : (ZMod 2)[X] :=
  ∑ i ∈ Finset.range w, if n.testBit i then X ^ i else 0

theorem bitPoly_succ (w n : Nat) : bitPoly (w + 1) n = bitPoly w n + if n.testBit w then X ^ w else 0 :=
  Finset.sum_range_succ _ w

@[simp] theorem bitPoly_zero_right (w : Nat) : bitPoly w 0 = 0 := by
  simp [bitPoly]

theorem bitPoly_xor (w a b : Nat) : bitPoly w (a ^^^ b) = bitPoly w a + bitPoly w b := by
  rw [bitPoly, bitPoly, bitPoly, ← Finset.sum_add_distrib]
  refine Finset.sum_congr rfl fun i _ => ?_
  rw [Nat.testBit_xor]
  cases a.testBit i <;> cases b.testBit i <;> simp [CharTwo.add_self_eq_zero]

theorem bitPoly_of_lt {w v n : Nat} (hn : n < 2 ^ w) (h : w ≤ v) : bitPoly v n = bitPoly w n := by
  induction v, h using Nat.le_induction with
  | base => rfl
  | succ v hv ih =>
    rw [bitPoly_succ, Nat.testBit_eq_false_of_lt (hn.trans_le (Nat.pow_le_pow_right (by decide) hv)), ih]
    simp

theorem bitPoly_shiftLeft (w n k : Nat) : bitPoly (w + k) (n <<< k) = X ^ k * bitPoly w n := by
  rw [Nat.add_comm, bitPoly, Finset.sum_range_add, bitPoly, Finset.mul_sum]
  have hlow : ∑ i ∈ Finset.range k, (if (n <<< k).testBit i then X ^ i else 0 : (ZMod 2)[X]) = 0 := by
    refine Finset.sum_eq_zero fun i hi => ?_
    rw [Finset.mem_range] at hi
    simp [Nat.testBit_shiftLeft, Nat.not_le.mpr hi]
  rw [hlow, zero_add]
  refine Finset.sum_congr rfl fun i _ => ?_
  rw [Nat.testBit_shiftLeft, Nat.add_sub_cancel_left]
  simp [pow_add]

/-! ### The BCH division -/

/-- The generator of the format code, 0x537 (R179). -/
noncomputable def bchGenerator : (ZMod 2)[X] := X ^ 10 + X ^ 8 + X ^ 5 + X ^ 4 + X ^ 2 + X + 1

theorem bitPoly_0x537 : bitPoly 11 0x537 = bchGenerator := by
  rw [bitPoly, bchGenerator]
  simp [Finset.sum_range_succ, Nat.testBit]
  ring

/-- One step on the register: X times it, less the generator if its top bit leaves it. -/
theorem bitPoly_bchStep {r : Nat} (hr : r < 2 ^ 10) :
    (r <<< 1) ^^^ ((r >>> 9) % 2 * 0x537) < 2 ^ 10 ∧
    ∃ q : (ZMod 2)[X], X * bitPoly 10 r = q * bchGenerator + bitPoly 10 ((r <<< 1) ^^^ ((r >>> 9) % 2 * 0x537)) := by
  obtain ⟨c, hc⟩ : ∃ c, c = r.testBit 9 := ⟨_, rfl⟩
  have hbit : (r >>> 9) % 2 = c.toNat := by
    rw [hc, Nat.toNat_testBit, Nat.shiftRight_eq_div_pow]
  rw [hbit]
  have hshift : (r <<< 1) < 2 ^ 11 := by
    rw [Nat.shiftLeft_eq]
    omega
  have htop : ((r <<< 1) ^^^ (c.toNat * 0x537)).testBit 10 = false := by
    rw [Nat.testBit_xor, Nat.testBit_shiftLeft, hc]
    cases r.testBit 9 <;> simp
    decide
  have hlt : (r <<< 1) ^^^ (c.toNat * 0x537) < 2 ^ 10 := by
    have hxor := Nat.xor_lt_two_pow hshift (show c.toNat * 0x537 < 2 ^ 11 by cases c <;> decide)
    rw [Nat.testBit_eq_decide_div_mod_eq, decide_eq_false_iff_not] at htop
    omega
  refine ⟨hlt, if c then 1 else 0, ?_⟩
  rw [← bitPoly_of_lt hlt (show 10 ≤ 11 by decide), bitPoly_xor, bitPoly_shiftLeft 10 r 1]
  cases c
  · simp
  · rw [Bool.toNat_true, Nat.one_mul, bitPoly_0x537, if_pos rfl, one_mul, pow_one, add_left_comm,
      CharTwo.add_self_eq_zero, add_zero]

/-- The register after `k` steps is X^k times its start modulo the generator. -/
theorem bitPoly_bchSteps {r : Nat} (hr : r < 2 ^ 10) (k : Nat) : bchSteps k r < 2 ^ 10 ∧
    ∃ q : (ZMod 2)[X], X ^ k * bitPoly 10 r = q * bchGenerator + bitPoly 10 (bchSteps k r) := by
  induction k generalizing r with
  | zero => exact ⟨hr, 0, by simp [bchSteps]⟩
  | succ k ih =>
    obtain ⟨hlt, q, hq⟩ := bitPoly_bchStep hr
    obtain ⟨hlt', q', hq'⟩ := ih hlt
    refine ⟨hlt', X ^ k * q + q', ?_⟩
    calc X ^ (k + 1) * bitPoly 10 r
      _ = X ^ k * (X * bitPoly 10 r) := by ring
      _ = X ^ k * q * bchGenerator + X ^ k * bitPoly 10 _ := by rw [hq, mul_add, mul_assoc]
      _ = _ := by rw [hq', bchSteps]; ring

/-- The format word without its mask: the data above the remainder (R179). -/
def formatCodeword (e m : Nat) : Nat := (formatData e m <<< 10) ||| bchSteps 10 (formatData e m)

theorem formatBits_xor (e m : Nat) : formatBits e m ^^^ 0x5412 = formatCodeword e m := by
  rw [formatBits, formatCodeword, Nat.xor_assoc, Nat.xor_self, Nat.xor_zero]

theorem formatData_lt : ∀ e < 4, ∀ m < 8, formatData e m < 2 ^ 5 := by decide

/-- The format word without its mask is a multiple of the generator (R179, R183). -/
theorem bchGenerator_dvd_formatCodeword {e m : Nat} (he : e < 4) (hm : m < 8) :
    ∃ q, bitPoly 15 (formatCodeword e m) = q * bchGenerator := by
  have hdata := formatData_lt e he m hm
  obtain ⟨hlt, q, hq⟩ := bitPoly_bchSteps (show formatData e m < 2 ^ 10 by omega) 10
  have hor : formatCodeword e m = (formatData e m <<< 10) ^^^ bchSteps 10 (formatData e m) := by
    refine Nat.eq_of_testBit_eq fun i => ?_
    rw [formatCodeword, Nat.testBit_or, Nat.testBit_xor, Nat.testBit_shiftLeft]
    by_cases hi : 10 ≤ i
    · simp [Nat.testBit_eq_false_of_lt (hlt.trans_le (Nat.pow_le_pow_right (by decide) hi))]
    · simp [hi]
  refine ⟨q, ?_⟩
  rw [hor, bitPoly_xor, bitPoly_shiftLeft 5 _ 10, ← bitPoly_of_lt hdata (show 5 ≤ 10 by decide), hq,
    bitPoly_of_lt hlt (show 10 ≤ 15 by decide), add_assoc, CharTwo.add_self_eq_zero, add_zero]

/-- Settles O33: the range, the top bits and their uniqueness over the 32 words, the multiple by the division. -/
theorem formatWordDecodesBack : Obligations.FormatWordDecodesBack := by
  have hrange : ∀ e < 4, ∀ m < 8, formatBits e m < 2 ^ 15 := by decide +kernel
  have htop : ∀ e < 4, ∀ m < 8, (formatBits e m ^^^ 0x5412) / 2 ^ 10 = [1, 0, 3, 2].getD e 0 * 8 + m := by
    decide +kernel
  have hecl : ∀ e < 4, ∀ e' < 4, [1, 0, 3, 2].getD e 0 = [1, 0, 3, 2].getD e' 0 → e = e' := by decide
  unfold Obligations.FormatWordDecodesBack
  intro poly e m e' m' he hm he' hm'
  refine ⟨hrange e he m hm, htop e he m hm, ?_, fun h => ?_⟩
  · rw [formatBits_xor]
    exact bchGenerator_dvd_formatCodeword he hm
  · rw [htop e he m hm, htop e' he' m' hm'] at h
    exact ⟨hecl e he e' he' (by omega), by omega⟩

end Sys2Proof.Machine
end

section
/-! PROOFS. SCORE and MASK_SELECT (R187 to R195): the registers without wrap, and the choice among the candidates. -/

namespace Sys2Proof.Machine

open Sys2Proof

/-! ### SCORE -/

/-- The registers of a bounded penalty show its terms (R34). -/
theorem toNat_regs {t : Penalty} (h : t.Below) :
    t.regs.total.toNat = t.total ∧ t.regs.n1.toNat = t.n1 ∧ t.regs.n2.toNat = t.n2 ∧ t.regs.n3.toNat = t.n3 ∧
    t.regs.n4.toNat = t.n4 ∧ t.regs.dark.toNat = t.dark := by
  obtain ⟨htotal, hdark⟩ := h
  unfold Penalty.total at htotal
  exact ⟨toNat_word_of_lt (by unfold Penalty.total; omega), toNat_word_of_lt (by omega),
    toNat_word_of_lt (by omega), toNat_word_of_lt (by omega), toNat_word_of_lt (by omega),
    toNat_word_of_lt (by omega)⟩

theorem uniformBlock_iff (g : Nat → Nat → Bool) (x y : Nat) : uniformBlock g x y = true ↔
    g x y = g (x + 1) y ∧ g x y = g x (y + 1) ∧ g x y = g (x + 1) (y + 1) := by
  simp [uniformBlock, and_assoc]

/-- Settles O36: the registers are those of the symbol's penalty, whose counts are counts of cells. -/
theorem scoreWritesThePenalty : Obligations.ScoreWritesThePenalty := by
  intro s hs
  obtain ⟨htotal, h1, h2, h3, h4, hdark⟩ := toNat_regs (t := planePenalty s.params (side s) s.mod)
    (below_penalty s.params (side_bounds hs).2 s.mod.cell)
  have hcells : darkCells (side s) s.mod.cell = _ := sum_countP_eq_card (side s) (side s) s.mod.cell
  have hblocks := sum_countP_eq_card (side s - 1) (side s - 1) (uniformBlock s.mod.cell)
  simp only [uniformBlock_iff] at hblocks
  have hn4 : (planePenalty s.params (side s) s.mod).n4 =
      penaltyN4 s.params.n4Rounding (darkCells (side s) s.mod.cell) (side s * side s) := rfl
  refine ⟨_, exec_score hs, ⟨h1, h2.trans (congrArg (3 * ·) hblocks), h3, fun hr => ?_, fun hr => ?_,
    hdark.trans hcells⟩, ?_⟩
  · rw [h4, hn4, hr, hcells]
    rfl
  · rw [h4, hn4, hr, hcells]
    rfl
  · rw [htotal, h1, h2, h3, h4, Penalty.total]

/-! ### MASK_SELECT -/

/-- Among equals the choice is the earliest (R195). -/
theorem bestOf_fst_le {cs : List (Nat × Nat)} (hsorted : cs.Pairwise fun c d => c.1 < d.1) {c : Nat × Nat}
    (hc : c ∈ cs) (heq : c.2 = (bestOf cs).2) : (bestOf cs).1 ≤ c.1 := by
  induction cs with
  | nil => cases hc
  | cons d rest ih =>
    obtain ⟨hfirst, hrest⟩ := List.pairwise_cons.mp hsorted
    cases rest with
    | nil => exact (List.mem_singleton.mp hc) ▸ Nat.le_refl _
    | cons e rest =>
      rw [bestOf_cons_cons] at heq ⊢
      split at heq
      next hle =>
        rw [if_pos hle]
        obtain rfl | hc := List.mem_cons.mp hc
        · exact Nat.le_refl _
        · exact (hfirst c hc).le
      next hlt =>
        rw [if_neg hlt]
        obtain rfl | hc := List.mem_cons.mp hc
        · omega
        · exact ih hrest hc heq

theorem State.mem_candidates_iff (s : State) (m : Nat) : m ∈ s.candidates ↔
    m ∈ (if s.config.force then [s.fmask] else [0, 1, 2, 3, 4, 5, 6, 7]) := by
  rw [State.candidates, show List.range 8 = [0, 1, 2, 3, 4, 5, 6, 7] from rfl]

theorem State.pairwise_candidates (s : State) : s.candidates.Pairwise (· < ·) := by
  unfold State.candidates
  split
  · exact List.pairwise_singleton _ _
  · exact List.pairwise_lt_range

theorem State.candidates_ne_nil (s : State) : s.candidates ≠ [] := by
  unfold State.candidates
  split <;> simp

/-- Among candidates of the least total the chosen mask is the least (R195). -/
theorem State.chosenMask_le (s : State) {m : Nat} (hm : m ∈ s.candidates)
    (heq : s.totalOf m = s.totalOf s.chosenMask) : s.chosenMask ≤ m := by
  have hne : (s.candidates.map fun m => (m, s.totalOf m)) ≠ [] := mt List.map_eq_nil_iff.mp s.candidates_ne_nil
  obtain ⟨best, -, hbest⟩ := List.mem_map.mp (bestOf_mem hne)
  have hchosen : s.chosenMask = best := congrArg Prod.fst hbest.symm
  refine bestOf_fst_le (cs := s.candidates.map fun m => (m, s.totalOf m)) (c := (m, s.totalOf m)) ?_
    (List.mem_map_of_mem (f := fun m => (m, s.totalOf m)) hm) ?_
  · exact List.pairwise_map.mpr s.pairwise_candidates
  · rw [← hbest, heq, hchosen]

/-- PENm is the total of candidate `m`, and 0 of the others (R195). -/
theorem penOf_candidates (s : State) (m : Nat) : penOf (s.candidates.map fun m => (m, s.totalOf m)) m =
    if m ∈ s.candidates then word (s.totalOf m) else 0#32 := by
  split
  next hm => exact penOf_map s.totalOf hm
  next hm =>
    have hnone : (s.candidates.map fun m => (m, s.totalOf m)).find? (fun c => c.1 == m) = none := by
      rw [List.find?_eq_none]
      rintro c hc heq
      obtain ⟨k, hk, rfl⟩ := List.mem_map.mp hc
      exact hm (beq_iff_eq.mp heq ▸ hk)
    rw [penOf, hnone]

/-- PEN_VALID shows the candidates (R33, R195). -/
theorem penValid_candidates (s : State) :
    BitVec.ofNat 8 (natOfBits ((List.range 8).map fun m => s.candidates.contains m)) =
      if s.config.force then BitVec.ofNat 8 (2 ^ s.fmask) else 0xFF#8 := by
  have hforced : ∀ f < 8, BitVec.ofNat 8 (natOfBits ((List.range 8).map fun m => [f].contains m)) =
      BitVec.ofNat 8 (2 ^ f) := by decide
  unfold State.candidates
  split
  · exact hforced s.fmask s.config.fmask.isLt
  · decide

/-- Settles O37: the totals, the choice and its grid are those of the candidates drawn on the starting grid. -/
theorem maskSelectKeepsTheLeastPenalty : Obligations.MaskSelectKeepsTheLeastPenalty := by
  intro s hs cands grid pen
  obtain ⟨hlo, hhi⟩ := side_bounds hs
  obtain ⟨p, hp, hexec⟩ := exists_exec_maskSelect hs
  obtain ⟨hmem, hleast⟩ := s.chosenMask_spec s.candidates_ne_nil
  have hcands (m : Nat) : m ∈ s.candidates ↔ m ∈ cands := s.mem_candidates_iff m
  refine ⟨s.chosenMask, candidatePlane (side s) s.ecl s.chosenMask s.func p, ?_, (hcands _).mp hmem,
    fun m hm => hleast m ((hcands m).mpr hm), fun m hm heq => s.chosenMask_le ((hcands m).mpr hm) heq,
    fun x y => congrFun₂ (cell_candidatePlane_congr hlo hhi s.ecl s.chosenMask s.func hp) x y⟩
  rw [hexec]
  have hbest : Best.of s.chosenMask s.candidates = ⟨BitVec.ofNat 3 s.chosenMask, true,
      if s.config.force then BitVec.ofNat 8 (2 ^ s.fmask) else 0xFF#8⟩ := by
    rw [Best.of, penValid_candidates]
  have hpen : (Vector.ofFn fun m : Fin 8 => penOf (s.candidates.map fun m => (m, s.totalOf m)) m.val) =
      Vector.ofFn fun m : Fin 8 => if m.val ∈ cands then BitVec.ofNat 32 (pen m.val) else 0#32 := by
    congr 1
    funext m
    rw [penOf_candidates]
    simp only [hcands]
    rfl
  rw [hbest, hpen]
  rfl

end Sys2Proof.Machine
end

section
/-! PROOFS. BP_APPEND and BP_FINALIZE (R102 to R104): the pushed bits one by one, and the pad bytes from them. -/

namespace Sys2Proof.Machine

open Sys2Proof

/-! ### BP_APPEND -/

theorem getD_appendBits (s : State) {n k : Nat} (hk : k < n) :
    (s.appendBits n).getD k false = s.arg0.getLsbD (n - 1 - k) := by
  simp [State.appendBits, List.getD, hk]

/-- Settles O15: the bits are pushed at BITLEN, and the buffer elsewhere is as it was. -/
theorem appendAddsLowBitsMsbFirst : Obligations.AppendAddsLowBitsMsbFirst := by
  intro s n hn hfit
  have hbody : bodyOf (.bpAppend n) s = .ok (s.pushAll (s.appendBits n)) := by
    rw [bodyOf, bodyBpAppend, legalCount, decide_eq_true hn]
    exact if_neg (Nat.not_lt.mpr hfit)
  refine ⟨pushBits s.data s.bitlen.toNat (s.appendBits n), ?_, fun k hk => ?_, fun p hp => ?_⟩
  · rw [exec_eq_next hbody, State.pushAll, length_appendBits]
    rfl
  · rw [bufferBit_pushBits, length_appendBits, if_pos (by omega), Nat.add_sub_cancel_left, getD_appendBits s hk]
  · rw [bufferBit_pushBits, length_appendBits, if_neg (by omega)]

/-! ### The bits BP_FINALIZE pushes -/

theorem getD_byteBits (b : Byte) {i : Nat} (hi : i < 8) : (byteBits b).getD i false = b.getLsbD (7 - i) := by
  simp [byteBits, List.getD, hi]

/-- The first byte of the pad (R103): the buffer's end after the terminator, rounded up. -/
def padStart (len cap : Nat) : Nat := (len + min 4 (cap - len) + 7) / 8

/-- BP_FINALIZE pushes 0 bits up to the first pad byte, then the pad bytes up to the capacity (R103). -/
theorem finalizeBits_eq {len dcw : Nat} (h : len ≤ 8 * dcw) :
    finalizeBits len (8 * dcw) = List.replicate (8 * padStart len (8 * dcw) - len) false ++
      (List.range (dcw - padStart len (8 * dcw))).flatMap fun k => byteBits (padByte k) := by
  simp only [finalizeBits, padStart, List.replicate_append_replicate]
  congr 2
  · omega
  · congr 1
    omega

section
variable {len dcw : Nat} (h : len ≤ 8 * dcw) (d : Memory .data 8)
include h

theorem padStart_bounds : len ≤ 8 * padStart len (8 * dcw) ∧ padStart len (8 * dcw) ≤ dcw := by
  unfold padStart
  omega

theorem bufferBit_finalize (p : Nat) : bufferBit (pushBits d len (finalizeBits len (8 * dcw))) p =
    if len ≤ p ∧ p < 8 * dcw then (finalizeBits len (8 * dcw)).getD (p - len) false else bufferBit d p := by
  rw [bufferBit_pushBits, length_finalizeBits _ _ h, Nat.add_sub_cancel' h]

/-- The terminator and the bits to the byte boundary are 0 (R103). -/
theorem bufferBit_finalize_zero {p : Nat} (hp : len ≤ p) (hp' : p < 8 * padStart len (8 * dcw)) :
    bufferBit (pushBits d len (finalizeBits len (8 * dcw))) p = false := by
  obtain ⟨-, hstart⟩ := padStart_bounds h
  rw [bufferBit_finalize h, if_pos (by omega), finalizeBits_eq h,
    List.getD_append _ _ _ _ (by rw [List.length_replicate]; omega)]
  simp [List.getD]

/-- From the byte boundary to the capacity stand the pad bytes (R103). -/
theorem read_finalize_pad {j : Nat} (hj : padStart len (8 * dcw) ≤ j) (hj' : j < dcw) :
    (pushBits d len (finalizeBits len (8 * dcw))).read j = padByte (j - padStart len (8 * dcw)) := by
  obtain ⟨hstart, -⟩ := padStart_bounds h
  refine read_eq_of_bufferBits _ _ _ fun i hi => ?_
  rw [bufferBit_finalize h, if_pos (by omega), finalizeBits_eq h,
    List.getD_append_right _ _ _ _ (by rw [List.length_replicate]; omega), List.length_replicate,
    show 8 * j + i - len - (8 * padStart len (8 * dcw) - len) = 8 * (j - padStart len (8 * dcw)) + i by omega,
    List.getD_eq_getElem?_getD, getElem?_flatMap_range (fun _ _ => length_byteBits _) (by omega) hi,
    ← List.getD_eq_getElem?_getD, getD_byteBits _ hi]

/-- Past the capacity DATA is kept (R103). -/
theorem read_finalize_of_le {j : Nat} (hj : dcw ≤ j) :
    (pushBits d len (finalizeBits len (8 * dcw))).read j = d.read j := by
  refine read_eq_of_bufferBits _ _ _ fun i hi => ?_
  rw [bufferBit_finalize h, if_neg (by omega), bufferBit, show (8 * j + i) / 8 = j by omega,
    show (8 * j + i) % 8 = i by omega]

end

/-- Settles O16: the pushed bits end at the capacity: zeros up to the first pad byte, then the pad bytes. -/
theorem finalizePadsToTheCapacity : Obligations.FinalizePadsToTheCapacity := by
  intro s hp hs hfit
  obtain ⟨hlen, hcap⟩ := State.bitlen_finalize hp hs hfit
  have hbody : bodyOf .bpFinalize s =
      .ok (s.pushAll (finalizeBits s.bitlen.toNat (8 * s.geom.dcw))) := by
    rw [bodyOf, bodyBpFinalize, State.withGeometry_of_legal hs]
    exact if_neg (Nat.not_lt.mpr hfit)
  refine ⟨pushBits s.data s.bitlen.toNat (finalizeBits s.bitlen.toNat (8 * s.geom.dcw)), ?_, hcap,
    fun p hlt => ?_, ⟨fun p hle hlt => bufferBit_finalize_zero hfit s.data hle hlt,
      fun j hle hlt => read_finalize_pad hfit s.data hle hlt⟩,
    fun j hj => read_finalize_of_le hfit s.data hj⟩
  · rw [exec_eq_next hbody, State.pushAll, hlen]
    rfl
  · rw [bufferBit_finalize hfit, if_neg (by omega)]

end Sys2Proof.Machine
end

section
/-! PROOFS. The field's product as a product of polynomials (R121, R124): the shift by x multiplies by X and
subtracts the modulus where bit 7 leaves the byte. -/

namespace Sys2Proof.Machine

open Sys2Proof Polynomial

/-- The polynomial of a byte over GF(2) (R120). -/
noncomputable def bytePoly (b : Byte) : (ZMod 2)[X] := bitPoly 8 b.toNat

/-- The modulus of the field, 0x11D (R120). -/
noncomputable def gfModulus : (ZMod 2)[X] := X ^ 8 + X ^ 4 + X ^ 3 + X ^ 2 + 1

theorem bytePoly_xor (a b : Byte) : bytePoly (a ^^^ b) = bytePoly a + bytePoly b := by
  rw [bytePoly, BitVec.toNat_xor, bitPoly_xor, bytePoly, bytePoly]

@[simp] theorem bytePoly_zero : bytePoly 0#8 = 0 := by
  simp [bytePoly]

theorem bitPoly_mod (w n : Nat) : bitPoly w (n % 2 ^ w) = bitPoly w n := by
  refine Finset.sum_congr rfl fun i hi => ?_
  rw [Nat.testBit_mod_two_pow, decide_eq_true (Finset.mem_range.mp hi), Bool.true_and]

theorem bytePoly_0x1D : X ^ 8 + bytePoly 0x1D#8 = gfModulus := by
  rw [bytePoly, bitPoly, gfModulus]
  simp [Finset.sum_range_succ, Nat.testBit]
  ring

/-- The shift by x multiplies by X modulo the field's polynomial (R121). -/
theorem X_mul_bytePoly (z : Byte) : ∃ q, X * bytePoly z = q * gfModulus + bytePoly (gfTimesX z) := by
  have hshift : X * bytePoly z = bytePoly (z <<< 1) + if z.getLsbD 7 then X ^ 8 else 0 := by
    have h := bitPoly_shiftLeft 8 z.toNat 1
    rw [pow_one, bitPoly_succ, ← bitPoly_mod] at h
    rw [bytePoly, bytePoly, ← h, BitVec.toNat_shiftLeft, Nat.testBit_shiftLeft]
    rfl
  rw [hshift, gfTimesX, bytePoly_xor]
  cases z.getLsbD 7
  · exact ⟨0, by simp⟩
  · refine ⟨1, ?_⟩
    rw [if_pos rfl, if_pos rfl, one_mul, ← bytePoly_0x1D]
    linear_combination -CharTwo.add_self_eq_zero (bytePoly 0x1D#8)

/-- The multiplier over the low `i` bits of `b`: X^i times its accumulator and `a` times those bits (R121). -/
theorem bytePoly_gfMulFrom (a b : Byte) (i : Nat) (z : Byte) : ∃ q,
    X ^ i * bytePoly z + bytePoly a * bitPoly i b.toNat = q * gfModulus + bytePoly (gfMulFrom a b i z) := by
  induction i generalizing z with
  | zero => exact ⟨0, by simp [gfMulFrom, bitPoly]⟩
  | succ i ih =>
    obtain ⟨q, hq⟩ := X_mul_bytePoly z
    obtain ⟨q', hq'⟩ := ih (gfTimesX z ^^^ if b.getLsbD i then a else 0#8)
    have hselect : bytePoly (if b.getLsbD i then a else 0#8) = if b.getLsbD i then bytePoly a else 0 := by
      split <;> simp
    refine ⟨X ^ i * q + q', ?_⟩
    rw [gfMulFrom, add_mul, add_assoc, ← hq', bytePoly_xor, hselect, bitPoly_succ]
    calc X ^ (i + 1) * bytePoly z + bytePoly a * (bitPoly i b.toNat + if b.toNat.testBit i then X ^ i else 0)
      _ = X ^ i * (X * bytePoly z) + bytePoly a * (bitPoly i b.toNat + if b.toNat.testBit i then X ^ i else 0) := by
        ring
      _ = _ := by
        rw [hq, show b.toNat.testBit i = b.getLsbD i from rfl]
        split <;> ring

theorem bytePoly_gfMul (a b : Byte) : ∃ q, bytePoly a * bytePoly b = q * gfModulus + bytePoly (gfMul a b) := by
  obtain ⟨q, hq⟩ := bytePoly_gfMulFrom a b 8 0#8
  rw [bytePoly_zero, mul_zero, zero_add] at hq
  exact ⟨q, hq⟩

/-- Settles O17: RESULT is the multiplier's product of the two low bytes. -/
theorem gfMulIsReducedPolynomialProduct : Obligations.GfMulIsReducedPolynomialProduct := by
  unfold Obligations.GfMulIsReducedPolynomialProduct
  intro poly modulus s
  have hlow (v : Word) : v.extractLsb' 0 8 = v.setWidth 8 := by
    apply BitVec.eq_of_toNat_eq
    simp
  rw [hlow, hlow]
  exact ⟨_, exec_eq_next (i := .gfMul) rfl, bytePoly_gfMul s.arg0Byte s.arg1Byte⟩

/-! ### GF_EXP -/

theorem foldl_gfMul_two (k : Nat) : (List.replicate k 2#8).foldl gfMul 1#8 = gfPow k := by
  induction k with
  | zero => rfl
  | succ k ih => rw [List.replicate_succ', List.foldl_append, ih]; rfl

/-- Settles O19: the powers of α by their recurrence, and its order. -/
theorem gfExpIsAPowerOfAlpha : Obligations.GfExpIsAPowerOfAlpha := by
  refine ⟨fun s => ⟨gfPow s.arg0Byte.toNat, exec_eq_next (i := .gfExp) rfl, ?_, gfPow_ne_zero _⟩, gfPow_255,
    fun k hk hk' h => ?_, fun k => (gfPow_mod k).symm⟩
  · rw [foldl_gfMul_two, State.arg0Byte, BitVec.toNat_setWidth]
  · have : k = 0 := gfPow_injOn (Set.mem_Iio.mpr hk') (Set.mem_Iio.mpr (by decide)) h
    omega

end Sys2Proof.Machine
end

section
/-! PROOFS. The commands RS_GENPOLY, RS_ENCODE and RS_SYNDROME (R126 to R131): what their byte files hold. -/

namespace Sys2Proof.Machine

open Sys2Proof

@[simp] theorem getElem_byteFile (bs : List Byte) (k : Nat) (h : k < 32) : (byteFile bs)[k] = bs.getD k 0#8 :=
  Vector.getElem_ofFn h

theorem byteFile_of_length_le {bs : List Byte} {k : Nat} (hk : k < 32) (h : bs.length ≤ k) :
    (byteFile bs)[k] = 0#8 := by
  rw [getElem_byteFile, List.getD_eq_default _ _ h]

theorem take_toList_byteFile {bs : List Byte} (h : bs.length ≤ 32) :
    (byteFile bs).toList.take bs.length = bs := by
  apply List.ext_getElem (by simp [h])
  intro k _ hk
  rw [List.getElem_take, Vector.getElem_toList, getElem_byteFile, List.getD_eq_getElem _ _ hk]

theorem legalDegree_of_le {d : Nat} (h : 1 ≤ d) (h' : d ≤ 30) : legalDegree d = true := by
  rw [← Bool.not_eq_false, legalDegree_eq_false_iff]
  omega

theorem State.dataRange_eq_map (s : State) :
    s.dataRange = (List.range s.arg1.toNat).map fun i => s.data.read (s.arg0.toNat + i) := by
  rw [dataRange, Memory.readBlock, List.range'_eq_map_range, List.map_map]
  rfl

/-! ### Sums of powers -/

theorem foldl_gfAdd_eq_xor (acc : Byte) (l : List Byte) : l.foldl gfAdd acc = acc ^^^ l.foldl gfAdd 0#8 := by
  induction l generalizing acc with
  | nil => simp
  | cons x l ih =>
    rw [List.foldl_cons, ih, List.foldl_cons, ih (gfAdd 0#8 x), gfAdd_eq_xor, gfAdd_eq_xor, BitVec.zero_xor,
      BitVec.xor_assoc]

/-- The first coefficient is that of the highest power (R130). -/
theorem polyValue_cons (x : Byte) (c : List Byte) (j : Nat) :
    polyValue (x :: c) j = gfMul x (gfPow (j * c.length)) ^^^ polyValue c j := by
  rw [polyValue, List.length_cons, List.range_succ_eq_map, List.map_cons, List.foldl_cons, foldl_gfAdd_eq_xor,
    List.map_map, polyValue]
  simp [Function.comp_def, Nat.sub_sub, Nat.add_comm]

/-- Horner's rule computes the value of the polynomial (R130). -/
theorem syndrome_eq_polyValue (c : List Byte) (j : Nat) : syndrome c j = polyValue c j := by
  rw [syndrome, horner_eq_hornerFrom]
  induction c with
  | nil => rfl
  | cons x c ih =>
    rw [hornerFrom_cons, gfMul_zero_left, hornerFrom_gfPow_xor, ih, polyValue_cons, BitVec.xor_comm]

/-! ### The commands -/

theorem exec_rsGenpoly {s : State} {deg : Nat} (h : 1 ≤ deg) (h' : deg ≤ 30) :
    exec (.rsGenpoly deg) s = .next { completed s with gen := byteFile (genpoly deg) } := by
  have hbody : bodyOf (.rsGenpoly deg) s = .ok { s with gen := byteFile (genpoly deg) } := by
    simp [bodyOf, bodyRsGenpoly, legalDegree_of_le h h']
  rw [exec_eq_next hbody]
  rfl

/-- A byte range inside DATA is no illegal parameter (R212). -/
theorem State.not_dataRange_over {s : State} (h : s.arg0.toNat + s.arg1.toNat ≤ 4096) :
    ¬ s.off + s.len > Config.dataBytes :=
  Nat.not_lt.mpr h

theorem exec_rsEncode {s : State} {deg : Nat} (h : 1 ≤ deg) (h' : deg ≤ 30)
    (hrange : s.arg0.toNat + s.arg1.toNat ≤ 4096) :
    exec (.rsEncode deg) s = .next { completed s with rsout := byteFile (rsRemainder s.dataRange deg) } := by
  have hbody : bodyOf (.rsEncode deg) s = .ok { s with rsout := byteFile (rsRemainder s.dataRange deg) } := by
    rw [bodyOf, bodyRsEncode, legalDegree_of_le h h', if_neg (by decide), if_neg (State.not_dataRange_over hrange)]
  rw [exec_eq_next hbody]
  rfl

/-- What RS_SYNDROME leaves in RESULT (R131). -/
def syndromeResult (c : List Byte) (nsyn : Nat) : Word :=
  if (syndromes c nsyn).all fun b => b == 0#8 then 1#32 else 0#32

theorem exec_rsSyndrome {s : State} {nsyn : Nat} (h : 1 ≤ nsyn) (h' : nsyn ≤ 30)
    (hrange : s.arg0.toNat + s.arg1.toNat ≤ 4096) :
    exec (.rsSyndrome nsyn) s = .next { completed s with
      rsout := byteFile (syndromes s.dataRange nsyn), result := syndromeResult s.dataRange nsyn } := by
  have hbody : bodyOf (.rsSyndrome nsyn) s = .ok { s with
      rsout := byteFile (syndromes s.dataRange nsyn), result := syndromeResult s.dataRange nsyn } := by
    rw [bodyOf, bodyRsSyndrome, legalDegree_of_le h h', if_neg (by decide),
      if_neg (State.not_dataRange_over hrange)]
    rfl
  rw [exec_eq_next hbody]
  rfl

/-- RESULT is 1 exactly when every syndrome is 0 (R131). -/
theorem syndromeResult_spec (c : List Byte) (nsyn : Nat) :
    (syndromeResult c nsyn = 1#32 ∨ syndromeResult c nsyn = 0#32) ∧
    (syndromeResult c nsyn = 1#32 ↔ ∀ j, j < nsyn → polyValue c j = 0#8) := by
  have hall : (syndromes c nsyn).all (fun b => b == 0#8) = true ↔ ∀ j, j < nsyn → polyValue c j = 0#8 := by
    simp [syndromes, syndrome_eq_polyValue]
  rw [← hall, syndromeResult]
  split <;> simp [*]

theorem getElem_byteFile_syndromes (c : List Byte) (nsyn : Nat) (k : Fin 32) :
    (byteFile (syndromes c nsyn))[k] = if k.val < nsyn then polyValue c k.val else 0#8 := by
  split
  next hk => simp [syndromes, hk, syndrome_eq_polyValue]
  next hk => exact byteFile_of_length_le k.isLt (by simpa [syndromes] using hk)

/-- Settles O20: GEN is the file of the product of the deg root factors, which vanishes at each root. -/
theorem genpolyHasTheRootsOfTheGenerator : Obligations.GenpolyHasTheRootsOfTheGenerator := by
  intro s deg h h'
  obtain ⟨gs, hg, hlen⟩ := genpoly_eq_cons deg
  have hlength : (genpoly deg).length = deg + 1 := by rw [hg, List.length_cons, hlen]
  refine ⟨byteFile (genpoly deg), exec_rsGenpoly h h', ?_, fun k hk => ?_, fun i hi => ?_⟩
  · rw [getElem_byteFile, hg]
    rfl
  · exact byteFile_of_length_le k.isLt (by omega)
  · rw [← hlength, take_toList_byteFile (by omega), ← syndrome_eq_polyValue]
    exact horner_genpoly hi

/-- Settles O22: RSOUT is the file of the deg bytes of the remainder. -/
theorem encodeWritesEccOfTheDataRange : Obligations.EncodeWritesEccOfTheDataRange := by
  intro s deg h h' hrange
  have hlength := length_rsRemainder s.dataRange deg
  refine ⟨byteFile (rsRemainder s.dataRange deg), exec_rsEncode h h' hrange, ?_⟩
  rw [← State.dataRange_eq_map]
  refine ⟨fun k hk => ?_, fun k hk => byteFile_of_length_le k.isLt (by omega)⟩
  rw [Fin.getElem_fin, getElem_byteFile, List.getD_eq_getElem _ _ (by omega), List.getElem?_eq_getElem (by omega)]

/-- Settles O23: RSOUT is the file of the nsyn syndromes, each the value of the polynomial. -/
theorem syndromesAreValuesAtPowersOfAlpha : Obligations.SyndromesAreValuesAtPowersOfAlpha := by
  intro s nsyn h h' hrange
  refine ⟨byteFile (syndromes s.dataRange nsyn), syndromeResult s.dataRange nsyn,
    exec_rsSyndrome h h' hrange, ?_⟩
  rw [← State.dataRange_eq_map]
  exact ⟨getElem_byteFile_syndromes _ _, syndromeResult_spec _ _⟩

end Sys2Proof.Machine
end

section
/-! PROOFS. INTERLEAVE (R150 to R152): its stream as whole columns and the column of the long blocks. -/

namespace Sys2Proof.Machine

open Sys2Proof

/-- `n` whole columns over `nb` blocks, byte `c` of block `b` being `f c b`. -/
def wholeColumns (nb n : Nat) (f : Nat → Nat → Byte) : List Byte :=
  (List.range n).flatMap fun c => (List.range nb).map (f c)

@[simp] theorem length_wholeColumns (nb n : Nat) (f : Nat → Nat → Byte) :
    (wholeColumns nb n f).length = nb * n :=
  length_flatMap_range fun _ _ => by simp

theorem getElem?_wholeColumns {nb n c b : Nat} (f : Nat → Nat → Byte) (hc : c < n) (hb : b < nb) :
    (wholeColumns nb n f)[c * nb + b]? = some (f c b) := by
  rw [Nat.mul_comm, wholeColumns, getElem?_flatMap_range (fun _ _ => by simp) hc hb]
  simp [hb]

/-- A column that no block has run out of is whole (R151). -/
theorem columns_eq_wholeColumns {nb n : Nat} {block : Nat → List Byte} {f : Nat → Nat → Byte}
    (h : ∀ c < n, ∀ b < nb, (block b)[c]? = some (f c b)) :
    columns ((List.range nb).map block) n = wholeColumns nb n f := by
  unfold columns wholeColumns
  simp only [List.flatMap]
  congr 1
  refine List.map_congr_left fun c hc => ?_
  rw [List.filterMap_map, ← List.filterMap_eq_map]
  exact List.filterMap_congr fun b hb => h c (List.mem_range.mp hc) b (List.mem_range.mp hb)

theorem columns_succ (bs : List (List Byte)) (n : Nat) :
    columns bs (n + 1) = columns bs n ++ bs.filterMap fun b => b[n]? := by
  simp [columns, List.range_succ]

variable {g : Geometry} (data : Memory .data 8)

theorem getElem?_dataBlock (b c : Nat) :
    (dataBlock g data b)[c]? = if c < blockLen g b then some (data.read (blockStart g b + c)) else none :=
  Memory.getElem?_readBlock _ _ _ _

/-- The bytes that only the long blocks have (R151). -/
def longColumn (g : Geometry) (data : Memory .data 8) : List Byte :=
  (List.range (g.nb - g.ns)).map fun i => data.read (blockStart g (g.ns + i) + g.sdl)

theorem filterMap_dataBlock_eq_longColumn (h : g.ns ≤ g.nb) :
    ((List.range g.nb).map (dataBlock g data)).filterMap (fun b => b[g.sdl]?) = longColumn g data := by
  have hshort : (List.range g.ns).filterMap (fun b => (dataBlock g data b)[g.sdl]?) = [] := by
    refine List.filterMap_eq_nil_iff.mpr fun b hb => ?_
    rw [getElem?_dataBlock, blockLen, if_pos (List.mem_range.mp hb), if_neg (Nat.lt_irrefl _)]
  have hlong (i : Nat) : (dataBlock g data (g.ns + i))[g.sdl]? =
      some (data.read (blockStart g (g.ns + i) + g.sdl)) := by
    rw [getElem?_dataBlock, blockLen, if_neg (by omega : ¬ g.ns + i < g.ns), if_pos (Nat.lt_succ_self _)]
  conv_lhs => rw [List.filterMap_map, ← Nat.add_sub_cancel' h, List.range_add, List.filterMap_append]
  rw [Function.comp_def, hshort, List.nil_append, List.filterMap_map, longColumn, ← List.filterMap_eq_map]
  exact List.filterMap_congr fun i _ => hlong i

/-- The ECC codewords of block `b` (R151). -/
def eccBlock (g : Geometry) (data : Memory .data 8) (b : Nat) : List Byte :=
  rsRemainder (dataBlock g data b) g.el

/-- The stream: the whole data columns, the long blocks' column, the ECC columns (R151). -/
theorem interleaved_eq (h : g.ns ≤ g.nb) :
    interleaved g data = wholeColumns g.nb g.sdl (fun c b => data.read (blockStart g b + c)) ++
      longColumn g data ++ wholeColumns g.nb g.el fun c b => (eccBlock g data b).getD c 0#8 := by
  have hdata : ∀ c < g.sdl, ∀ b < g.nb,
      (dataBlock g data b)[c]? = some (data.read (blockStart g b + c)) := by
    intro c hc b _
    rw [getElem?_dataBlock, if_pos (by unfold blockLen; split <;> omega)]
  have hecc : ∀ c < g.el, ∀ b < g.nb, (eccBlock g data b)[c]? = some ((eccBlock g data b).getD c 0#8) := by
    intro c hc b _
    have hlen : c < (eccBlock g data b).length := hc.trans_eq (length_rsRemainder _ _).symm
    rw [List.getD_eq_getElem _ _ hlen, List.getElem?_eq_getElem hlen]
  unfold interleaved
  simp only [List.map_map]
  rw [columns_succ, columns_eq_wholeColumns hdata, filterMap_dataBlock_eq_longColumn data h]
  exact congrArg _ (columns_eq_wholeColumns hecc)

theorem length_interleaved (h : GeometryFits g) : (interleaved g data).length = g.tot := by
  rw [interleaved_eq data h.ns.2, List.length_append, List.length_append, length_wholeColumns,
    length_wholeColumns, longColumn, List.length_map, List.length_range, ← h.dcw_add, h.dcw_eq]

section
variable (h : GeometryFits g)
include h

theorem getElem?_interleaved_short {c b : Nat} (hc : c < g.sdl) (hb : b < g.nb) :
    (interleaved g data)[c * g.nb + b]? = some (data.read (blockStart g b + c)) := by
  have hcol := getElem?_wholeColumns (fun c b => data.read (blockStart g b + c)) hc hb
  have hlt := (List.getElem?_eq_some_iff.mp hcol).1
  rw [interleaved_eq data h.ns.2, List.append_assoc, List.getElem?_append_left hlt, hcol]

theorem getElem?_interleaved_long {b : Nat} (hb : g.ns ≤ b) (hb' : b < g.nb) :
    (interleaved g data)[g.sdl * g.nb + (b - g.ns)]? = some (data.read (blockStart g b + g.sdl)) := by
  have hlt : b - g.ns < g.nb - g.ns := by omega
  rw [interleaved_eq data h.ns.2, List.append_assoc, List.getElem?_append_right (by simp [Nat.mul_comm]),
    length_wholeColumns, Nat.mul_comm, Nat.add_sub_cancel_left,
    List.getElem?_append_left (by simpa [longColumn] using hlt), longColumn, List.getElem?_map,
    List.getElem?_range hlt, Option.map_some, Nat.add_sub_cancel' hb]

theorem getElem?_interleaved_ecc {c b : Nat} (hc : c < g.el) (hb : b < g.nb) :
    (interleaved g data)[g.dcw + c * g.nb + b]? = some ((eccBlock g data b).getD c 0#8) := by
  have hlen : (wholeColumns g.nb g.sdl (fun c b => data.read (blockStart g b + c)) ++
      longColumn g data).length = g.dcw := by
    rw [List.length_append, length_wholeColumns, longColumn, List.length_map, List.length_range, h.dcw_eq]
  rw [interleaved_eq data h.ns.2, List.getElem?_append_right (by omega), hlen, Nat.add_assoc,
    Nat.add_sub_cancel_left, getElem?_wholeColumns _ hc hb]

end

/-- A listed byte of a block written from location 0 reads back. -/
theorem Memory.read_writeBlock_zero_of_getElem? {id : MemId} {w : Nat} (m : Memory id w) {vs : List (BitVec w)}
    {i : Nat} {v : BitVec w} (h : vs[i]? = some v) : (m.writeBlock 0 vs).read i = v := by
  obtain ⟨hlt, rfl⟩ := List.getElem?_eq_some_iff.mp h
  rw [Memory.read_writeBlock, if_pos (by omega), Nat.sub_zero, List.getD_eq_getElem _ _ hlt]

/-- Settles O26: the stream's bytes are the columns', it is TOT bytes long, and CW holds it from byte 0. -/
theorem interleaveEmitsColumns : Obligations.InterleaveEmitsColumns := by
  unfold Obligations.InterleaveEmitsColumns
  intro s hp hs
  have hfits := State.geom_fits hp hs
  have hlen := length_interleaved s.data hfits
  have hbody : bodyOf .interleave s = .ok { s with cw := s.cw.writeBlock 0 (interleaved s.geom s.data) } := by
    rw [bodyOf, bodyInterleave, State.withGeometry_of_legal hs, List.take_of_length_le hlen.le]
  refine ⟨s.cw.writeBlock 0 (interleaved s.geom s.data), ?_, fun c b hc hb => ?_, fun b hb hb' => ?_,
    fun c b hc hb => ?_, fun i hi => ?_⟩
  · rw [exec_eq_next hbody]
    rfl
  · exact Memory.read_writeBlock_zero_of_getElem? _ (getElem?_interleaved_short s.data hfits hc hb)
  · exact Memory.read_writeBlock_zero_of_getElem? _ (getElem?_interleaved_long s.data hfits hb hb')
  · rw [Memory.read_writeBlock_zero_of_getElem? _ (getElem?_interleaved_ecc s.data hfits hc hb)]
    have hlt : c < (eccBlock s.geom s.data b).length := hc.trans_eq (length_rsRemainder _ _).symm
    rw [List.getD_eq_getElem _ _ hlt]
    exact List.getElem?_eq_getElem hlt
  · rw [Memory.read_writeBlock, if_neg (by omega)]

end Sys2Proof.Machine
end

section
/-! PROOFS. Lines spelled by their runs (R185): when given runs stand at the front of a line. -/

namespace Sys2Proof.Machine

open Sys2Proof

/-! ### Lines spelled by their runs -/

/-- The line of a list of runs. -/
def spell (qs : List (Bool × Nat)) : List Bool := qs.flatMap fun q => List.replicate q.2 q.1

@[simp] theorem spell_nil : spell [] = [] := rfl

@[simp] theorem spell_cons (c : Bool) (n : Nat) (qs : List (Bool × Nat)) :
    spell ((c, n) :: qs) = List.replicate n c ++ spell qs := List.flatMap_cons

@[simp] theorem spell_append (ps qs : List (Bool × Nat)) : spell (ps ++ qs) = spell ps ++ spell qs :=
  List.flatMap_append

theorem spell_reverse (qs : List (Bool × Nat)) : spell qs.reverse = (spell qs).reverse := by
  simp [spell, List.reverse_flatMap, Function.comp_def]

/-- Runs as they stand in a line: none empty, neighbours of different colours (R185). -/
def AreRuns (qs : List (Bool × Nat)) : Prop :=
  (∀ q ∈ qs, 1 ≤ q.2) ∧ List.IsChain (fun r q : Bool × Nat => r.1 ≠ q.1) qs

theorem areRuns_runs (line : List Bool) : AreRuns (runs line) := ⟨one_le_of_mem_runs, isChain_runs line⟩

theorem areRuns_nil : AreRuns [] := ⟨by simp, .nil⟩

theorem AreRuns.tail {q : Bool × Nat} {qs : List (Bool × Nat)} (h : AreRuns (q :: qs)) : AreRuns qs :=
  ⟨(List.forall_mem_cons.mp h.1).2, h.2.tail⟩

theorem AreRuns.head_pos {q : Bool × Nat} {qs : List (Bool × Nat)} (h : AreRuns (q :: qs)) : 1 ≤ q.2 :=
  (List.forall_mem_cons.mp h.1).1

theorem AreRuns.ne_head {q r : Bool × Nat} {qs : List (Bool × Nat)} (h : AreRuns (q :: r :: qs)) : q.1 ≠ r.1 :=
  (List.isChain_cons_cons.mp h.2).1

theorem AreRuns.reverse {qs : List (Bool × Nat)} (h : AreRuns qs) : AreRuns qs.reverse :=
  ⟨fun q hq => h.1 q (List.mem_reverse.mp hq), by
    rw [List.isChain_reverse]
    exact h.2.imp fun _ _ hne => hne.symm⟩

theorem exists_spell_eq_cons {q : Bool × Nat} {qs : List (Bool × Nat)} (h : AreRuns (q :: qs)) :
    ∃ t, spell (q :: qs) = q.1 :: t := by
  obtain ⟨c, n⟩ := q
  obtain ⟨n, rfl⟩ := Nat.exists_eq_add_of_le' (show 1 ≤ n from h.head_pos)
  exact ⟨List.replicate n c ++ spell qs, by rw [spell_cons, List.replicate_succ]; rfl⟩

/-- The line behind a run starts with the other colour. -/
theorem AreRuns.head?_spell_tail {c : Bool} {n : Nat} {qs : List (Bool × Nat)} (h : AreRuns ((c, n) :: qs)) :
    (spell qs).head? ≠ some c := by
  cases qs with
  | nil => simp
  | cons r qs =>
    obtain ⟨t, ht⟩ := exists_spell_eq_cons h.tail
    simpa [ht] using Ne.symm h.ne_head

/-! ### Runs at the front of a line -/

theorem replicate_append_cons_prefix {c y : Bool} {t s : List Bool} {k n : Nat} (hy : y ≠ c)
    (hs : s.head? ≠ some c) :
    List.replicate k c ++ y :: t <+: List.replicate n c ++ s ↔ k = n ∧ y :: t <+: s := by
  induction k generalizing n with
  | zero =>
    cases n with
    | zero => simp
    | succ n => simp [List.replicate_succ, List.cons_prefix_cons, hy]
  | succ k ih =>
    cases n with
    | zero =>
      cases s with
      | nil => simp [List.replicate_succ]
      | cons z s =>
        have hz : c ≠ z := fun h => hs (by simp [h])
        simp [List.replicate_succ, List.cons_prefix_cons, hz]
    | succ n => simp [List.replicate_succ, List.cons_prefix_cons, ih]

theorem replicate_prefix_replicate_append {c : Bool} {s : List Bool} {b n : Nat} (hs : s.head? ≠ some c) :
    List.replicate b c <+: List.replicate n c ++ s ↔ b ≤ n := by
  induction b generalizing n with
  | zero => simp
  | succ b ih =>
    cases n with
    | zero =>
      cases s with
      | nil => simp [List.replicate_succ]
      | cons z s =>
        have hz : c ≠ z := fun h => hs (by simp [h])
        simp [List.replicate_succ, List.cons_prefix_cons, hz]
    | succ n => simp [List.replicate_succ, List.cons_prefix_cons, ih]

/-- The length of a light run at the front. -/
def lightLength : List (Bool × Nat) → Nat
  | (false, n) :: _ => n
  | _ => 0

theorem replicate_false_prefix_spell {qs : List (Bool × Nat)} (h : AreRuns qs) {b : Nat} (hb : 1 ≤ b) :
    List.replicate b false <+: spell qs ↔ b ≤ lightLength qs := by
  cases qs with
  | nil =>
    rw [spell_nil, List.prefix_nil, List.replicate_eq_nil_iff, lightLength.eq_def]
    simp only
    omega
  | cons q qs =>
    obtain ⟨c, n⟩ := q
    rw [spell_cons]
    cases c with
    | false => exact replicate_prefix_replicate_append h.head?_spell_tail
    | true =>
      obtain ⟨m, rfl⟩ := Nat.exists_eq_add_of_le' hb
      obtain ⟨k, rfl⟩ := Nat.exists_eq_add_of_le' (show 1 ≤ n from h.head_pos)
      simp [List.replicate_succ, List.cons_prefix_cons, lightLength]

/-- Runs `ks` and `b` light cells stand at the front of a line exactly when `ks` are its first runs, with a light
run of at least `b` behind them. -/
theorem spell_prefix_spell_iff {ks qs : List (Bool × Nat)} {b : Nat} (hk : AreRuns (ks ++ [(false, b)]))
    (hq : AreRuns qs) :
    spell (ks ++ [(false, b)]) <+: spell qs ↔ ks <+: qs ∧ b ≤ lightLength (qs.drop ks.length) := by
  induction ks generalizing qs with
  | nil => simpa using replicate_false_prefix_spell hq hk.head_pos
  | cons k ks ih =>
    obtain ⟨c, k⟩ := k
    have hrest : AreRuns (ks ++ [(false, b)]) := hk.tail
    obtain ⟨r, rs, hr⟩ := List.exists_cons_of_ne_nil (show ks ++ [(false, b)] ≠ [] by simp)
    obtain ⟨t, ht⟩ := exists_spell_eq_cons (hr ▸ hrest)
    rw [List.cons_append, hr] at hk
    have hne : r.1 ≠ c := hk.ne_head.symm
    cases qs with
    | nil =>
      have := hk.head_pos
      simp
      omega
    | cons q qs =>
      obtain ⟨d, n⟩ := q
      rw [List.cons_append, spell_cons, spell_cons]
      by_cases hcd : c = d
      · subst hcd
        rw [hr, ht, replicate_append_cons_prefix hne hq.head?_spell_tail, ← ht, ← hr, ih hrest hq.tail,
          List.cons_prefix_cons, List.length_cons, List.drop_succ_cons, Prod.mk.injEq]
        simp [and_assoc]
      · obtain ⟨m, rfl⟩ := Nat.exists_eq_add_of_le' (show 1 ≤ k from hk.head_pos)
        obtain ⟨j, rfl⟩ := Nat.exists_eq_add_of_le' (show 1 ≤ n from hq.head_pos)
        simp [List.replicate_succ, List.cons_prefix_cons, hcd]

end Sys2Proof.Machine
end

section
/-! PROOFS. N3's count over runs as a count of windows (R189): the windows of one scale are counted along the
runs of the line, and the border's unbounded runs stand for runs of 4w light cells and more. -/

namespace Sys2Proof.Machine

open Sys2Proof

/-! ### Occurrences of a pattern in a line -/

/-- How often `pat` occurs in a line. -/
def occurrences (pat line : List Bool) : Nat :=
  (List.range line.length).countP fun i => decide (pat <+: line.drop i)

theorem occurrences_cons (pat : List Bool) (c : Bool) (line : List Bool) :
    occurrences pat (c :: line) = (decide (pat <+: c :: line)).toNat + occurrences pat line := by
  rw [occurrences, List.length_cons, List.range_succ_eq_map, List.countP_cons, List.countP_map, Nat.add_comm,
    occurrences]
  congr 1
  simp only [List.drop_zero, Bool.toNat, Bool.cond_eq_ite]

/-- A pattern that starts light does not start in a dark run. -/
theorem occurrences_replicate_true (a n : Nat) (t line : List Bool) (ha : 1 ≤ a) :
    occurrences (List.replicate a false ++ t) (List.replicate n true ++ line) =
      occurrences (List.replicate a false ++ t) line := by
  obtain ⟨a, rfl⟩ := Nat.exists_eq_add_of_le' ha
  induction n with
  | zero => rfl
  | succ n ih =>
    rw [List.replicate_succ (n := n), List.cons_append, occurrences_cons, ih]
    simp [List.replicate_succ, List.cons_prefix_cons]

/-- A pattern of `a` light cells and a dark one occurs once in a light run, when the run has `a` cells and the
rest of the pattern stands behind it. -/
theorem occurrences_replicate_false {a n : Nat} {t line : List Bool} (ha : 1 ≤ a)
    (hline : line.head? ≠ some false) :
    occurrences (List.replicate a false ++ true :: t) (List.replicate n false ++ line) =
      (decide (a ≤ n ∧ true :: t <+: line)).toNat + occurrences (List.replicate a false ++ true :: t) line := by
  induction n with
  | zero =>
    rw [decide_eq_false (by omega)]
    simp
  | succ n ih =>
    have hfront := replicate_append_cons_prefix (k := a) (n := n + 1) (t := t) (y := true) (by decide) hline
    rw [List.replicate_succ (n := n), List.cons_append] at hfront
    rw [List.replicate_succ (n := n), List.cons_append, occurrences_cons, ih, ← Nat.add_assoc]
    simp only [hfront]
    congr 1
    by_cases hp : true :: t <+: line
    · obtain hlt | rfl | hgt := Nat.lt_trichotomy a (n + 1)
      · simp [hp, hlt.ne, hlt.le, Nat.lt_succ_iff.mp hlt]
      · simp [hp]
      · simp [hp, hgt.ne', hgt.not_ge, (Nat.lt_of_succ_lt hgt).not_ge]
    · simp [hp]

/-! ### The core of one scale -/

/-- The runs of the core at scale `w` (R189). -/
def coreRuns (w : Nat) : List (Bool × Nat) := [(true, w), (false, w), (true, 3 * w), (false, w), (true, w)]

theorem areRuns_coreRuns_append {w b : Nat} (hw : 1 ≤ w) (hb : 1 ≤ b) :
    AreRuns (coreRuns w ++ [(false, b)]) := by
  refine ⟨?_, by simp [coreRuns]⟩
  simp only [coreRuns, List.cons_append, List.nil_append, List.forall_mem_cons]
  refine ⟨hw, hw, by omega, hw, hw, hb, by simp⟩

/-- The core and `b` light cells. -/
def corePattern (w b : Nat) : List Bool := spell (coreRuns w ++ [(false, b)])

theorem coreWindows_eq (w : Nat) (line : List Bool) :
    coreWindows w line = occurrences (List.replicate (4 * w) false ++ corePattern w w) line +
      occurrences (List.replicate w false ++ corePattern w (4 * w)) line := by
  have hcount (pat : List Bool) (hlen : pat.length = 12 * w) :
      (List.range line.length).countP (fun i => (line.drop i).take (12 * w) == pat) = occurrences pat line := by
    refine List.countP_congr fun i _ => ?_
    rw [beq_iff_eq, decide_eq_true_eq, List.prefix_iff_eq_take, hlen, eq_comm]
  unfold coreWindows
  simp only
  rw [hcount _ (by simp; omega), hcount _ (by simp; omega)]
  simp [corePattern, coreRuns]

/-- The windows whose core starts a line, behind a light run of `m` cells. -/
def windowsAt (w m : Nat) (line : List Bool) : Nat :=
  (decide (4 * w ≤ m ∧ corePattern w w <+: line)).toNat +
    (decide (w ≤ m ∧ corePattern w (4 * w) <+: line)).toNat

theorem exists_corePattern_eq_cons {w b : Nat} (hw : 1 ≤ w) (hb : 1 ≤ b) :
    ∃ t, corePattern w b = true :: t :=
  exists_spell_eq_cons (areRuns_coreRuns_append hw hb)

/-- A run in front of a line adds the windows whose light run it is. -/
theorem coreWindows_spell_cons {w : Nat} (hw : 1 ≤ w) {c : Bool} {n : Nat} {qs : List (Bool × Nat)}
    (h : AreRuns ((c, n) :: qs)) :
    coreWindows w (spell ((c, n) :: qs)) =
      (if c then 0 else windowsAt w n (spell qs)) + coreWindows w (spell qs) := by
  obtain ⟨t, ht⟩ := exists_corePattern_eq_cons hw hw
  obtain ⟨t', ht'⟩ := exists_corePattern_eq_cons hw (show 1 ≤ 4 * w by omega)
  rw [coreWindows_eq, coreWindows_eq, spell_cons]
  cases c with
  | true =>
    rw [occurrences_replicate_true _ _ _ _ (by omega), occurrences_replicate_true _ _ _ _ hw, if_pos rfl,
      Nat.zero_add]
  | false =>
    rw [windowsAt, ht, ht', occurrences_replicate_false (by omega) h.head?_spell_tail,
      occurrences_replicate_false hw h.head?_spell_tail, if_neg (by decide)]
    omega

/-! ### The runs N3 looks at, and the runs of the padded line -/

/-- `q` is a run of the padded line for the run `r`: the unbounded run stands for 4w light cells and more. -/
def Pads (w : Nat) (r : Bool × RunLength) (q : Bool × Nat) : Prop :=
  r = (q.1, .cells q.2) ∨ (r = (false, .unbounded) ∧ q.1 = false ∧ 4 * w ≤ q.2)

theorem Pads.fst_eq {w : Nat} {r : Bool × RunLength} {q : Bool × Nat} (h : Pads w r q) : r.1 = q.1 := by
  obtain rfl | ⟨rfl, hq, _⟩ := h
  · rfl
  · exact hq.symm

/-- N3 asks for at most 4w light cells, which the unbounded run has (R189). -/
theorem Pads.atLeast_iff {w k : Nat} {r : Bool × RunLength} {q : Bool × Nat} (h : Pads w r q) (hk : k ≤ 4 * w) :
    r.2.atLeast k = true ↔ k ≤ q.2 := by
  obtain rfl | ⟨rfl, _, hq⟩ := h
  · exact decide_eq_true_iff
  · exact ⟨fun _ => hk.trans hq, fun _ => rfl⟩

theorem Pads.eq_cells_iff {w k : Nat} {r : Bool × RunLength} {q : Bool × Nat} (h : Pads w r q) (hk : k < 4 * w)
    (c : Bool) : (c, RunLength.cells k) = r ↔ (c, k) = q := by
  obtain rfl | ⟨rfl, _, hq⟩ := h
  · simp [Prod.ext_iff]
  · have hne : (c, k) ≠ q := by
      rintro rfl
      exact absurd hq (Nat.not_le.mpr hk)
    simp [hne]

/-- A run of the line as N3 looks at it (R189). -/
def cellsRun (q : Bool × Nat) : Bool × RunLength := (q.1, .cells q.2)

theorem map_cellsRun_prefix_iff {w : Nat} {ks qs : List (Bool × Nat)} {rs : List (Bool × RunLength)}
    (h : List.Forall₂ (Pads w) rs qs) (hk : ∀ k ∈ ks, k.2 < 4 * w) :
    ks.map cellsRun <+: rs ↔ ks <+: qs := by
  induction ks generalizing rs qs with
  | nil => simp
  | cons k ks ih =>
    obtain ⟨hk, hks⟩ := List.forall_mem_cons.mp hk
    cases h with
    | nil => simp
    | cons hr hrs =>
      rw [List.map_cons, List.cons_prefix_cons, List.cons_prefix_cons, ih hrs hks]
      exact and_congr_left' (hr.eq_cells_iff hk k.1)

/-- What N3 counts at a run at scale `w` alone (R189). -/
def coresAt (w : Nat) (prev : Option RunLength) (rs : List (Bool × RunLength)) : Nat :=
  if (coreRuns w).map cellsRun <+: rs then
    let left := prev.getD (.cells 0)
    let right := ((rs.drop 5).head?.map Prod.snd).getD (.cells 0)
    (left.atLeast (4 * w) && right.atLeast w).toNat + (right.atLeast (4 * w) && left.atLeast w).toNat
  else 0

/-- The light run behind the core. -/
theorem atLeast_head?_iff {w k : Nat} {rs : List (Bool × RunLength)} {qs : List (Bool × Nat)}
    (h : List.Forall₂ (Pads w) rs qs) (hlight : ∀ q ∈ qs.head?, q.1 = false) (hk : k ≤ 4 * w) :
    ((rs.head?.map Prod.snd).getD (.cells 0)).atLeast k = true ↔ k ≤ lightLength qs := by
  cases h with
  | nil => simp [RunLength.atLeast, lightLength]
  | @cons r q _ _ hr _ =>
    obtain ⟨c, n⟩ := q
    obtain rfl : c = false := by simpa using hlight
    simpa [lightLength] using hr.atLeast_iff hk

theorem coresAt_eq_windowsAt {w m : Nat} (hw : 1 ≤ w) {prev : Option RunLength}
    {rs : List (Bool × RunLength)} {qs : List (Bool × Nat)} (h : List.Forall₂ (Pads w) rs qs) (hq : AreRuns qs)
    (hprev : ∀ k, 1 ≤ k → k ≤ 4 * w → ((prev.getD (.cells 0)).atLeast k = true ↔ k ≤ m)) :
    coresAt w prev rs = windowsAt w m (spell qs) := by
  have hcore : (coreRuns w).map cellsRun <+: rs ↔ coreRuns w <+: qs :=
    map_cellsRun_prefix_iff h (by simp [coreRuns]; omega)
  have hfront {b : Nat} (hb : 1 ≤ b) : corePattern w b <+: spell qs ↔
      coreRuns w <+: qs ∧ b ≤ lightLength (qs.drop 5) :=
    spell_prefix_spell_iff (areRuns_coreRuns_append hw hb) hq
  rw [coresAt, windowsAt]
  simp only [hfront hw, hfront (show 1 ≤ 4 * w by omega), hcore]
  by_cases hc : coreRuns w <+: qs
  · obtain ⟨rest, rfl⟩ := hc
    have hlight : ∀ q ∈ rest.head?, q.1 = false := by
      intro q hmem
      obtain ⟨rest, rfl⟩ := List.head?_eq_some_iff.mp hmem
      have := hq.tail.tail.tail.tail.ne_head
      simpa using this.symm
    have hright {k : Nat} (hk : k ≤ 4 * w) := atLeast_head?_iff (List.forall₂_drop 5 h) hlight hk
    have hleft := hprev w hw (by omega)
    have hleft' := hprev (4 * w) (by omega) le_rfl
    rw [if_pos (List.prefix_append _ _)]
    have hboth {x y : Bool} {p q r : Prop} [Decidable p] [Decidable q] [Decidable r] (hr : r) (hx : x = true ↔ p)
        (hy : y = true ↔ q) : (y && x) = decide (q ∧ r ∧ p) := by
      rw [Bool.eq_iff_iff, Bool.and_eq_true, hx, hy, decide_eq_true_iff]
      simp [hr]
    congr 2
    · exact hboth (List.prefix_append _ _) (hright (by omega)) hleft'
    · rw [Bool.and_comm]
      exact hboth (List.prefix_append _ _) (hright le_rfl) hleft
  · simp [hc]

/-- What N3 counts along the runs at scale `w` alone (R189). -/
def coresFrom (w : Nat) (prev : Option RunLength) : List (Bool × RunLength) → Nat
  | [] => 0
  | r :: rest => coresAt w prev (r :: rest) + coresFrom w (some r.2) rest

@[simp] theorem coresAt_false (w : Nat) (prev : Option RunLength) (b : RunLength) (rs : List (Bool × RunLength)) :
    coresAt w prev ((false, b) :: rs) = 0 :=
  if_neg (by simp [coreRuns, cellsRun, List.cons_prefix_cons])

@[simp] theorem coresAt_nil (w : Nat) (prev : Option RunLength) : coresAt w prev [] = 0 :=
  if_neg (by simp [coreRuns])

/-- Along the runs: the windows behind `prev`, and those that start in the line. -/
theorem coresFrom_eq {w : Nat} (hw : 1 ≤ w) (prev : Option RunLength) {rs : List (Bool × RunLength)}
    {qs : List (Bool × Nat)} (h : List.Forall₂ (Pads w) rs qs) (hq : AreRuns qs) :
    coresFrom w prev rs = coresAt w prev rs + coreWindows w (spell qs) := by
  induction h generalizing prev with
  | nil => simp [coresFrom, coreWindows]
  | @cons r q rs qs hr hrs ih =>
    obtain ⟨c, n⟩ := q
    rw [coresFrom, ih (some r.2) hq.tail, coreWindows_spell_cons hw hq]
    congr 2
    cases c with
    | true =>
      cases hrs with
      | nil => simp
      | @cons r' q' rs qs hr' _ =>
        have hlight : r'.1 = false := by
          rw [hr'.fst_eq]
          simpa using hq.ne_head.symm
        rw [if_pos rfl, ← coresAt_false w (some r.2) r'.2 rs, ← hlight]
    | false =>
      rw [if_neg (by decide)]
      exact coresAt_eq_windowsAt hw hrs hq.tail fun k _ hk => hr.atLeast_iff hk

/-- No window's core starts a line. -/
theorem coresAt_none {w : Nat} (hw : 1 ≤ w) {rs : List (Bool × RunLength)} {qs : List (Bool × Nat)}
    (h : List.Forall₂ (Pads w) rs qs) (hq : AreRuns qs) : coresAt w none rs = 0 := by
  have hprev (k : Nat) : ((none : Option RunLength).getD (.cells 0)).atLeast k = true ↔ k ≤ 0 :=
    decide_eq_true_iff
  rw [coresAt_eq_windowsAt hw h hq fun k _ _ => hprev k, windowsAt, decide_eq_false (by omega),
    decide_eq_false (by omega)]
  rfl

/-! ### The border -/

/-- `m` light cells in front of the runs of a line. -/
def lightRunBefore (m : Nat) : List (Bool × Nat) → List (Bool × Nat)
  | (false, n) :: rest => (false, m + n) :: rest
  | qs => (false, m) :: qs

theorem spell_lightRunBefore (m : Nat) (qs : List (Bool × Nat)) :
    spell (lightRunBefore m qs) = List.replicate m false ++ spell qs := by
  unfold lightRunBefore
  split
  · rw [spell_cons, spell_cons, ← List.replicate_append_replicate, List.append_assoc]
  · exact spell_cons _ _ _

theorem areRuns_lightRunBefore {m : Nat} (hm : 1 ≤ m) {qs : List (Bool × Nat)} (h : AreRuns qs) :
    AreRuns (lightRunBefore m qs) := by
  unfold lightRunBefore
  split
  next n rest =>
    refine ⟨List.forall_mem_cons.mpr ⟨?_, h.tail.1⟩, ?_⟩
    · exact hm.trans (Nat.le_add_right m n)
    · cases rest with
      | nil => exact .singleton _
      | cons r rest => exact List.isChain_cons_cons.mpr ⟨h.ne_head, h.tail.2⟩
  next hdark =>
    refine ⟨List.forall_mem_cons.mpr ⟨hm, h.1⟩, ?_⟩
    cases qs with
    | nil => exact .singleton _
    | cons q qs =>
      obtain ⟨c, n⟩ := q
      cases c with
      | false => exact absurd rfl (hdark n qs)
      | true => exact List.isChain_cons_cons.mpr ⟨by simp, h.2⟩

theorem forall₂_lightBefore {w m : Nat} (hm : 4 * w ≤ m) {rs : List (Bool × RunLength)} {qs : List (Bool × Nat)}
    (h : List.Forall₂ (Pads w) rs qs) : List.Forall₂ (Pads w) (lightBefore rs) (lightRunBefore m qs) := by
  cases h with
  | nil => exact .cons (.inr ⟨rfl, rfl, hm⟩) .nil
  | @cons r q rs qs hr hrs =>
    obtain ⟨c, b⟩ := r
    obtain ⟨d, n⟩ := q
    obtain rfl : c = d := hr.fst_eq
    cases c with
    | false => exact .cons (.inr ⟨rfl, rfl, hm.trans (Nat.le_add_right m n)⟩) hrs
    | true => exact .cons (.inr ⟨rfl, rfl, hm⟩) (.cons hr hrs)

/-- The line N3 looks at scale `w`. -/
def paddedLine (borderLight : Bool) (w : Nat) (line : List Bool) : List Bool :=
  if borderLight then List.replicate (4 * w) false ++ line ++ List.replicate (4 * w) false else line

theorem exists_pads_n3Runs (borderLight : Bool) {w : Nat} (hw : 1 ≤ w) (line : List Bool) :
    ∃ qs, List.Forall₂ (Pads w) (n3Runs borderLight line) qs ∧ AreRuns qs ∧
      spell qs = paddedLine borderLight w line := by
  have hruns : List.Forall₂ (Pads w) ((runs line).map fun (c, len) => (c, RunLength.cells len)) (runs line) :=
    List.forall₂_map_left_iff.mpr (List.forall₂_same.mpr fun _ _ => .inl rfl)
  have hq := areRuns_runs line
  have hspell : spell (runs line) = line := flatMap_runs line
  unfold n3Runs paddedLine
  cases borderLight with
  | false => exact ⟨runs line, hruns, hq, hspell⟩
  | true =>
    have hm : 1 ≤ 4 * w := by omega
    have hleft := List.rel_reverse (forall₂_lightBefore le_rfl hruns)
    refine ⟨(lightRunBefore (4 * w) (lightRunBefore (4 * w) (runs line)).reverse).reverse,
      List.rel_reverse (forall₂_lightBefore le_rfl hleft),
      (areRuns_lightRunBefore hm (areRuns_lightRunBefore hm hq).reverse).reverse, ?_⟩
    simp [spell_reverse, spell_lightRunBefore, hspell]

/-- At one scale N3 counts the windows of the padded line (R189). -/
theorem coresFrom_n3Runs (borderLight : Bool) {w : Nat} (hw : 1 ≤ w) (line : List Bool) :
    coresFrom w none (n3Runs borderLight line) = coreWindows w (paddedLine borderLight w line) := by
  obtain ⟨qs, hpads, hq, hspell⟩ := exists_pads_n3Runs borderLight hw line
  rw [coresFrom_eq hw none hpads hq, coresAt_none hw hpads hq, Nat.zero_add, hspell]

/-! ### The scales -/

/-- A sum over a range with one term at most. -/
theorem sum_map_range_eq_of_single {f : Nat → Nat} {k₀ n : Nat} (h : ∀ k, k ≠ k₀ → f k = 0) :
    ((List.range n).map f).sum = if k₀ < n then f k₀ else 0 := by
  induction n with
  | zero => simp
  | succ n ih =>
    rw [List.range_succ, List.map_append, List.sum_append, ih, List.map_singleton, List.sum_singleton]
    obtain hlt | rfl | hgt := Nat.lt_trichotomy k₀ n
    · rw [if_pos hlt, if_pos (by omega), h n hlt.ne', Nat.add_zero]
    · simp
    · rw [if_neg (by omega), if_neg (by omega), h n hgt.ne]

/-- How many scales N3 looks at in a line of `len` cells (R189). -/
def scaleCount (scaled : Bool) (len : Nat) : Nat := if scaled then len else 1

/-- Scales beyond the first count only when N3 is scaled (R189). -/
theorem lt_scaleCount_iff {scaled : Bool} {k len : Nat} (hk : k < len) :
    k < scaleCount scaled len ↔ ¬ (!scaled && k + 1 != 1) = true := by
  cases scaled <;> simp [scaleCount, hk]

/-- A core counts at the scale of its first run (R189). -/
theorem n3At_eq_sum_coresAt {scaled : Bool} {len : Nat} (prev : Option RunLength)
    {rs : List (Bool × RunLength)} (hempty : NoEmptyRun rs) (hlen : cellsOf rs ≤ len) :
    n3At scaled prev rs = ((List.range (scaleCount scaled len)).map fun k => coresAt (k + 1) prev rs).sum := by
  unfold n3At
  split
  next w b c d e rest =>
    have hw : w ≠ 0 := by
      rintro rfl
      exact (List.forall_mem_cons.mp hempty).1 rfl
    obtain ⟨k, rfl⟩ := Nat.exists_eq_succ_of_ne_zero hw
    have hk : k < len := by
      simp only [cellsOf, List.map_cons, List.sum_cons, RunLength.size] at hlen
      omega
    have hother (j : Nat) (hj : j ≠ k) : coresAt (j + 1) prev ((true, .cells k.succ) :: (false, b) ::
        (true, c) :: (false, d) :: (true, e) :: rest) = 0 :=
      if_neg (by simp [coreRuns, cellsRun, List.cons_prefix_cons, hj])
    rw [sum_map_range_eq_of_single hother]
    by_cases hscale : k < scaleCount scaled len
    · rw [if_pos hscale, if_neg ((lt_scaleCount_iff hk).mp hscale), coresAt]
      simp [coreRuns, cellsRun, List.cons_prefix_cons, eq_comm]
    · rw [if_neg hscale, if_pos (not_not.mp (mt (lt_scaleCount_iff hk).mpr hscale))]
  next hne =>
    have hzero (k : Nat) : coresAt (k + 1) prev rs = 0 := by
      refine if_neg fun ⟨rest, h⟩ => hne _ _ _ _ _ rest h.symm
    simp [hzero]

theorem n3From_eq_sum_coresFrom {scaled : Bool} {len : Nat} (prev : Option RunLength)
    {rs : List (Bool × RunLength)} (hempty : NoEmptyRun rs) (hlen : cellsOf rs ≤ len) :
    n3From scaled prev rs = ((List.range (scaleCount scaled len)).map fun k => coresFrom (k + 1) prev rs).sum := by
  induction rs generalizing prev with
  | nil => simp [n3From, coresFrom]
  | cons r rs ih =>
    have hrest : cellsOf rs ≤ len := by
      refine le_trans ?_ hlen
      simp [cellsOf]
    rw [n3From, n3At_eq_sum_coresAt prev hempty hlen, ih _ (List.forall_mem_cons.mp hempty).2 hrest,
      ← List.sum_map_add]
    rfl

/-- Settles O35: the cores are counted scale by scale, at each scale as windows of the padded line. -/
theorem finderCountIsAWindowCount : Obligations.FinderCountIsAWindowCount := by
  intro p line
  obtain ⟨hempty, hlen⟩ := n3Runs_spec p.n3BorderLight line
  rw [n3Count, n3From_eq_sum_coresFrom none hempty hlen]
  exact congrArg List.sum (List.map_congr_left fun k _ => coresFrom_n3Runs _ (Nat.succ_pos k) line)

end Sys2Proof.Machine
end
